-- ==== Sys2Proof/Word.lean ====
section
/-! DEFINITION. The words of LSBSC: an 8-bit channel or BITBUF byte, a 32-bit register or PAYLOAD word, the 64-bit
BIT_LEN (rule R9). Every value is unsigned; rule arithmetic is on exact naturals, reached with toNat. -/

namespace Sys2Proof

/-- A channel of RASTER or a byte of BITBUF (rules R6, R61). -/
abbrev Byte := BitVec 8

/-- A register or a PAYLOAD word (rules R9, R20, R68). -/
abbrev Word := BitVec 32

/-- BIT_LEN (rules R9, R33). -/
abbrev DWord := BitVec 64

end Sys2Proof
end

