-- ==== Sys2Proof/Syntax.lean ====
section
/-! DEFINITION. The six commands (rule R92), one constructor per row of spec/opcode_table.json. A command has no
immediate and no operand field: its operands are the registers and memories of rule R72 (rule R95). -/

namespace Sys2Proof

inductive Instr
  /-- ENCODE (rule R111). -/
  | encode
  /-- DECODE (rule R112). -/
  | decode
  /-- EMBED (rule R131). -/
  | embed
  /-- EXTRACT (rule R132). -/
  | extract
  /-- ENCODE_EMBED (rule R160). -/
  | encodeEmbed
  /-- EXTRACT_DECODE (rule R161). -/
  | extractDecode
deriving DecidableEq, Repr

end Sys2Proof
end

