-- ==== Sys2Proof/WellFormed.lean ====
section
/-! DEFINITION. Well-formedness. An instruction of LSBSC has no operand (rule R95), so every term of Instr is
well-formed; what can be ill-formed is a COMMAND WORD, and rule R93 gives its two checks. -/

namespace Sys2Proof

/-- Check 1 of rule R93: RSVD, bits 31:4, is zero. -/
def rsvdZero (v : Word) : Bool := v.extractLsb' 4 28 == 0#28

/-- Check 2 of rule R93: OP, bits 3:0, is one of 1 to 6. -/
def opAssigned (v : Word) : Bool :=
  decide (1 ≤ (v.extractLsb' 0 4).toNat) && decide ((v.extractLsb' 0 4).toNat ≤ 6)

/-- A well-formed command word (rule R93). -/
def wordWellFormed (v : Word) : Bool := rsvdZero v && opAssigned v

/-- Every instruction is well-formed: it has no field that could be out of range (rule R95). -/
def Instr.wf : Instr → Bool
  | .encode => true
  | .decode => true
  | .embed => true
  | .extract => true
  | .encodeEmbed => true
  | .extractDecode => true

end Sys2Proof
end

