-- ==== Sys2Proof/Decode.lean ====
section
/-! DEFINITION. Decoding a command word (rules R90 to R94), total and rejecting by name, and the encoder beside it,
both from the opcode map of rule R92. -/

namespace Sys2Proof

/-- Why a word is no command; rule R94 reports every reason the same way, as ILLEGAL. -/
inductive DecodeReject
  /-- RSVD, bits 31:4, is not zero (rules R91, R94). Safe: the launch records ILLEGAL, as the spec says. -/
  | reservedBits
  /-- OP is 0x0 or 0x7 to 0xF (rules R92, R94). Safe, as above. -/
  | reservedOpcode
deriving DecidableEq, Repr

/-- The opcode map of rule R92, from the OP field (also how the engine reads CUR_OP, rule R38). -/
def decodeOp (op : BitVec 4) : Option Instr :=
  match op.toNat with
  | 1 => some .encode
  | 2 => some .decode
  | 3 => some .embed
  | 4 => some .extract
  | 5 => some .encodeEmbed
  | 6 => some .extractDecode
  | _ => none

/-- The OP field of a command word (rule R91). -/
def opField (v : Word) : BitVec 4 := v.extractLsb' 0 4

/-- The RSVD field of a command word (rule R91). -/
def rsvdField (v : Word) : BitVec 28 := v.extractLsb' 4 28

/-- The decoder: a word is a command exactly when RSVD is zero and OP is assigned (rule R93). -/
def decode (v : Word) : Except DecodeReject Instr :=
  if rsvdField v = 0#28 then
    match decodeOp (opField v) with
    | some i => .ok i
    | none => .error .reservedOpcode
  else .error .reservedBits

/-- legal(v) of rule R93. -/
def legal (v : Word) : Bool :=
  match decode v with
  | .ok _ => true
  | .error _ => false

/-- The opcode of an instruction (rule R92). -/
def opcode : Instr → BitVec 4
  | .encode => 0x1#4
  | .decode => 0x2#4
  | .embed => 0x3#4
  | .extract => 0x4#4
  | .encodeEmbed => 0x5#4
  | .extractDecode => 0x6#4

/-- The encoder: the command word of an instruction (rules R91, R92): RSVD = 0, OP its opcode. -/
def encode (i : Instr) : Word := (opcode i).setWidth 32

/-- The decoder on a word given as the opcode table numbers its bits: bit 0 the least significant. Every command is
32 bits long (rule R90); a shorter count means zero bits above it; a longer one, or a number that does not fit, is no
command word. -/
def decodeTableWord (nbits w : Nat) : Option Instr :=
  if nbits ≤ 32 ∧ w < 2 ^ nbits then
    match decode (BitVec.ofNat 32 w) with
    | .ok i => some i
    | .error _ => none
  else none

end Sys2Proof
end

