-- ==== Sys2Proof/Config.lean ====
section
/-! DEFINITION. The parameters: those the source fixes (rule R6) and those it leaves OPEN (rule R7), which a model
takes as an argument. The OPEN ones are a structure that State carries and no step changes, so that a statement over
every state is a statement over every value of them. -/

namespace Sys2Proof

/-- CHANS_PER_PIXEL (rule R6). -/
def chansPerPixel : Nat := 3

/-- LEN_BITS, the width of the length prefix (rule R6). -/
def lenBits : Nat := 32

/-- CP_BITS, the width of a framed code point (rule R6). -/
def cpBits : Nat := 8

/-- PAYLOAD_HOST_ORDER (rule R7): the byte order in which a byte-addressing host sees a PAYLOAD word. -/
inductive HostOrder
  | little
  | big
deriving DecidableEq, Repr

/-- The OPEN parameters of rules R7 and R81; latency is the schedule held in State. -/
structure Config where
  /-- PAY_DEPTH: number of 32-bit words in PAYLOAD. -/
  payDepth : Nat
  /-- BITBUF_BYTES: number of bytes in BITBUF. -/
  bitbufBytes : Nat
  /-- RASTER_BYTES: number of bytes in RASTER. -/
  rasterBytes : Nat
  /-- REG_BASE: where the host sees the register window. -/
  regBase : Nat
  /-- BITBUF_BASE: where the host sees BITBUF. -/
  bitbufBase : Nat
  /-- PAYLOAD_BASE: where the host sees PAYLOAD. -/
  payloadBase : Nat
  /-- RASTER's place in the Image Store's memory (rule R81, D6). -/
  rasterBase : Nat
  /-- PAYLOAD_HOST_ORDER. -/
  payloadHostOrder : HostOrder
deriving DecidableEq, Repr

/-- The parameters of State.reset: the sizes are the defaults of spec/95_test_vectors.md, the bases and the host order
are the model's (DESIGN CHOICE, log entries 4 and 5). -/
def Config.default : Config :=
  { payDepth := 16, bitbufBytes := 20, rasterBytes := 64,
    regBase := 0, bitbufBase := 0x100, payloadBase := 0x200, rasterBase := 0x300
    payloadHostOrder := .little }

end Sys2Proof
end

