-- ==== Sys2Proof/Machine/State.lean ====
section
/-! DEFINITION. The state of LSBSC as plain data: the registers of rules R20 to R41, the hidden CUR_OP, the three
memories of rule R61, the OPEN parameters of rule R7, and the agents of rule R5 as data (the host's remaining
operations and the order in which the agents move). Also the reasons a step can stop, and the state after reset. -/

namespace Sys2Proof.Machine

/-- The three address spaces of rule R61. -/
inductive Space
  | raster
  | payload
  | bitbuf
deriving DecidableEq, Repr

/-- A memory: the bytes that hold a value, as (index, byte) pairs in strictly rising index order. An index that is not
listed holds no defined value (rule R80), so a memory has one canonical form. PAYLOAD's cell is a 32-bit word (rule
R61), held as four bytes (log entry 7). -/
abbrev Memory := List Host.Cell

/-- The width of a host access; only the 32-bit one is admitted at a register (rule R21). -/
inductive AccessWidth
  | w8
  | w16
  | w32
  | w64
deriving DecidableEq, Repr

/-- One access at a port of LSBSC (rules R60, R61). -/
inductive PortAccess
  /-- The register window: a width and a 6-bit byte offset (rules R20, R60). -/
  | reg (width : AccessWidth) (offset : BitVec 6)
  /-- One RASTER byte, by the Image Store (rules R5, R61). -/
  | raster (k : Nat)
  /-- One BITBUF byte. -/
  | bitbuf (j : Nat)
  /-- One whole PAYLOAD word. -/
  | payload (i : Nat)
  /-- One byte of a PAYLOAD word as a byte-addressing host sees it; lane 0 is the lowest address (rule R68). -/
  | payloadByte (i : Nat) (lane : Fin 4)
deriving DecidableEq, Repr

/-- One operation of the host or the Image Store (rule R96; the two agents are merged, rule R5). -/
inductive HostOp
  /-- WR, MB or MW: a write at a port; a byte cell takes the low 8 bits of the value. -/
  | write (p : PortAccess) (v : Word)
  /-- RD, or a read at a memory port. -/
  | read (p : PortAccess)
  /-- A write at a platform address, resolved with the bases of rule R7. -/
  | busWrite (width : AccessWidth) (addr : Nat) (v : Word)
  /-- A read at a platform address. -/
  | busRead (width : AccessWidth) (addr : Nat)
  /-- WAIT: repeat RD STATUS until BUSY reads 0 (rules R96, R97). -/
  | wait
deriving DecidableEq, Repr

/-- Who takes the next step (rule R5); the Image Store's operations are the host's here. -/
inductive Agent
  | host
  | engine
  | reset
deriving DecidableEq, Repr

/-- Why the machine stops with a fault. -/
inductive Fault
  /-- A command, a host read or an Image Store read reaches a cell that holds no defined value (rules R80, R214, U1).
  Raised by definedCell and replyCell. Safe: the spec says that a model faults such a read. -/
  | unwrittenCell (sp : Space) (index : Nat)
  /-- A host or Image Store access at an index the space does not have (rules R61, R62). Raised by portRead and
  portWrite. Safe (log entry 14). -/
  | noSuchCell (sp : Space) (index : Nat)
  /-- BUSY = 1 while CUR_OP holds an opcode that no launch latches (rules R25, R38). Raised by engineTurn. Safe: no
  reachable state is so (log entry 11). -/
  | latchedOpcodeIllegal (op : BitVec 4)
deriving DecidableEq, Repr

/-- Why the model gives no meaning. -/
inductive Refusal
  /-- An instruction whose meaning is not written yet. No arm uses it. Safe. -/
  | notModelled (mnemonic : String)
  /-- The parameters break rule R62, or two host windows overlap (D6). Raised by step. Safe: the spec says that a
  model refuses it (U5). -/
  | configurationNotAdmitted
  /-- A register access that is not a naturally aligned 32-bit one (rule R21, U4). Raised by portRead and portWrite.
  Safe: the spec says that a model refuses it. -/
  | registerAccessNotAdmitted (width : AccessWidth) (offset : BitVec 6)
  /-- A host or Image Store access to a memory while BUSY = 1 (rule R74, U3). Raised by portRead and portWrite. Safe:
  the spec says that a model refuses the run. -/
  | memoryAccessWhileBusy (sp : Space)
  /-- A platform bus access that no parameter of rules R7 and R81 describes: outside the four windows, or
  of a width the window has no rule for (rule R70). Raised by busResolve's users. Safe (log entry 5). -/
  | busAccessNotDescribed (width : AccessWidth) (addr : Nat)
deriving DecidableEq, Repr

/-- The error of a command (rule R181), with its detail (rule R182). -/
inductive CmdError
  /-- The sequence is longer than the raster's capacity (rule R183). -/
  | capacity
  /-- PAYLOAD word `index` is above 0xFF, the lowest such (rule R184). -/
  | codepoint (index : Nat)
  /-- The carrier is too small: false for the prefix (KIND 0), true for the payload (KIND 1) (rule R185). -/
  | underflow (payloadKind : Bool)
  /-- DECODE's input is too short: false for the prefix (KIND 0), true for the payload (KIND 1) (rule R186). -/
  | framing (payloadKind : Bool)
  /-- An operand reaches outside a memory (rule R187). -/
  | bounds (sp : Space)
  /-- A CMD write that is no command word (rule R188). -/
  | illegal
deriving DecidableEq, Repr

/-- How the evaluation of a command ends before its commit. -/
inductive Stop
  /-- raise E(info) of the spec's pseudocode (rule R10). -/
  | raise (e : CmdError)
  /-- The command's result is not defined (rule R80). -/
  | fault (f : Fault)
deriving DecidableEq, Repr

/-- The evaluation of a command's reads and checks. -/
abbrev Eval (α : Type) := Except Stop α

/-- The writes after a command's `commit` (rule R10). Every command's memory writes are a run of cells from index 0
up, so a run is the list of its values; `none` leaves a register alone. -/
structure Commit where
  raster : List Byte := []
  bitbuf : List Byte := []
  payload : List Word := []
  bitLen : Option DWord := none
  payLen : Option Word := none
deriving DecidableEq, Repr

structure State where
  /-- The OPEN parameters (rule R7). -/
  cfg : Config
  /-- STATUS.BUSY (rule R26, bit 0). -/
  busy : Bool
  /-- STATUS.DONE (bit 1). -/
  done : Bool
  /-- STATUS.ERR (bit 2). -/
  err : Bool
  /-- STATUS.OVR (bit 3). -/
  ovr : Bool
  /-- STATUS.ERRCODE (bits 11:8). -/
  errCode : BitVec 4
  /-- CTRL.IRQ_EN (rule R29). -/
  irqEn : Bool
  /-- WIDTH (rule R30). -/
  width : Word
  /-- HEIGHT (rule R31). -/
  height : Word
  /-- PAY_LEN (rule R32). -/
  payLen : Word
  /-- BIT_LEN, the home of BIT_LEN_LO and BIT_LEN_HI (rule R33). -/
  bitLen : DWord
  /-- ERR_INFO (rule R34). -/
  errInfo : Word
  /-- CUR_OP, hidden (rule R38). -/
  curOp : BitVec 4
  /-- RASTER (rules R61, R63). -/
  raster : Memory
  /-- BITBUF (rules R61, R66). -/
  bitbuf : Memory
  /-- PAYLOAD (rules R61, R68): bits 8 j + 7 to 8 j of word i are the byte 4 i + j (log entry 7). -/
  payload : Memory
  /-- The model's own: the host's remaining operations, in the order it issues them (rule R222, log entry 2). -/
  host : List HostOp
  /-- The model's own: who moves next (rules R5, R222, log entry 1). -/
  turns : List Agent
  /-- The model's own: the values the host's reads returned, newest first (log entry 2). -/
  replies : List Word
deriving DecidableEq, Repr

/-- The state at power-on, for any parameters: every register as rule R41 says, no memory cell holding a value (rule
R214), no host operation and no turn given. -/
def State.powerOn (c : Config) : State :=
  { cfg := c
    busy := false, done := false, err := false, ovr := false, errCode := 0#4
    irqEn := false
    width := 0#32, height := 0#32, payLen := 0#32, bitLen := 0#64, errInfo := 0#32
    curOp := 0#4
    raster := [], bitbuf := [], payload := []
    host := [], turns := [], replies := [] }

/-- The machine right after reset at power-on, with the default parameters (log entries 4 and 5). -/
def State.reset : State := State.powerOn Config.default

end Sys2Proof.Machine
end

