-- ==== Sys2Proof/Machine/Flags.lean ====
section
/-! DEFINITION. STATUS, ERRCODE, ERR_INFO, CTRL and irq: every status computation of the spec (rules R26, R27, R29,
R181, R182, R195). -/

namespace Sys2Proof.Machine

/-- The SPACE code of BOUNDS (rule R182): 0 RASTER, 1 PAYLOAD, 2 BITBUF. -/
def spaceCode : Space → Word
  | .raster => 0#32
  | .payload => 1#32
  | .bitbuf => 2#32

/-- The KIND bit of UNDERFLOW and FRAMING (rule R182). -/
def kindCode (payloadKind : Bool) : Word := if payloadKind then 1#32 else 0#32

/-- The error code held in STATUS.ERRCODE (rule R181). -/
def errorCode : CmdError → BitVec 4
  | .capacity => 1#4
  | .codepoint _ => 2#4
  | .underflow _ => 3#4
  | .framing _ => 4#4
  | .bounds _ => 5#4
  | .illegal => 6#4

/-- The value recorded in ERR_INFO (rule R182). -/
def errorInfo : CmdError → Word
  | .capacity => 0#32
  | .codepoint i => BitVec.ofNat 32 i
  | .underflow k => kindCode k
  | .framing k => kindCode k
  | .bounds sp => spaceCode sp
  | .illegal => 0#32

/-- The value a read of STATUS returns (rule R26): bits 31:12 and 7:4 are reserved and read 0. -/
def statusWord (s : State) : Word :=
  (s.errCode.setWidth 32 <<< 8) ||| ((BitVec.ofBool s.ovr).setWidth 32 <<< 3) |||
    ((BitVec.ofBool s.err).setWidth 32 <<< 2) ||| ((BitVec.ofBool s.done).setWidth 32 <<< 1) |||
    (BitVec.ofBool s.busy).setWidth 32

/-- A write of v to STATUS (rule R27): write-1-to-clear of DONE, ERR and OVR, and nothing else. -/
def statusWrite (v : Word) (s : State) : State :=
  { s with
    done := s.done && !(v.getLsbD 1)
    err := s.err && !(v.getLsbD 2)
    ovr := s.ovr && !(v.getLsbD 3) }

/-- The value a read of CTRL returns (rule R29). -/
def ctrlWord (s : State) : Word := (BitVec.ofBool s.irqEn).setWidth 32

/-- A write of v to CTRL (rule R29): bit 0 only. -/
def ctrlWrite (v : Word) (s : State) : State := { s with irqEn := v.getLsbD 0 }

/-- The interrupt output, a level (rule R195). -/
def irq (s : State) : Bool := s.irqEn && (s.done || s.err)

end Sys2Proof.Machine
end

