-- ==== Sys2Proof/Machine/Ops.lean ====
section
/-! DEFINITION. The named operations over memories and registers, and the recording of a command's outcome: the error
record of rule R192 ("entry") and the success record of rule R193, each written once. LSBSC has no return-from-error
operation (rule R194). -/

namespace Sys2Proof.Machine

/-! ## Memory -/

/-- The canonical form of a memory: indexes strictly rising. An unlisted index reads as no value, so no entry can be
equal to what an unlisted index reads as. -/
def Memory.wf (m : Memory) : Bool :=
  match m with
  | [] => true
  | [_] => true
  | (a, _) :: (b, w) :: rest => decide (a < b) && Memory.wf ((b, w) :: rest)

/-- Every listed index is below n: the space has no other cell (rule R61). -/
def Memory.below (n : Nat) (m : Memory) : Bool :=
  m.all fun cell => decide (cell.1 < n)

/-- The value of the cell at an index, if it holds one (rule R80). -/
def Memory.read (m : Memory) (a : Nat) : Option Byte :=
  match m with
  | [] => none
  | (b, v) :: rest => if b = a then some v else Memory.read rest a

/-- Store a value in the cell at an index (rule R71: and do nothing else). -/
def Memory.write (m : Memory) (a : Nat) (v : Byte) : Memory :=
  match m with
  | [] => [(a, v)]
  | (b, w) :: rest =>
    if a < b then (a, v) :: (b, w) :: rest
    else if a = b then (a, v) :: rest
    else (b, w) :: Memory.write rest a v

/-- Store a run of values at indexes `start`, `start + 1`, … -/
def Memory.writeRun (m : Memory) (start : Nat) : List Byte → Memory
  | [] => m
  | v :: vs => Memory.writeRun (Memory.write m start v) (start + 1) vs

/-- Forget every cell at an index below n (rule R213). -/
def Memory.eraseBelow (m : Memory) (n : Nat) : Memory :=
  m.filter fun cell => decide (n ≤ cell.1)

/-! ## PAYLOAD words over bytes (rules R61, R68) -/

/-- The four bytes of a word, the least significant first. -/
def wordBytes (v : Word) : List Byte :=
  [v.extractLsb' 0 8, v.extractLsb' 8 8, v.extractLsb' 16 8, v.extractLsb' 24 8]

/-- The word in cell i, if all four of its bytes hold a value. -/
def Memory.readWord (m : Memory) (i : Nat) : Option Word :=
  match Memory.read m (4 * i), Memory.read m (4 * i + 1), Memory.read m (4 * i + 2), Memory.read m (4 * i + 3) with
  | some b0, some b1, some b2, some b3 => some (b3 ++ b2 ++ b1 ++ b0)
  | _, _, _, _ => none

/-- Store a word in cell i. -/
def Memory.writeWord (m : Memory) (i : Nat) (v : Word) : Memory := Memory.writeRun m (4 * i) (wordBytes v)

/-- Store a run of words in cells `start`, `start + 1`, … -/
def Memory.writeWords (m : Memory) (start : Nat) (vs : List Word) : Memory :=
  Memory.writeRun m (4 * start) (vs.flatMap wordBytes)

/-! ## Reads inside a command -/

/-- The value of a cell that a command reads: a cell without a defined value faults (rule R80, U1). -/
def definedCell {β : Type} (sp : Space) (index : Nat) (r : Option β) : Eval β :=
  match r with
  | some v => .ok v
  | none => .error (.fault (.unwrittenCell sp index))

/-- Read a byte of RASTER or BITBUF inside a command. -/
def readCell (sp : Space) (m : Memory) (a : Nat) : Eval Byte := definedCell sp a (Memory.read m a)

/-- Read a whole PAYLOAD word inside a command (rule R70). -/
def readWordCell (m : Memory) (i : Nat) : Eval Word := definedCell .payload i (Memory.readWord m i)

/-! ## Registers -/

/-- BIT_LEN_LO, bits 31:0 of BIT_LEN (rule R33). -/
def bitLenLo (s : State) : Word := s.bitLen.extractLsb' 0 32

/-- BIT_LEN_HI, bits 63:32 of BIT_LEN (rule R33). -/
def bitLenHi (s : State) : Word := s.bitLen.extractLsb' 32 32

/-- BIT_LEN = BIT_LEN_HI · 2^32 + BIT_LEN_LO (rule R33). -/
def joinBitLen (hi lo : Word) : DWord := (hi.setWidth 64 <<< 32) ||| lo.setWidth 64

/-- A register access that rule R21 admits: 32 bits wide, at a multiple of 4. -/
def regAdmitted (width : AccessWidth) (offset : BitVec 6) : Bool :=
  decide (width = .w32) && decide (offset.toNat % 4 = 0)

/-- The value a register read returns (rules R20, R22, R23, R26, R29 to R34, R37). -/
def regRead (offset : BitVec 6) (s : State) : Word :=
  match offset.toNat with
  | 0x00 => 0#32
  | 0x04 => statusWord s
  | 0x08 => ctrlWord s
  | 0x0C => s.width
  | 0x10 => s.height
  | 0x14 => s.payLen
  | 0x18 => bitLenLo s
  | 0x1C => bitLenHi s
  | 0x20 => s.errInfo
  | _ => 0#32

/-- The record of an error (rule R192): STATUS and ERR_INFO and nothing else. Used by every failing completion step. -/
def recordError (e : CmdError) (s : State) : State :=
  { s with busy := false, err := true, done := false, errCode := errorCode e, errInfo := errorInfo e }

/-- The record of a success (rule R193). -/
def recordSuccess (s : State) : State :=
  { s with busy := false, done := true, err := false, errCode := 0#4, errInfo := 0#32 }

/-- What every launch clears, legal or not (rules R25, R194): DONE, ERR, ERRCODE and ERR_INFO, but not OVR. -/
def clearRecord (s : State) : State :=
  { s with done := false, err := false, errCode := 0#4, errInfo := 0#32 }

/-- A launch (rule R25): a write of v to CMD while BUSY = 0. -/
def launch (v : Word) (s : State) : State :=
  if legal v then
    { clearRecord s with curOp := opField v, busy := true }
  else
    { clearRecord s with err := true, errCode := errorCode .illegal, errInfo := errorInfo .illegal }

/-- A register write that arrives while BUSY = 1 and is dropped (rules R24, R35). -/
def dropWrite (s : State) : State := { s with ovr := true }

/-- A write of v to CMD (rules R24, R25). -/
def cmdWrite (v : Word) (s : State) : State :=
  if s.busy then dropWrite s else launch v s

/-- A write to an operand register (rules R35, R36): dropped while BUSY = 1, else the given update. -/
def operandWrite (update : State → State) (s : State) : State :=
  if s.busy then dropWrite s else update s

/-- The effect of a register write of v (rules R20, R22 to R37). -/
def regWrite (offset : BitVec 6) (v : Word) (s : State) : State :=
  match offset.toNat with
  | 0x00 => cmdWrite v s
  | 0x04 => statusWrite v s
  | 0x08 => ctrlWrite v s
  | 0x0C => operandWrite (fun s => { s with width := v }) s
  | 0x10 => operandWrite (fun s => { s with height := v }) s
  | 0x14 => operandWrite (fun s => { s with payLen := v }) s
  | 0x18 => operandWrite (fun s => { s with bitLen := joinBitLen (bitLenHi s) v }) s
  | 0x1C => operandWrite (fun s => { s with bitLen := joinBitLen v (bitLenLo s) }) s
  | _ => s

/-! ## The completion of a command -/

/-- The writes of a commit (rules R10, R72): a run of cells from index 0 in each memory, and the length registers. -/
def applyCommit (c : Commit) (s : State) : State :=
  { s with
    raster := Memory.writeRun s.raster 0 c.raster
    bitbuf := Memory.writeRun s.bitbuf 0 c.bitbuf
    payload := Memory.writeWords s.payload 0 c.payload
    bitLen := c.bitLen.getD s.bitLen
    payLen := c.payLen.getD s.payLen }

/-- The completion step of a command whose reads and checks gave `r` (rules R5, R191 to R193): every check precedes
every write; an error writes STATUS and ERR_INFO alone; a result that is not defined faults (rule R80). -/
def complete (s : State) (r : Eval Commit) : Host.Outcome State Fault Refusal :=
  match r with
  | .ok c => .next (recordSuccess (applyCommit c s))
  | .error (.raise e) => .next (recordError e s)
  | .error (.fault f) => .fault f

end Sys2Proof.Machine
end

