-- ==== Sys2Proof/Machine/Operands.lean ====
section
/-! DEFINITION. Every operand form of the commands: the helper functions of rule R11, the framed sequence of rule
R110, and the ways a command reads PAYLOAD, BITBUF and RASTER, among them the extract scan of rules R132 and R134. -/

namespace Sys2Proof.Machine

/-! ## Bit sequences (rules R8, R11) -/

/-- The value of a big-endian bit sequence: its first bit is the most significant (rule R8). -/
def beValue (bits : List Bool) : Nat :=
  bits.foldl (fun acc b => 2 * acc + b.toNat) 0

/-- The n bits of a sequence at offset o, big-endian. -/
def beAt (bits : List Bool) (o n : Nat) : Nat := beValue ((bits.drop o).take n)

/-- BE32 of rule R11. -/
def be32 (bits : List Bool) (o : Nat) : Nat := beAt bits o 32

/-- BE8 of rule R11, as the byte it fills. -/
def be8 (bits : List Bool) (o : Nat) : Byte := BitVec.ofNat 8 (beAt bits o 8)

/-- bits32 of rule R11: the most significant bit first. -/
def bits32 (v : Word) : List Bool := (List.range 32).map fun j => v.getLsbD (31 - j)

/-- bits8 of rule R11: the most significant bit first. -/
def bits8 (v : Byte) : List Bool := (List.range 8).map fun m => v.getLsbD (7 - m)

/-- The bytes of a bit sequence, n of them, filled most significant bit first (rule R66). -/
def packBytes (bits : List Bool) (n : Nat) : List Byte :=
  (List.range n).map fun j => be8 bits (8 * j)

/-- frame(L, cp) of rule R110: the 32-bit prefix, then 8 bits a character. -/
def frame (len : Word) (cps : List Byte) : List Bool := bits32 len ++ cps.flatMap bits8

/-- The bytes a framed sequence fills in BITBUF (rules R67, R111): L big-endian, then the code points. -/
def frameBytes (len : Word) (cps : List Byte) : List Byte :=
  len.extractLsb' 24 8 :: len.extractLsb' 16 8 :: len.extractLsb' 8 8 :: len.extractLsb' 0 8 :: cps

/-! ## Channels (rule R11) -/

/-- lsb of rule R11. -/
def lsb (v : Byte) : Bool := v.getLsbD 0

/-- lsb_sub of rule R11. -/
def lsbSub (v : Byte) (b : Bool) : Byte := (v &&& 0xFE#8) ||| (if b then 1#8 else 0#8)

/-- capacity(W,H) of rules R11 and R130, exact. -/
def capacity (w h : Word) : Nat := w.toNat * h.toNat * chansPerPixel

/-- The capacity of the raster the registers describe (rule R130). -/
def rasterCapacity (s : State) : Nat := capacity s.width s.height

/-- chan(x, y, c) of rules R11 and R63: the RASTER index of channel c of the pixel at (x, y). -/
def chan (w : Word) (x y c : Nat) : Nat := chansPerPixel * (y * w.toNat + x) + c

/-- The number of bits of the frame of L characters (rule R110). -/
def frameLen (len : Nat) : Nat := lenBits + cpBits * len

/-! ## Reading the memories -/

/-- PAYLOAD words i, i + 1, … (n of them) as code points, ascending: the first above 0xFF raises CODEPOINT with its
index, before any later word is read (rules R111, R160, R184). -/
def readCodePoints (m : Memory) (i : Nat) : Nat → Eval (List Byte)
  | 0 => .ok []
  | n + 1 =>
    match readWordCell m i with
    | .error e => .error e
    | .ok cp =>
      if 0xFF < cp.toNat then .error (.raise (.codepoint i))
      else
        match readCodePoints m (i + 1) n with
        | .error e => .error e
        | .ok cps => .ok (cp.setWidth 8 :: cps)

/-- getbit(k) of rules R11 and R66: bit 7 - (k mod 8) of BITBUF byte k div 8. -/
def getbit (m : Memory) (k : Nat) : Eval Bool :=
  match readCell .bitbuf m (k / 8) with
  | .error e => .error e
  | .ok v => .ok (v.getLsbD (7 - k % 8))

/-- getbit(k), getbit(k + 1), …, n bits. -/
def getbits (m : Memory) (k : Nat) : Nat → Eval (List Bool)
  | 0 => .ok []
  | n + 1 =>
    match getbit m k with
    | .error e => .error e
    | .ok b =>
      match getbits m (k + 1) n with
      | .error e => .error e
      | .ok bs => .ok (b :: bs)

/-- The new values of RASTER bytes k, k + 1, … with the given bits substituted (rules R131, R160): a read-modify-write
of each. -/
def embedRun (m : Memory) (k : Nat) : List Bool → Eval (List Byte)
  | [] => .ok []
  | b :: bs =>
    match readCell .raster m k with
    | .error e => .error e
    | .ok v =>
      match embedRun m (k + 1) bs with
      | .error e => .error e
      | .ok vs => .ok (lsbSub v b :: vs)

/-! ## The extract scan (rules R39, R132, R134) -/

/-- The phases of rule R134; EXHAUSTED keeps which of the two scanning phases the scan ended in (its KIND). -/
inductive Phase
  | scanningLength
  | scanningPayload (required : Nat)
  | done (required : Nat)
deriving DecidableEq, Repr

/-- The scan's state inside one completion step (rule R39): the phase and the accumulated bits. The cursor is the
number of accumulated bits. -/
structure Scan where
  phase : Phase
  acc : List Bool
deriving DecidableEq, Repr

/-- The scan's start: i = 0, SCANNING_LENGTH (rule R39). -/
def Scan.start : Scan := { phase := .scanningLength, acc := [] }

/-- SCANNING_PAYLOAD becomes DONE as soon as the required bits are there (rule R134), at once when L = 0. -/
def scanSettle (required : Nat) (acc : List Bool) : Scan :=
  if acc.length = required then { phase := .done required, acc := acc }
  else { phase := .scanningPayload required, acc := acc }

/-- One visited channel: the body of the loop of rule R132, with the transitions of rule R134. -/
def scanVisit (sc : Scan) (b : Bool) : Scan :=
  let acc := sc.acc ++ [b]
  match sc.phase with
  | .scanningLength =>
    if acc.length = lenBits then scanSettle (frameLen (be32 acc 0)) acc
    else { phase := .scanningLength, acc := acc }
  | .scanningPayload required => scanSettle required acc
  | .done required => { phase := .done required, acc := sc.acc }

/-- Visit channels k, k + 1, … (n of them are left), stopping at DONE (rule R132); when none is left the scan is
EXHAUSTED, an UNDERFLOW whose KIND is the phase it ended in (rules R134, R182). Answers the accumulated bits. -/
def scanFrom (m : Memory) (k : Nat) (sc : Scan) : Nat → Eval (List Bool)
  | 0 =>
    match sc.phase with
    | .scanningLength => .error (.raise (.underflow false))
    | .scanningPayload _ => .error (.raise (.underflow true))
    | .done _ => .ok sc.acc
  | n + 1 =>
    match sc.phase with
    | .done _ => .ok sc.acc
    | _ =>
      match readCell .raster m k with
      | .error e => .error e
      | .ok v => scanFrom m (k + 1) (scanVisit sc (lsb v)) n

/-- The framed sequence the raster carries (rules R132, R161): the bound of the raster, then the scan. -/
def extractSequence (s : State) : Eval (List Bool) :=
  if s.cfg.rasterBytes < rasterCapacity s then .error (.raise (.bounds .raster))
  else scanFrom s.raster 0 Scan.start (rasterCapacity s)

end Sys2Proof.Machine
end

