-- ==== Sys2Proof/Machine/Framer.lean ====
section
/-! DEFINITION. The Bit Framer: ENCODE (rule R111) and DECODE (rule R112). A plan is the command's reads and checks, in
the order of rule R190, with the writes of its commit. -/

namespace Sys2Proof.Machine

/-- The payload's code points, checked (rules R111, R160): BOUNDS(PAYLOAD), then CODEPOINT at the lowest bad index. -/
def framePayload (s : State) : Eval (List Byte) :=
  if s.cfg.payDepth < s.payLen.toNat then .error (.raise (.bounds .payload))
  else readCodePoints s.payload 0 s.payLen.toNat

/-- ENCODE up to its commit (rule R111). -/
def planEncode (s : State) : Eval Commit :=
  match framePayload s with
  | .error e => .error e
  | .ok cps =>
    if s.cfg.bitbufBytes < 4 + s.payLen.toNat then .error (.raise (.bounds .bitbuf))
    else
      .ok { bitbuf := frameBytes s.payLen cps
            bitLen := some (BitVec.ofNat 64 (frameLen s.payLen.toNat)) }

/-- DECODE up to its commit (rule R112). -/
def planDecode (s : State) : Eval Commit :=
  if 8 * s.cfg.bitbufBytes < s.bitLen.toNat then .error (.raise (.bounds .bitbuf))
  else if s.bitLen.toNat < lenBits then .error (.raise (.framing false))
  else
    match getbits s.bitbuf 0 lenBits with
    | .error e => .error e
    | .ok prefixBits =>
      if s.bitLen.toNat < frameLen (be32 prefixBits 0) then .error (.raise (.framing true))
      else if s.cfg.payDepth < be32 prefixBits 0 then .error (.raise (.bounds .payload))
      else
        match getbits s.bitbuf lenBits (cpBits * be32 prefixBits 0) with
        | .error e => .error e
        | .ok payloadBits =>
          .ok { payload := (packBytes payloadBits (be32 prefixBits 0)).map (BitVec.setWidth 32)
                payLen := some (BitVec.ofNat 32 (be32 prefixBits 0)) }

/-- ENCODE (rule R111): its completion step. -/
def execEncode (s : State) : Host.Outcome State Fault Refusal := complete s (planEncode s)

/-- DECODE (rule R112): its completion step. -/
def execDecode (s : State) : Host.Outcome State Fault Refusal := complete s (planDecode s)

end Sys2Proof.Machine
end

