-- ==== Sys2Proof/Machine/CallSites.lean ====
section
/-! DEFINITION. The call-site commands: ENCODE_EMBED (rule R160) and EXTRACT_DECODE (rule R161). The bit sequence is
streamed inside the step and never stored in BITBUF. -/

namespace Sys2Proof.Machine

/-- ENCODE_EMBED up to its commit (rule R160): BOUNDS(PAYLOAD), CODEPOINT, BOUNDS(RASTER), CAPACITY, then the raster
reads. -/
def planEncodeEmbed (s : State) : Eval Commit :=
  match framePayload s with
  | .error e => .error e
  | .ok cps =>
    if s.cfg.rasterBytes < rasterCapacity s then .error (.raise (.bounds .raster))
    else if rasterCapacity s < frameLen s.payLen.toNat then .error (.raise .capacity)
    else
      match embedRun s.raster 0 (frame s.payLen cps) with
      | .error e => .error e
      | .ok channels => .ok { raster := channels }

/-- EXTRACT_DECODE up to its commit (rule R161): BOUNDS(RASTER), the scan with UNDERFLOW, BOUNDS(PAYLOAD). Its read set
is that of EXTRACT (log entry 10). -/
def planExtractDecode (s : State) : Eval Commit :=
  match extractSequence s with
  | .error e => .error e
  | .ok bits =>
    if s.cfg.payDepth < be32 bits 0 then .error (.raise (.bounds .payload))
    else
      .ok { payload := (packBytes (bits.drop lenBits) (be32 bits 0)).map (BitVec.setWidth 32)
            payLen := some (BitVec.ofNat 32 (be32 bits 0)) }

/-- ENCODE_EMBED (rule R160): its completion step. -/
def execEncodeEmbed (s : State) : Host.Outcome State Fault Refusal := complete s (planEncodeEmbed s)

/-- EXTRACT_DECODE (rule R161): its completion step. -/
def execExtractDecode (s : State) : Host.Outcome State Fault Refusal := complete s (planExtractDecode s)

end Sys2Proof.Machine
end

