-- ==== Sys2Proof/Machine/Raster.lean ====
section
/-! DEFINITION. The Raster Codec: EMBED (rule R131) and EXTRACT (rules R132 to R134). -/

namespace Sys2Proof.Machine

/-- EMBED up to its commit (rule R131): BOUNDS(BITBUF), BOUNDS(RASTER), CAPACITY, then the reads. -/
def planEmbed (s : State) : Eval Commit :=
  if 8 * s.cfg.bitbufBytes < s.bitLen.toNat then .error (.raise (.bounds .bitbuf))
  else if s.cfg.rasterBytes < rasterCapacity s then .error (.raise (.bounds .raster))
  else if rasterCapacity s < s.bitLen.toNat then .error (.raise .capacity)
  else
    match getbits s.bitbuf 0 s.bitLen.toNat with
    | .error e => .error e
    | .ok bits =>
      match embedRun s.raster 0 bits with
      | .error e => .error e
      | .ok channels => .ok { raster := channels }

/-- EXTRACT up to its commit (rule R132): BOUNDS(RASTER), the scan with UNDERFLOW, BOUNDS(BITBUF). -/
def planExtract (s : State) : Eval Commit :=
  match extractSequence s with
  | .error e => .error e
  | .ok bits =>
    if s.cfg.bitbufBytes < 4 + be32 bits 0 then .error (.raise (.bounds .bitbuf))
    else
      .ok { bitbuf := packBytes bits (frameLen (be32 bits 0) / 8)
            bitLen := some (BitVec.ofNat 64 (frameLen (be32 bits 0))) }

/-- EMBED (rule R131): its completion step. -/
def execEmbed (s : State) : Host.Outcome State Fault Refusal := complete s (planEmbed s)

/-- EXTRACT (rule R132): its completion step. -/
def execExtract (s : State) : Host.Outcome State Fault Refusal := complete s (planExtract s)

end Sys2Proof.Machine
end

