-- ==== Sys2Proof/Machine/HostPort.lean ====
section
/-! DEFINITION. The host's side (rules R5, R21, R60, R70, R74, R96): accesses at LSBSC's ports, platform addresses with
the bases and the byte order of rule R7, and the host notation of rule R96. -/

namespace Sys2Proof.Machine

/-! ## Parameters -/

/-- Two half-open address ranges share no address. -/
def disjoint (a lenA b lenB : Nat) : Bool := decide (a + lenA ≤ b) || decide (b + lenB ≤ a) ||
  decide (lenA = 0) || decide (lenB = 0)

/-- A configuration the spec admits: rule R62, and places of the register window and the three memories that do not
overlap (rules R61, R81, D6). -/
def configAdmitted (c : Config) : Bool :=
  decide (4 + c.payDepth ≤ c.bitbufBytes)
    && disjoint c.regBase 64 c.bitbufBase c.bitbufBytes
    && disjoint c.regBase 64 c.payloadBase (4 * c.payDepth)
    && disjoint c.bitbufBase c.bitbufBytes c.payloadBase (4 * c.payDepth)
    && disjoint c.rasterBase c.rasterBytes c.regBase 64
    && disjoint c.rasterBase c.rasterBytes c.bitbufBase c.bitbufBytes
    && disjoint c.rasterBase c.rasterBytes c.payloadBase (4 * c.payDepth)

/-- Number of cells of a space (rules R7, R61). -/
def spaceSize (c : Config) : Space → Nat
  | .raster => c.rasterBytes
  | .payload => c.payDepth
  | .bitbuf => c.bitbufBytes

/-! ## PAYLOAD as a byte-addressing host sees it (rule R68) -/

/-- The byte of a PAYLOAD word, by significance (0 the least), that byte lane `lane` is; lane 0 is the lowest address. -/
def laneByte (o : HostOrder) (lane : Fin 4) : Nat :=
  match o with
  | .little => lane.val
  | .big => 3 - lane.val

/-- The index in PAYLOAD's bytes of byte lane `lane` of word i. -/
def laneIndex (o : HostOrder) (i : Nat) (lane : Fin 4) : Nat := 4 * i + laneByte o lane

/-! ## Accesses at the ports -/

/-- The guard of every host access to a memory: refused while BUSY = 1 (rule R74); no cell outside the space (rule
R61). -/
def memoryAccess (sp : Space) (index : Nat) (s : State) (go : Host.Outcome State Fault Refusal) :
    Host.Outcome State Fault Refusal :=
  if s.busy then .refused (.memoryAccessWhileBusy sp)
  else if index < spaceSize s.cfg sp then go
  else .fault (.noSuchCell sp index)

/-- A write at a port (rules R20 to R37, R60, R71, R74). -/
def portWrite (p : PortAccess) (v : Word) (s : State) : Host.Outcome State Fault Refusal :=
  match p with
  | .reg width offset =>
    if regAdmitted width offset then .next (regWrite offset v s)
    else .refused (.registerAccessNotAdmitted width offset)
  | .raster k =>
    memoryAccess .raster k s (.next { s with raster := Memory.write s.raster k (v.setWidth 8) })
  | .bitbuf j =>
    memoryAccess .bitbuf j s (.next { s with bitbuf := Memory.write s.bitbuf j (v.setWidth 8) })
  | .payload i =>
    memoryAccess .payload i s (.next { s with payload := Memory.writeWord s.payload i v })
  | .payloadByte i lane =>
    memoryAccess .payload i s
      (.next { s with payload := Memory.write s.payload (laneIndex s.cfg.payloadHostOrder i lane) (v.setWidth 8) })

/-- The host takes a value that a read returned. -/
def reply (v : Word) (s : State) : State := { s with replies := v :: s.replies }

/-- The value a memory cell returns to the host; a cell nothing has written faults (rule R80, U1). -/
def replyCell (sp : Space) (index : Nat) (r : Option Word) (s : State) : Host.Outcome State Fault Refusal :=
  match r with
  | some v => .next (reply v s)
  | none => .fault (.unwrittenCell sp index)

/-- A read at a port (rules R22, R37, R60, R71, R74, R80). -/
def portRead (p : PortAccess) (s : State) : Host.Outcome State Fault Refusal :=
  match p with
  | .reg width offset =>
    if regAdmitted width offset then .next (reply (regRead offset s) s)
    else .refused (.registerAccessNotAdmitted width offset)
  | .raster k =>
    memoryAccess .raster k s (replyCell .raster k ((Memory.read s.raster k).map (BitVec.setWidth 32)) s)
  | .bitbuf j =>
    memoryAccess .bitbuf j s (replyCell .bitbuf j ((Memory.read s.bitbuf j).map (BitVec.setWidth 32)) s)
  | .payload i =>
    memoryAccess .payload i s (replyCell .payload i (Memory.readWord s.payload i) s)
  | .payloadByte i lane =>
    memoryAccess .payload i s (replyCell .payload i
      ((Memory.read s.payload (laneIndex s.cfg.payloadHostOrder i lane)).map (BitVec.setWidth 32)) s)

/-! ## Platform addresses (rules R7, R81) -/

/-- The port access a platform bus access stands for: the 64-byte register window at REG_BASE, BITBUF bytes at
BITBUF_BASE, PAYLOAD words and their bytes at PAYLOAD_BASE, RASTER bytes at RASTER's place (log entry 5). -/
def busResolve (c : Config) (width : AccessWidth) (addr : Nat) : Option PortAccess :=
  if c.regBase ≤ addr ∧ addr < c.regBase + 64 then
    some (.reg width (BitVec.ofNat 6 (addr - c.regBase)))
  else if c.bitbufBase ≤ addr ∧ addr < c.bitbufBase + c.bitbufBytes then
    match width with
    | .w8 => some (.bitbuf (addr - c.bitbufBase))
    | _ => none
  else if c.payloadBase ≤ addr ∧ addr < c.payloadBase + 4 * c.payDepth then
    match width with
    | .w8 => some (.payloadByte ((addr - c.payloadBase) / 4) (Fin.ofNat 4 (addr - c.payloadBase)))
    | .w32 => if (addr - c.payloadBase) % 4 = 0 then some (.payload ((addr - c.payloadBase) / 4)) else none
    | _ => none
  else if c.rasterBase ≤ addr ∧ addr < c.rasterBase + c.rasterBytes then
    match width with
    | .w8 => some (.raster (addr - c.rasterBase))
    | _ => none
  else none

/-! ## The host's operations (rule R96) -/

/-- One poll of WAIT (rules R96, R97): RD STATUS; while BUSY reads 1 the WAIT stays the host's next operation. -/
def waitPoll (s : State) : State :=
  if (statusWord s).getLsbD 0 then reply (statusWord s) { s with host := .wait :: s.host }
  else reply (statusWord s) s

/-- One operation of the host, already taken off its list. -/
def hostOp (op : HostOp) (s : State) : Host.Outcome State Fault Refusal :=
  match op with
  | .write p v => portWrite p v s
  | .read p => portRead p s
  | .busWrite width addr v =>
    match busResolve s.cfg width addr with
    | some p => portWrite p v s
    | none => .refused (.busAccessNotDescribed width addr)
  | .busRead width addr =>
    match busResolve s.cfg width addr with
    | some p => portRead p s
    | none => .refused (.busAccessNotDescribed width addr)
  | .wait => .next (waitPoll s)

/-- The host's turn: its next operation, or nothing when it has none (rule R223). -/
def hostTurn (s : State) : Host.Outcome State Fault Refusal :=
  match s.host with
  | [] => .next s
  | op :: rest => hostOp op { s with host := rest }

/-! ## The host notation of rule R96 -/

/-- The registers of rule R20. -/
inductive Reg
  | cmd
  | status
  | ctrl
  | width
  | height
  | payLen
  | bitLenLo
  | bitLenHi
  | errInfo
deriving DecidableEq, Repr

/-- The offsets of rule R20. -/
def regOffset : Reg → BitVec 6
  | .cmd => 0x00#6
  | .status => 0x04#6
  | .ctrl => 0x08#6
  | .width => 0x0C#6
  | .height => 0x10#6
  | .payLen => 0x14#6
  | .bitLenLo => 0x18#6
  | .bitLenHi => 0x1C#6
  | .errInfo => 0x20#6

/-- `WR reg, imm32`. -/
def hostWr (r : Reg) (v : Word) : HostOp := .write (.reg .w32 (regOffset r)) v

/-- `RD reg`. -/
def hostRd (r : Reg) : HostOp := .read (.reg .w32 (regOffset r))

/-- `MB RASTER[k], imm8`. -/
def hostMbRaster (k : Nat) (v : Byte) : HostOp := .write (.raster k) (v.setWidth 32)

/-- `MB BITBUF[j], imm8`. -/
def hostMbBitbuf (j : Nat) (v : Byte) : HostOp := .write (.bitbuf j) (v.setWidth 32)

/-- `MW PAYLOAD[i], imm32`. -/
def hostMw (i : Nat) (v : Word) : HostOp := .write (.payload i) v

/-- `CMD mnemonic`: a write of its command word to CMD. -/
def hostCmd (i : Instr) : HostOp := hostWr .cmd (encode i)

/-- `CLR`: clears DONE, ERR and OVR. -/
def hostClr : HostOp := hostWr .status 0x0000000E#32

end Sys2Proof.Machine
end

