-- ==== Sys2Proof/Machine/Reset.lean ====
section
/-! DEFINITION. Reset (rules R210 to R213): the registers, and what a reset leaves of the memories when it abandons a
command. -/

namespace Sys2Proof.Machine

/-- A write set as the number of cells from index 0 up in each memory. -/
structure WriteSet where
  raster : Nat := 0
  bitbuf : Nat := 0
  payload : Nat := 0
deriving DecidableEq, Repr

/-! ## What a cell may hold: its value, or anything where nothing has written it (rule R80) -/

/-- The cell may hold the byte b. -/
def mayHold (m : Memory) (a : Nat) (b : Byte) : Bool :=
  match Memory.read m a with
  | some v => v == b
  | none => true

/-- The channel may have the LSB b. -/
def mayHaveLsb (m : Memory) (k : Nat) (b : Bool) : Bool :=
  match Memory.read m k with
  | some v => lsb v == b
  | none => true

/-- PAYLOAD words 0 to n - 1 may all be legal code points: no written byte of bits 31:8 is other than 0. -/
def mayBeLegal (m : Memory) (n : Nat) : Bool :=
  (List.range n).all fun i => mayHold m (4 * i + 1) 0#8 && mayHold m (4 * i + 2) 0#8 && mayHold m (4 * i + 3) 0#8

/-- BITBUF bytes 0 to 3 may hold the length prefix len (rule R67). -/
def mayDeclare (m : Memory) (len : Nat) : Bool :=
  (List.range 4).all fun j => mayHold m j ((BitVec.ofNat 32 len).extractLsb' (24 - 8 * j) 8)

/-- The first 32 channels may carry the length prefix len (rule R132). -/
def mayCarry (m : Memory) (len : Nat) : Bool :=
  (List.range 32).all fun k => mayHaveLsb m k ((BitVec.ofNat 32 len).getLsbD (31 - k))

/-- The largest n up to the given bound with p n. -/
def largestUpTo (p : Nat → Bool) : Nat → Option Nat
  | 0 => if p 0 then some 0 else none
  | n + 1 => if p (n + 1) then some (n + 1) else largestUpTo p n

/-- The longest payload that a declared length of 32 bits can have within the bound. -/
def longestPayload (p : Nat → Bool) (bound : Nat) : Option Nat := largestUpTo p (min bound (2 ^ 32 - 1))

/-- ENCODE's write set: BITBUF bytes 0 to 3 + L, if it can succeed (rules R72, R111). -/
def writeSetEncode (s : State) : WriteSet :=
  if s.payLen.toNat ≤ s.cfg.payDepth ∧ 4 + s.payLen.toNat ≤ s.cfg.bitbufBytes then
    if mayBeLegal s.payload s.payLen.toNat then { bitbuf := 4 + s.payLen.toNat } else {}
  else {}

/-- DECODE's write set: PAYLOAD words 0 to L - 1 for the lengths L with which it can succeed (rules R72, R112). -/
def writeSetDecode (s : State) : WriteSet :=
  if lenBits ≤ s.bitLen.toNat ∧ s.bitLen.toNat ≤ 8 * s.cfg.bitbufBytes then
    { payload := (longestPayload (mayDeclare s.bitbuf)
        (min s.cfg.payDepth ((s.bitLen.toNat - lenBits) / cpBits))).getD 0 }
  else {}

/-- EMBED's: RASTER bytes 0 to T - 1, as rule R213 says. -/
def writeSetEmbed (s : State) : WriteSet := { raster := s.bitLen.toNat }

/-- EXTRACT's: BITBUF bytes 0 to 3 + L for the lengths L with which it can succeed (rules R72, R132). -/
def writeSetExtract (s : State) : WriteSet :=
  if lenBits ≤ rasterCapacity s ∧ rasterCapacity s ≤ s.cfg.rasterBytes ∧ 4 ≤ s.cfg.bitbufBytes then
    match longestPayload (mayCarry s.raster)
        (min (s.cfg.bitbufBytes - 4) ((rasterCapacity s - lenBits) / cpBits)) with
    | some len => { bitbuf := 4 + len }
    | none => {}
  else {}

/-- ENCODE_EMBED's: RASTER bytes 0 to 31 + 8 L, as rule R213 says. -/
def writeSetEncodeEmbed (s : State) : WriteSet := { raster := frameLen s.payLen.toNat }

/-- EXTRACT_DECODE's: PAYLOAD words 0 to L - 1 for the lengths L with which it can succeed (rules R72, R161). -/
def writeSetExtractDecode (s : State) : WriteSet :=
  if lenBits ≤ rasterCapacity s ∧ rasterCapacity s ≤ s.cfg.rasterBytes then
    { payload := (longestPayload (mayCarry s.raster)
        (min s.cfg.payDepth ((rasterCapacity s - lenBits) / cpBits))).getD 0 }
  else {}

/-- The write set of an abandoned command (rule R213): for EMBED and ENCODE_EMBED the extents that rule writes, with or
without success; for the others, whose w marks apply only on success (rule R72), the cells that the command could write
with what its operands hold, an unwritten cell holding anything (log entries 8 and 9). -/
def writeSet (i : Instr) (s : State) : WriteSet :=
  match i with
  | .encode => writeSetEncode s
  | .decode => writeSetDecode s
  | .embed => writeSetEmbed s
  | .extract => writeSetExtract s
  | .encodeEmbed => writeSetEncodeEmbed s
  | .extractDecode => writeSetExtractDecode s

/-- Forget the cells of a write set: they hold unspecified values, treated as never written (rule R213, U2). -/
def forget (ws : WriteSet) (s : State) : State :=
  { s with
    raster := Memory.eraseBelow s.raster ws.raster
    bitbuf := Memory.eraseBelow s.bitbuf ws.bitbuf
    payload := Memory.eraseBelow s.payload (4 * ws.payload) }

/-- What a reset does to the memories: nothing while BUSY = 0 (rule R212); while BUSY = 1 the latched command's write
set is lost (rule R213). -/
def resetMemories (s : State) : State :=
  if s.busy then
    match decodeOp s.curOp with
    | some i => forget (writeSet i s) s
    | none => s
  else s

/-- Every register at its value after reset (rules R41, R210). -/
def resetRegisters (s : State) : State :=
  { s with
    busy := false, done := false, err := false, ovr := false, errCode := 0#4
    irqEn := false
    width := 0#32, height := 0#32, payLen := 0#32, bitLen := 0#64, errInfo := 0#32
    curOp := 0#4 }

/-- rst (rules R210 to R213). The host's own program, the schedule and the parameters are not LSBSC's to reset. -/
def resetMachine (s : State) : State := resetRegisters (resetMemories s)

end Sys2Proof.Machine
end

