-- ==== Sys2Proof/Machine/Engine.lean ====
section
/-! DEFINITION. The turns of the agents (rule R5): the codec engine's completion step, and one turn of the agent the
schedule names. Also how a command word is placed for the next step. -/

namespace Sys2Proof.Machine

/-- The engine's turn: while BUSY = 1, the completion step of the latched command (rules R5, R38); while BUSY = 0 it
has no step. -/
def engineTurn (s : State) : Host.Outcome State Fault Refusal :=
  if s.busy then
    match decodeOp s.curOp with
    | some i => exec i s
    | none => .fault (.latchedOpcodeIllegal s.curOp)
  else .next s

/-- One turn of an agent (rule R5). -/
def agentTurn (a : Agent) (s : State) : Host.Outcome State Fault Refusal :=
  match a with
  | .host => hostTurn s
  | .engine => engineTurn s
  | .reset => .next (resetMachine s)

/-- The turn taken when the schedule is used up: an enabled completion step goes first (weak fairness, rules R97 and
R222), else the host. -/
def defaultTurn (s : State) : Host.Outcome State Fault Refusal :=
  if s.busy then engineTurn s else hostTurn s

/-- One step: the agent the schedule names takes its turn (rule R5). -/
def scheduledStep (s : State) : Host.Outcome State Fault Refusal :=
  match s.turns with
  | a :: rest => agentTurn a { s with turns := rest }
  | [] => defaultTurn s

/-- A command word delivered to an idle machine (rules R25, R90): the launch, with the engine's turn next, so that the
very next step is the command's completion step (log entry 12). -/
def placeCommand (v : Word) (s : State) : State :=
  let t := launch v { s with busy := false }
  { t with turns := .engine :: t.turns }

end Sys2Proof.Machine
end

