-- ==== Sys2Proof/Machine/Step.lean ====
section
/-! DEFINITION. One step of the machine, and the placing of a command word for the next step. -/

namespace Sys2Proof.Machine

/-- One step (rule R5). A configuration the spec does not admit is refused (rule R62, U5, D6). -/
def step (s : State) : Host.Outcome State Fault Refusal :=
  if configAdmitted s.cfg then scheduledStep s else .refused .configurationNotAdmitted

/-- The state with the command word w (its bits numbered as the opcode table numbers them) delivered, so that the very
next step runs that command (log entry 12). Every command is 32 bits long (rule R90). -/
def State.withFetchWord (s : State) (nbits w : Nat) : State :=
  placeCommand (BitVec.ofNat 32 (w % 2 ^ nbits)) s

end Sys2Proof.Machine
end

