-- ==== Sys2Proof/Safety.lean ====
section
/-! DEFINITION. What counts as a safe run, in the terms the statements use: the invariant of the machine, when a
command's operands are defined, and the end of a run. -/

namespace Sys2Proof.Machine

/-- The STATUS invariants (a), (b) and (c) of rule R28, and that BUSY = 1 only with a latched command (rules R25,
R38). -/
abbrev StatusInv (s : State) : Prop :=
  (s.done && s.err) = false ∧
  (s.busy = true → s.done = false ∧ s.err = false ∧ s.errCode = 0#4 ∧ s.errInfo = 0#32) ∧
  s.errCode.toNat ≤ 6 ∧
  (s.busy = true → (decodeOp s.curOp).isSome = true)

/-- Every memory is in canonical form and lists only cells its space has (rule R61). -/
abbrev MemoryInv (s : State) : Prop :=
  Memory.wf s.raster = true ∧ Memory.wf s.bitbuf = true ∧ Memory.wf s.payload = true ∧
  Memory.below s.cfg.rasterBytes s.raster = true ∧ Memory.below s.cfg.bitbufBytes s.bitbuf = true ∧
  Memory.below (4 * s.cfg.payDepth) s.payload = true

/-- The invariant of the machine: every step keeps it. -/
abbrev Inv (s : State) : Prop := StatusInv s ∧ MemoryInv s

/-! ## The records of rules R192 and R193, as the statements write them out -/

/-- The state after an error of the given code and detail (rule R192): nothing but STATUS and ERR_INFO changes. -/
def afterError (code : BitVec 4) (info : Word) (s : State) : State :=
  { s with busy := false, err := true, done := false, errCode := code, errInfo := info }

/-- The state after a success that writes nothing else (rule R193). -/
def afterSuccess (s : State) : State :=
  { s with busy := false, done := true, err := false, errCode := 0#4, errInfo := 0#32 }

/-- The state after a legal launch of v (rule R25). -/
def afterLaunch (v : Word) (s : State) : State :=
  { s with
    done := false, err := false, errCode := 0#4, errInfo := 0#32
    curOp := v.extractLsb' 0 4, busy := true }

/-! ## Contents of the memories, as the rules speak of them -/

/-- Bytes 0 to n - 1 of a memory hold the values f 0, …, f (n - 1). -/
def Holds (m : Memory) (n : Nat) (f : Nat → Byte) : Prop :=
  ∀ a, a < n → Memory.read m a = some (f a)

/-- PAYLOAD words 0 to n - 1 hold the values f 0, …, f (n - 1). -/
def HoldsWords (m : Memory) (n : Nat) (f : Nat → Word) : Prop :=
  ∀ i, i < n → Memory.readWord m i = some (f i)

/-- Bytes 0 to n - 1 of a memory hold a value (rules R80, R215). -/
def Written (m : Memory) (n : Nat) : Prop :=
  ∀ a, a < n → (Memory.read m a).isSome = true

/-- The cell at an index of a space holds no defined value (rule R80). -/
def NoValue (s : State) (sp : Space) (index : Nat) : Prop :=
  match sp with
  | .raster => Memory.read s.raster index = none
  | .bitbuf => Memory.read s.bitbuf index = none
  | .payload => Memory.readWord s.payload index = none

/-- t is s but for values in cells that s does not define (rule R80: such a cell may hold anything). -/
def Extends (s t : State) : Prop :=
  t = { s with raster := t.raster, bitbuf := t.bitbuf, payload := t.payload } ∧
  (∀ a v, Memory.read s.raster a = some v → Memory.read t.raster a = some v) ∧
  (∀ a v, Memory.read s.bitbuf a = some v → Memory.read t.bitbuf a = some v) ∧
  (∀ a v, Memory.read s.payload a = some v → Memory.read t.payload a = some v)

/-- BE32 of BITBUF[0..3] (rules R67, R112), for bytes b. -/
def bytePrefix (b : Nat → Byte) : Nat :=
  ∑ j ∈ Finset.range 4, (b j).toNat * 256 ^ (3 - j)

/-- Bit k of the sequence held in bytes b (rule R66). -/
def packedBit (b : Nat → Byte) (k : Nat) : Bool := (b (k / 8)).getLsbD (7 - k % 8)

/-- Bit k of frame(L, cp) (rule R110). -/
def frameBit (len : Word) (cp : Nat → Word) (k : Nat) : Bool :=
  if k < 32 then len.getLsbD (31 - k) else (cp ((k - 32) / 8)).getLsbD (7 - (k - 32) % 8)

/-- The length the first 32 channel LSBs declare (rules R133, R161), for channels c. -/
def lsbPrefix (c : Nat → Byte) : Nat :=
  ∑ k ∈ Finset.range 32, (c k).toNat % 2 * 2 ^ (31 - k)

/-- The 8-bit value of the LSBs of channels o, …, o + 7 (rules R133, R161). -/
def lsbByte (c : Nat → Byte) (o : Nat) : Nat :=
  ∑ m ∈ Finset.range 8, (c (o + m)).toNat % 2 * 2 ^ (7 - m)

/-- The number of channels EXTRACT and EXTRACT_DECODE read: min(required, cap), or all of them when cap < 32 (rule
R132). -/
def extractReads (cap : Nat) (c : Nat → Byte) : Nat :=
  if cap < 32 then cap else min (32 + 8 * lsbPrefix c) cap

/-- Every PAYLOAD word that the ascending code-point check reaches has been written (rules R80, R111). -/
def CodePointsWritten (s : State) : Prop :=
  ∀ i, i < s.payLen.toNat →
    (∀ j, j < i → ∃ w, Memory.readWord s.payload j = some w ∧ w.toNat ≤ 0xFF) →
    (Memory.readWord s.payload i).isSome = true

/-- Every PAYLOAD word 0 to L - 1 holds a code point of 8 bits. -/
def CodePointsLegal (s : State) : Prop :=
  ∀ i, i < s.payLen.toNat → ∃ w, Memory.readWord s.payload i = some w ∧ w.toNat ≤ 0xFF

/-- What the command reads has been written (rules R80, R215): its whole read set, as far as its checks let it read. -/
def OperandsWritten (i : Instr) (s : State) : Prop :=
  match i with
  | .encode => s.payLen.toNat ≤ s.cfg.payDepth → CodePointsWritten s
  | .decode =>
    32 ≤ s.bitLen.toNat → s.bitLen.toNat ≤ 8 * s.cfg.bitbufBytes →
      Written s.bitbuf 4 ∧
      ∀ b, Holds s.bitbuf 4 b → 32 + 8 * bytePrefix b ≤ s.bitLen.toNat → bytePrefix b ≤ s.cfg.payDepth →
        Written s.bitbuf (4 + bytePrefix b)
  | .embed =>
    s.bitLen.toNat ≤ 8 * s.cfg.bitbufBytes → rasterCapacity s ≤ s.cfg.rasterBytes →
      s.bitLen.toNat ≤ rasterCapacity s →
      Written s.bitbuf ((s.bitLen.toNat + 7) / 8) ∧ Written s.raster s.bitLen.toNat
  | .extract | .extractDecode =>
    rasterCapacity s ≤ s.cfg.rasterBytes → ∃ c, Holds s.raster (extractReads (rasterCapacity s) c) c
  | .encodeEmbed =>
    s.payLen.toNat ≤ s.cfg.payDepth →
      CodePointsWritten s ∧
      (CodePointsLegal s → rasterCapacity s ≤ s.cfg.rasterBytes →
        32 + 8 * s.payLen.toNat ≤ rasterCapacity s → Written s.raster (32 + 8 * s.payLen.toNat))

/-! ## Runs -/

/-- A run has ended (rule R223): the host has no further operation, BUSY = 0 and no reset is pending. It does not say
that OVR is 0, that the last command succeeded, or that the raster was saved. -/
def runEnded (s : State) : Bool := s.host.isEmpty && !s.busy && !(s.turns.contains .reset)

end Sys2Proof.Machine
end

