-- ==== Sys2Proof/Certificates/Slice0/Obligations.lean ====
section
/-! DEFINITION. The statements about LSBSC, each a Prop. Where a memory's contents matter, a function gives them
(`Holds m n f`: bytes 0 to n - 1 hold f 0, …, f (n - 1); `HoldsWords` the same of PAYLOAD words), so that a statement
computes every stored byte. -/

open Sys2Proof Sys2Proof.Machine

/-! ## Command words -/

/-- Rule R92: the opcode map, from the words of its table, reserved opcodes included. -/
def Obligations.OpcodeMapDecodesAsTabled : Prop :=
  decode 0b00000000000000000000000000000001#32 = .ok .encode ∧
  decode 0b00000000000000000000000000000010#32 = .ok .decode ∧
  decode 0b00000000000000000000000000000011#32 = .ok .embed ∧
  decode 0b00000000000000000000000000000100#32 = .ok .extract ∧
  decode 0b00000000000000000000000000000101#32 = .ok .encodeEmbed ∧
  decode 0b00000000000000000000000000000110#32 = .ok .extractDecode ∧
  decode 0b00000000000000000000000000000000#32 = .error .reservedOpcode ∧
  decode 0b00000000000000000000000000000111#32 = .error .reservedOpcode ∧
  decode 0b00000000000000000000000000001111#32 = .error .reservedOpcode ∧
  decode 0b00000000000000000000000000010001#32 = .error .reservedBits

/-- Decoding the word of an instruction gives the instruction back. -/
def Obligations.DecodeOfEncode : Prop := ∀ i : Instr, i.wf = true → decode (encode i) = .ok i

/-- A word that decodes is the word of its instruction: no bit of a command word is ignored (rules R91, R93, R95). -/
def Obligations.EncodeOfDecode : Prop := ∀ (v : Word) (i : Instr), decode v = .ok i → encode i = v

/-- Rule R93: legality, and one row for each legal word. -/
def Obligations.LegalWordsMatchOneRow : Prop :=
  ∀ v : Word,
    (legal v = true ↔
      v.extractLsb' 4 28 = 0#28 ∧ 1 ≤ (v.extractLsb' 0 4).toNat ∧ (v.extractLsb' 0 4).toNat ≤ 6) ∧
    (legal v = true → ∃! i : Instr, v &&& 0xFFFFFFFF#32 = encode i)

/-! ## The register window -/

/-- Rule R25: the launch, in both cases, and which of them leaves a completion step enabled. -/
def Obligations.LaunchRule : Prop :=
  ∀ (v : Word) (s : State), s.busy = false →
    (legal v = true → regWrite 0x00#6 v s = afterLaunch v s ∧
      ∃ i, decode v = .ok i ∧ engineTurn (afterLaunch v s) = exec i (afterLaunch v s)) ∧
    (legal v = false → regWrite 0x00#6 v s = afterError 6#4 0#32 s ∧
      engineTurn (afterError 6#4 0#32 s) = .next (afterError 6#4 0#32 s))

/-- Rule R94: every illegal word is reported the same way and launches nothing. -/
def Obligations.IllegalWordLaunchesNothing : Prop :=
  ∀ (v : Word) (s : State), s.busy = false →
    v.extractLsb' 4 28 ≠ 0#28 ∨ v.extractLsb' 0 4 = 0#4 ∨ 7 ≤ (v.extractLsb' 0 4).toNat →
    regWrite 0x00#6 v s =
      { s with busy := false, done := false, err := true, errCode := 6#4, errInfo := 0#32 }

/-- Rule R24: a CMD write while BUSY = 1 only sets OVR. -/
def Obligations.CmdWriteWhileBusySetsOvr : Prop :=
  ∀ (v : Word) (s : State), s.busy = true → regWrite 0x00#6 v s = { s with ovr := true }

/-- Rule R26: the fields of STATUS, bit by bit. -/
def Obligations.StatusReadLayout : Prop :=
  ∀ (s : State) (n : Nat), (regRead 0x04#6 s).getLsbD n =
    if n = 0 then s.busy
    else if n = 1 then s.done
    else if n = 2 then s.err
    else if n = 3 then s.ovr
    else if 8 ≤ n ∧ n < 12 then s.errCode.getLsbD (n - 8)
    else false

/-- Rule R27: a STATUS write, whether or not BUSY = 1. -/
def Obligations.StatusWriteClearsByOne : Prop :=
  ∀ (v : Word) (s : State), regWrite 0x04#6 v s =
    { s with
      done := if v.getLsbD 1 then false else s.done
      err := if v.getLsbD 2 then false else s.err
      ovr := if v.getLsbD 3 then false else s.ovr }

/-- Rule R29: CTRL, whether or not BUSY = 1. -/
def Obligations.CtrlHoldsIrqEnable : Prop :=
  ∀ (v : Word) (s : State),
    regWrite 0x08#6 v s = { s with irqEn := v.getLsbD 0 } ∧
    ∀ n, (regRead 0x08#6 s).getLsbD n = if n = 0 then s.irqEn else false

/-- Rule R22: unmapped offsets and reserved bits read 0 and ignore writes. -/
def Obligations.UnmappedAndReservedReadZero : Prop :=
  ∀ (v : Word) (s : State),
    (∀ off : BitVec 6, 0x24 ≤ off.toNat → off.toNat % 4 = 0 →
      regRead off s = 0#32 ∧ regWrite off v s = s) ∧
    (∀ n, (4 ≤ n ∧ n < 8) ∨ 12 ≤ n → (regRead 0x04#6 s).getLsbD n = false) ∧
    (∀ n, 1 ≤ n → (regRead 0x08#6 s).getLsbD n = false) ∧
    regWrite 0x04#6 v s = regWrite 0x04#6 (v &&& 0x00000F0F#32) s ∧
    regWrite 0x08#6 v s = regWrite 0x08#6 (v &&& 0x00000001#32) s

/-- Rules R23 and R34: CMD reads 0 in every state; a write to ERR_INFO changes nothing (not even OVR), whether or not
BUSY = 1, and a read of it returns what it holds. -/
def Obligations.CmdReadsZeroErrInfoReadOnly : Prop :=
  ∀ (v : Word) (s : State),
    regRead 0x00#6 s = 0#32 ∧ regWrite 0x20#6 v s = s ∧ regRead 0x20#6 s = s.errInfo

/-- Rule R35: an operand write while BUSY = 1 only sets OVR. -/
def Obligations.OperandWriteWhileBusySetsOvr : Prop :=
  ∀ (v : Word) (s : State) (off : BitVec 6), s.busy = true →
    off ∈ [0x0C#6, 0x10#6, 0x14#6, 0x18#6, 0x1C#6] → regWrite off v s = { s with ovr := true }

/-- Rule R36: an operand write while BUSY = 0 stores the value and does nothing else. -/
def Obligations.OperandWriteStores : Prop :=
  ∀ (v : Word) (s : State), s.busy = false →
    regWrite 0x0C#6 v s = { s with width := v } ∧
    regWrite 0x10#6 v s = { s with height := v } ∧
    regWrite 0x14#6 v s = { s with payLen := v } ∧
    regWrite 0x18#6 v s = { s with bitLen := ((s.bitLen >>> 32) <<< 32) ||| v.setWidth 64 } ∧
    regWrite 0x1C#6 v s = { s with bitLen := (v.setWidth 64 <<< 32) ||| (s.bitLen.setWidth 32).setWidth 64 }

/-- Rules R20, R33 and R36: what an operand write stored is what a read returns, and BIT_LEN is HI · 2^32 + LO. -/
def Obligations.OperandReadsBack : Prop :=
  ∀ (v : Word) (s : State), s.busy = false →
    (∀ off ∈ [0x0C#6, 0x10#6, 0x14#6, 0x18#6, 0x1C#6],
      regRead off (regWrite off v s) = v ∧
      ∀ off' ∈ [0x0C#6, 0x10#6, 0x14#6, 0x18#6, 0x1C#6], off' ≠ off →
        regRead off' (regWrite off v s) = regRead off' s) ∧
    s.bitLen.toNat = (regRead 0x1C#6 s).toNat * 2 ^ 32 + (regRead 0x18#6 s).toNat

/-- Rule R37: while BUSY = 1, whatever register writes arrive, reads return the operands' values from before the
launch, ERR_INFO = 0, and a STATUS of BUSY and OVR alone. -/
def Obligations.RegisterReadsWhileBusy : Prop :=
  ∀ (s : State) (v : Word) (writes : List (BitVec 6 × Word)) (t : State),
    s.busy = false → legal v = true →
    t = writes.foldl (fun u w => regWrite w.1 w.2 u) (regWrite 0x00#6 v s) →
    regRead 0x0C#6 t = s.width ∧ regRead 0x10#6 t = s.height ∧ regRead 0x14#6 t = s.payLen ∧
    regRead 0x18#6 t = s.bitLen.extractLsb' 0 32 ∧ regRead 0x1C#6 t = s.bitLen.extractLsb' 32 32 ∧
    regRead 0x20#6 t = 0#32 ∧
    regRead 0x04#6 t = (if t.ovr then 0x00000009#32 else 0x00000001#32)

/-- Rule R21: only an aligned 32-bit register access is admitted; the model refuses any other. -/
def Obligations.RegisterAccessAdmission : Prop :=
  ∀ (w : AccessWidth) (off : BitVec 6) (v : Word) (s : State),
    (w = .w32 ∧ off.toNat % 4 = 0 →
      portWrite (.reg w off) v s = .next (regWrite off v s) ∧
      portRead (.reg w off) s = .next { s with replies := regRead off s :: s.replies }) ∧
    (¬ (w = .w32 ∧ off.toNat % 4 = 0) →
      portWrite (.reg w off) v s = .refused (.registerAccessNotAdmitted w off) ∧
      portRead (.reg w off) s = .refused (.registerAccessNotAdmitted w off))

/-! ## The commands: outcome in every case -/

/-- Rule R111: ENCODE. -/
def Obligations.EncodeOutcome : Prop :=
  ∀ (s : State) (cp : Nat → Word),
    (s.cfg.payDepth < s.payLen.toNat → exec .encode s = .next (afterError 5#4 1#32 s)) ∧
    (s.payLen.toNat ≤ s.cfg.payDepth →
      (∀ i, i < s.payLen.toNat → HoldsWords s.payload (i + 1) cp → (∀ j, j < i → (cp j).toNat ≤ 0xFF) →
        0xFF < (cp i).toNat → exec .encode s = .next (afterError 2#4 (BitVec.ofNat 32 i) s)) ∧
      (HoldsWords s.payload s.payLen.toNat cp → (∀ j, j < s.payLen.toNat → (cp j).toNat ≤ 0xFF) →
        (s.cfg.bitbufBytes < 4 + s.payLen.toNat → exec .encode s = .next (afterError 5#4 2#32 s)) ∧
        (4 + s.payLen.toNat ≤ s.cfg.bitbufBytes → ∃ t, exec .encode s = .next t ∧
          t = { afterSuccess s with
                bitbuf := t.bitbuf, bitLen := BitVec.ofNat 64 (32 + 8 * s.payLen.toNat) } ∧
          ∀ a, Memory.read t.bitbuf a =
            if a < 4 then some (s.payLen.extractLsb' (24 - 8 * a) 8)
            else if a < 4 + s.payLen.toNat then some ((cp (a - 4)).setWidth 8)
            else Memory.read s.bitbuf a)))

/-- Rules R110 and R111: the bits ENCODE leaves in BITBUF are exactly frame(L, cp), and BIT_LEN is its length. -/
def Obligations.EncodeWritesTheFrame : Prop :=
  ∀ (s t : State) (cp : Nat → Word),
    exec .encode s = .next t → t.done = true → HoldsWords s.payload s.payLen.toNat cp →
    t.bitLen.toNat = 32 + 8 * s.payLen.toNat ∧
    ∀ k, k < 32 + 8 * s.payLen.toNat → getbit t.bitbuf k = .ok (frameBit s.payLen cp k)

/-- Rule R112: DECODE. Its success clause asks for BITBUF bytes 0 to 3 + L alone, not for the ignored bits up to T: the
model's reading (log entry 17). -/
def Obligations.DecodeOutcome : Prop :=
  ∀ (s : State) (b : Nat → Byte),
    (8 * s.cfg.bitbufBytes < s.bitLen.toNat → exec .decode s = .next (afterError 5#4 2#32 s)) ∧
    (s.bitLen.toNat ≤ 8 * s.cfg.bitbufBytes → s.bitLen.toNat < 32 →
      exec .decode s = .next (afterError 4#4 0#32 s)) ∧
    (s.bitLen.toNat ≤ 8 * s.cfg.bitbufBytes → 32 ≤ s.bitLen.toNat → Holds s.bitbuf 4 b →
      (s.bitLen.toNat < 32 + 8 * bytePrefix b → exec .decode s = .next (afterError 4#4 1#32 s)) ∧
      (32 + 8 * bytePrefix b ≤ s.bitLen.toNat →
        (s.cfg.payDepth < bytePrefix b → exec .decode s = .next (afterError 5#4 1#32 s)) ∧
        (bytePrefix b ≤ s.cfg.payDepth → Holds s.bitbuf (4 + bytePrefix b) b →
          ∃ t, exec .decode s = .next t ∧
            t = { afterSuccess s with
                  payload := t.payload, payLen := BitVec.ofNat 32 (bytePrefix b) } ∧
            t.payLen.toNat = bytePrefix b ∧
            HoldsWords t.payload (bytePrefix b) (fun i => (b (4 + i)).setWidth 32) ∧
            ∀ a, 4 * bytePrefix b ≤ a → Memory.read t.payload a = Memory.read s.payload a)))

/-- Rule R131: EMBED. -/
def Obligations.EmbedOutcome : Prop :=
  ∀ (s : State) (b c : Nat → Byte) (cap : Nat), cap = s.width.toNat * s.height.toNat * 3 →
    (8 * s.cfg.bitbufBytes < s.bitLen.toNat → exec .embed s = .next (afterError 5#4 2#32 s)) ∧
    (s.bitLen.toNat ≤ 8 * s.cfg.bitbufBytes →
      (s.cfg.rasterBytes < cap → exec .embed s = .next (afterError 5#4 0#32 s)) ∧
      (cap ≤ s.cfg.rasterBytes →
        (cap < s.bitLen.toNat → exec .embed s = .next (afterError 1#4 0#32 s)) ∧
        (s.bitLen.toNat ≤ cap → Holds s.bitbuf ((s.bitLen.toNat + 7) / 8) b →
          Holds s.raster s.bitLen.toNat c →
          ∃ t, exec .embed s = .next t ∧
            t = { afterSuccess s with raster := t.raster } ∧
            ∀ k, Memory.read t.raster k =
              if k < s.bitLen.toNat then
                some ((c k &&& 0xFE#8) ||| (if packedBit b k then 0x01#8 else 0x00#8))
              else Memory.read s.raster k)))

/-- Rule R133: EXTRACT, in closed form. -/
def Obligations.ExtractOutcome : Prop :=
  ∀ (s : State) (c : Nat → Byte) (cap : Nat), cap = s.width.toNat * s.height.toNat * 3 →
    (s.cfg.rasterBytes < cap → exec .extract s = .next (afterError 5#4 0#32 s)) ∧
    (cap ≤ s.cfg.rasterBytes → Holds s.raster (extractReads cap c) c →
      (cap < 32 → exec .extract s = .next (afterError 3#4 0#32 s)) ∧
      (32 ≤ cap →
        (cap < 32 + 8 * lsbPrefix c → exec .extract s = .next (afterError 3#4 1#32 s)) ∧
        (32 + 8 * lsbPrefix c ≤ cap →
          (s.cfg.bitbufBytes < 4 + lsbPrefix c → exec .extract s = .next (afterError 5#4 2#32 s)) ∧
          (4 + lsbPrefix c ≤ s.cfg.bitbufBytes → ∃ t, exec .extract s = .next t ∧
            t = { afterSuccess s with
                  bitbuf := t.bitbuf, bitLen := BitVec.ofNat 64 (32 + 8 * lsbPrefix c) } ∧
            t.bitLen.toNat = 32 + 8 * lsbPrefix c ∧
            ∀ j, Memory.read t.bitbuf j =
              if j < 4 + lsbPrefix c then some (BitVec.ofNat 8 (lsbByte c (8 * j)))
              else Memory.read s.bitbuf j))))

/-- Rule R160: ENCODE_EMBED. -/
def Obligations.EncodeEmbedOutcome : Prop :=
  ∀ (s : State) (cp : Nat → Word) (c : Nat → Byte) (cap : Nat),
    cap = s.width.toNat * s.height.toNat * 3 →
    (s.cfg.payDepth < s.payLen.toNat → exec .encodeEmbed s = .next (afterError 5#4 1#32 s)) ∧
    (s.payLen.toNat ≤ s.cfg.payDepth →
      (∀ i, i < s.payLen.toNat → HoldsWords s.payload (i + 1) cp → (∀ j, j < i → (cp j).toNat ≤ 0xFF) →
        0xFF < (cp i).toNat → exec .encodeEmbed s = .next (afterError 2#4 (BitVec.ofNat 32 i) s)) ∧
      (HoldsWords s.payload s.payLen.toNat cp → (∀ j, j < s.payLen.toNat → (cp j).toNat ≤ 0xFF) →
        (s.cfg.rasterBytes < cap → exec .encodeEmbed s = .next (afterError 5#4 0#32 s)) ∧
        (cap ≤ s.cfg.rasterBytes →
          (cap < 32 + 8 * s.payLen.toNat → exec .encodeEmbed s = .next (afterError 1#4 0#32 s)) ∧
          (32 + 8 * s.payLen.toNat ≤ cap → Holds s.raster (32 + 8 * s.payLen.toNat) c →
            ∃ t, exec .encodeEmbed s = .next t ∧
              t = { afterSuccess s with raster := t.raster } ∧
              ∀ k, Memory.read t.raster k =
                if k < 32 + 8 * s.payLen.toNat then
                  some ((c k &&& 0xFE#8) ||| (if frameBit s.payLen cp k then 0x01#8 else 0x00#8))
                else Memory.read s.raster k))))

/-- Rule R161: EXTRACT_DECODE. The read set is that of EXTRACT. -/
def Obligations.ExtractDecodeOutcome : Prop :=
  ∀ (s : State) (c : Nat → Byte) (cap : Nat), cap = s.width.toNat * s.height.toNat * 3 →
    (s.cfg.rasterBytes < cap → exec .extractDecode s = .next (afterError 5#4 0#32 s)) ∧
    (cap ≤ s.cfg.rasterBytes → Holds s.raster (extractReads cap c) c →
      (cap < 32 → exec .extractDecode s = .next (afterError 3#4 0#32 s)) ∧
      (32 ≤ cap →
        (cap < 32 + 8 * lsbPrefix c → exec .extractDecode s = .next (afterError 3#4 1#32 s)) ∧
        (32 + 8 * lsbPrefix c ≤ cap →
          (s.cfg.payDepth < lsbPrefix c → exec .extractDecode s = .next (afterError 5#4 1#32 s)) ∧
          (lsbPrefix c ≤ s.cfg.payDepth → ∃ t, exec .extractDecode s = .next t ∧
            t = { afterSuccess s with
                  payload := t.payload, payLen := BitVec.ofNat 32 (lsbPrefix c) } ∧
            t.payLen.toNat = lsbPrefix c ∧
            HoldsWords t.payload (lsbPrefix c) (fun i => BitVec.ofNat 32 (lsbByte c (32 + 8 * i))) ∧
            ∀ a, 4 * lsbPrefix c ≤ a → Memory.read t.payload a = Memory.read s.payload a))))

/-! ## The commands: laws over all of them -/

/-- Rule R80: a command completes exactly when every cell its checks let it read has been written, and otherwise
faults at a cell that holds no value. No command is ever refused. How far the checks let it read is the model's reading
(log entries 10 and 17). -/
def Obligations.CommandCompletesIffOperandsWritten : Prop :=
  ∀ (i : Instr) (s : State),
    (OperandsWritten i s → ∃ t, exec i s = .next t) ∧
    (¬ OperandsWritten i s → ∃ sp a, exec i s = .fault (.unwrittenCell sp a) ∧ NoValue s sp a)

/-- Rules R191 and R192: a failed command writes STATUS and ERR_INFO, and nothing else at all. -/
def Obligations.FailedCommandWritesOnlyTheRecord : Prop :=
  ∀ (i : Instr) (s t : State), exec i s = .next t → t.err = true →
    t = { s with busy := false, err := true, done := false, errCode := t.errCode, errInfo := t.errInfo } ∧
    1 ≤ t.errCode.toNat ∧ t.errCode.toNat ≤ 5

/-- Rules R192 and R193: every completion clears BUSY and sets exactly one of DONE and ERR; a success leaves ERRCODE and
ERR_INFO 0. -/
def Obligations.CompletionRecordsOneOutcome : Prop :=
  ∀ (i : Instr) (s t : State), exec i s = .next t →
    t.busy = false ∧ t.err = !t.done ∧ (t.done = true → t.errCode = 0#4 ∧ t.errInfo = 0#32)

/-- Rule R72: what each command leaves alone, whatever its outcome. -/
def Obligations.CommandFrame : Prop :=
  ∀ (i : Instr) (s t : State), exec i s = .next t →
    t.cfg = s.cfg ∧ t.ovr = s.ovr ∧ t.irqEn = s.irqEn ∧ t.width = s.width ∧ t.height = s.height ∧
    t.curOp = s.curOp ∧ t.host = s.host ∧ t.turns = s.turns ∧ t.replies = s.replies ∧
    (i ≠ .embed → i ≠ .encodeEmbed → t.raster = s.raster) ∧
    (i ≠ .encode → i ≠ .extract → t.bitbuf = s.bitbuf ∧ t.bitLen = s.bitLen) ∧
    (i ≠ .decode → i ≠ .extractDecode → t.payload = s.payload ∧ t.payLen = s.payLen)

/-- Rule R135: after any EMBED every RASTER byte outside the write set is as before, on failure every byte; after any
EXTRACT every RASTER byte is as before. -/
def Obligations.UntouchedTailAndNonDestructiveFailure : Prop :=
  (∀ s t : State, exec .embed s = .next t →
    (∀ k, s.bitLen.toNat ≤ k → Memory.read t.raster k = Memory.read s.raster k) ∧
    (t.err = true → ∀ k, Memory.read t.raster k = Memory.read s.raster k)) ∧
  (∀ s t : State, exec .extract s = .next t → ∀ k, Memory.read t.raster k = Memory.read s.raster k)

/-- Rule R114: ENCODE and DECODE depend only on the state rule R72 lists: two states that agree on it give the same
record and the same outputs. -/
def Obligations.FramerPurity : Prop :=
  ∀ s s' t : State, s.cfg = s'.cfg →
    (s.payLen = s'.payLen → s.payload = s'.payload → exec .encode s = .next t →
      ∃ t', exec .encode s' = .next t' ∧ t'.done = t.done ∧ t'.err = t.err ∧ t'.errCode = t.errCode ∧
        t'.errInfo = t.errInfo ∧
        (t.done = true → t'.bitLen = t.bitLen ∧
          ∀ a, a < 4 + s.payLen.toNat → Memory.read t'.bitbuf a = Memory.read t.bitbuf a)) ∧
    (s.bitLen = s'.bitLen → s.bitbuf = s'.bitbuf → exec .decode s = .next t →
      ∃ t', exec .decode s' = .next t' ∧ t'.done = t.done ∧ t'.err = t.err ∧ t'.errCode = t.errCode ∧
        t'.errInfo = t.errInfo ∧
        (t.done = true → t'.payLen = t.payLen ∧
          ∀ a, a < 4 * t.payLen.toNat → Memory.read t'.payload a = Memory.read t.payload a))

/-- Rule R219: ENCODE_EMBED and EXTRACT_DECODE do not depend on BITBUF or BIT_LEN at all. -/
def Obligations.CallSitesIgnoreBitbuf : Prop :=
  ∀ (i : Instr) (s t : State) (m : Memory) (n : DWord), i = .encodeEmbed ∨ i = .extractDecode →
    exec i s = .next t → exec i { s with bitbuf := m, bitLen := n } = .next { t with bitbuf := m, bitLen := n }

/-- Rule R220: EXTRACT and EXTRACT_DECODE read the same bits, and end alike, under any two geometries of one product. -/
def Obligations.SameProductSameExtraction : Prop :=
  ∀ (i : Instr) (s t : State) (w h : Word), i = .extract ∨ i = .extractDecode →
    w.toNat * h.toNat = s.width.toNat * s.height.toNat → exec i s = .next t →
    exec i { s with width := w, height := h } = .next { t with width := w, height := h }

/-- Rule R113: ENCODE, then DECODE in any state with the BITBUF and BIT_LEN that ENCODE left, gives the payload back. -/
def Obligations.FramerRoundTrip : Prop :=
  ∀ (s : State) (cp : Nat → Word), 4 + s.cfg.payDepth ≤ s.cfg.bitbufBytes →
    s.payLen.toNat ≤ s.cfg.payDepth → HoldsWords s.payload s.payLen.toNat cp →
    (∀ i, i < s.payLen.toNat → (cp i).toNat ≤ 0xFF) →
    ∃ t, exec .encode s = .next t ∧ t.done = true ∧
      ∀ t' : State, t'.cfg = t.cfg → t'.bitbuf = t.bitbuf → t'.bitLen = t.bitLen →
        ∃ u, exec .decode t' = .next u ∧ u.done = true ∧ u.payLen = s.payLen ∧
          HoldsWords u.payload s.payLen.toNat cp

/-- Rule R163: ENCODE_EMBED through any carrier of enough capacity, then EXTRACT_DECODE in any state with the RASTER it
left and the same W and H, gives the payload back. -/
def Obligations.RasterRoundTrip : Prop :=
  ∀ (s : State) (cp : Nat → Word), s.payLen.toNat ≤ s.cfg.payDepth →
    HoldsWords s.payload s.payLen.toNat cp → (∀ i, i < s.payLen.toNat → (cp i).toNat ≤ 0xFF) →
    32 + 8 * s.payLen.toNat ≤ s.width.toNat * s.height.toNat * 3 →
    s.width.toNat * s.height.toNat * 3 ≤ s.cfg.rasterBytes →
    Written s.raster (32 + 8 * s.payLen.toNat) →
    ∃ t, exec .encodeEmbed s = .next t ∧ t.done = true ∧
      ∀ t' : State, t'.cfg = t.cfg → t'.raster = t.raster → t'.width = t.width → t'.height = t.height →
        ∃ u, exec .extractDecode t' = .next u ∧ u.done = true ∧ u.payLen = s.payLen ∧
          HoldsWords u.payload s.payLen.toNat cp

/-- Rule R162(a): ENCODE_EMBED against ENCODE followed, if it succeeded, by EMBED. -/
def Obligations.EncodeEmbedIsEncodeThenEmbed : Prop :=
  ∀ s t : State, 4 + s.cfg.payDepth ≤ s.cfg.bitbufBytes → exec .encode s = .next t →
    (t.err = true → exec .encodeEmbed s = .next t) ∧
    (t.done = true → ∀ u, exec .embed t = .next u →
      ∃ v, exec .encodeEmbed s = .next v ∧ v.raster = u.raster ∧ v.done = u.done ∧ v.err = u.err ∧
        v.errCode = u.errCode ∧ v.errInfo = u.errInfo ∧ v.busy = u.busy ∧ v.ovr = u.ovr ∧
        v.bitbuf = s.bitbuf ∧ v.bitLen = s.bitLen)

/-- Rule R162(b): EXTRACT_DECODE against EXTRACT followed, if it succeeded, by DECODE, with the one exception the rule
names: where the pair ends in BOUNDS(BITBUF), the composite ends in BOUNDS(PAYLOAD). -/
def Obligations.ExtractDecodeIsExtractThenDecode : Prop :=
  ∀ s t : State, 4 + s.cfg.payDepth ≤ s.cfg.bitbufBytes → exec .extract s = .next t →
    (t.err = true → ∃ v, exec .extractDecode s = .next v ∧ v.done = t.done ∧ v.err = t.err ∧
      v.errCode = t.errCode ∧ v.errInfo = (if t.errCode = 5#4 ∧ t.errInfo = 2#32 then 1#32 else t.errInfo) ∧
      v.payload = t.payload ∧ v.payLen = t.payLen ∧ v.bitbuf = s.bitbuf ∧ v.bitLen = s.bitLen) ∧
    (t.done = true → ∃ u v, exec .decode t = .next u ∧ exec .extractDecode s = .next v ∧
      v.done = u.done ∧ v.err = u.err ∧ v.errCode = u.errCode ∧ v.errInfo = u.errInfo ∧
      v.payload = u.payload ∧ v.payLen = u.payLen ∧ v.bitbuf = s.bitbuf ∧ v.bitLen = s.bitLen)

/-- Rule R136: what flipping one channel's LSB does to the raw stream and to EXTRACT's result. -/
def Obligations.ScanPositionSensitivity : Prop :=
  ∀ (s : State) (c c' : Nat → Byte) (p cap : Nat) (s' : State),
    cap = s.width.toNat * s.height.toNat * 3 → p < cap → Holds s.raster cap c →
    s' = { s with raster := Memory.write s.raster p (c p ^^^ 0x01#8) } →
    c' = (fun k => if k = p then c k ^^^ 0x01#8 else c k) →
    (Holds s'.raster cap c' ∧ lsb (c' p) = !lsb (c p) ∧ ∀ k, k ≠ p → lsb (c' k) = lsb (c k)) ∧
    (∀ t, exec .extract s = .next t → 32 ≤ p → p < 32 + 8 * lsbPrefix c →
      ∃ t', exec .extract s' = .next t' ∧ t'.done = t.done ∧ t'.err = t.err ∧ t'.errCode = t.errCode ∧
        t'.errInfo = t.errInfo ∧ t'.bitLen = t.bitLen ∧
        (t.done = true → getbit t'.bitbuf p = (getbit t.bitbuf p).map (!·)) ∧
        ∀ k, k ≠ p ∨ t.err = true → getbit t'.bitbuf k = getbit t.bitbuf k) ∧
    (∀ t, exec .extract s = .next t → 32 + 8 * lsbPrefix c ≤ p →
      exec .extract s' = .next { t with raster := s'.raster }) ∧
    (p < 32 → if lsb (c p) then lsbPrefix c' + 2 ^ (31 - p) = lsbPrefix c
              else lsbPrefix c' = lsbPrefix c + 2 ^ (31 - p))

/-! ## Layouts and helper functions -/

/-- Rule R130: the capacity, exact: it never wraps. Its largest value is reached, and needs 66 bits. -/
def Obligations.CapacityIsExact : Prop :=
  (∀ w h : Word, capacity w h = w.toNat * h.toNat * 3 ∧ capacity w h ≤ 3 * (2 ^ 32 - 1) ^ 2 ∧
    (w = 0#32 ∨ h = 0#32 → capacity w h = 0)) ∧
  capacity 0xFFFFFFFF#32 0xFFFFFFFF#32 = 3 * (2 ^ 32 - 1) ^ 2 ∧
  2 ^ 65 ≤ 3 * (2 ^ 32 - 1) ^ 2 ∧ 3 * (2 ^ 32 - 1) ^ 2 < 2 ^ 66

/-- Rules R63 and R64: scan position k is RASTER byte k: chan and (k / 3 mod W, k / 3 div W, k mod 3) are inverse, and
the raster fills exactly bytes 0 to capacity - 1. -/
def Obligations.ScanPositionIsRasterByte : Prop :=
  ∀ (w h : Word),
    (∀ x y c, x < w.toNat → y < h.toNat → c < 3 →
      chan w x y c = 3 * (y * w.toNat + x) + c ∧ chan w x y c < capacity w h ∧
      chan w x y c / 3 % w.toNat = x ∧ chan w x y c / 3 / w.toNat = y ∧ chan w x y c % 3 = c) ∧
    (∀ k, k < capacity w h →
      k / 3 % w.toNat < w.toNat ∧ k / 3 / w.toNat < h.toNat ∧
      chan w (k / 3 % w.toNat) (k / 3 / w.toNat) (k % 3) = k)

/-- Rule R11: lsb_sub replaces bit 0 and keeps bits 7:1. -/
def Obligations.LsbSubReplacesBitZero : Prop :=
  ∀ (v : Byte) (b : Bool) (n : Nat),
    (lsbSub v b).getLsbD n = if n = 0 then b else v.getLsbD n

/-- Rule R134: the transitions of the extract state machine. The length phase ends exactly when the 32nd bit is
appended, at once in DONE when L = 0; the payload phase ends exactly at the required bit; a scan that ends first is
UNDERFLOW of the phase it ends in; a DONE scan reads nothing more. -/
def Obligations.ExtractStateMachine : Prop :=
  (∀ (acc : List Bool) (b : Bool),
    (acc.length + 1 ≠ 32 → scanVisit ⟨.scanningLength, acc⟩ b = ⟨.scanningLength, acc ++ [b]⟩) ∧
    (acc.length + 1 = 32 →
      (be32 (acc ++ [b]) 0 = 0 → scanVisit ⟨.scanningLength, acc⟩ b = ⟨.done 32, acc ++ [b]⟩) ∧
      (be32 (acc ++ [b]) 0 ≠ 0 → scanVisit ⟨.scanningLength, acc⟩ b =
        ⟨.scanningPayload (32 + 8 * be32 (acc ++ [b]) 0), acc ++ [b]⟩)) ∧
    ∀ r, scanVisit ⟨.scanningPayload r, acc⟩ b =
      if acc.length + 1 = r then ⟨.done r, acc ++ [b]⟩ else ⟨.scanningPayload r, acc ++ [b]⟩) ∧
  (∀ (m : Memory) (k : Nat) (acc : List Bool),
    scanFrom m k ⟨.scanningLength, acc⟩ 0 = .error (.raise (.underflow false)) ∧
    (∀ r, scanFrom m k ⟨.scanningPayload r, acc⟩ 0 = .error (.raise (.underflow true))) ∧
    ∀ r n, scanFrom m k ⟨.done r, acc⟩ n = .ok acc)

/-- Rules R68 and R71 and PAYLOAD_HOST_ORDER of rule R7: byte lane k of a PAYLOAD word (lane 0 at the lowest address) is
its bits 8 k + 7 to 8 k in little-endian order and the other way round in big-endian order; and four lanes written one
by one, over any memory, give the cell the word they spell and change no other byte (the lanes are the model's reading
of a byte-addressing host, log entries 5 and 15). -/
def Obligations.PayloadByteLanes : Prop :=
  ∀ (m : Memory) (i : Nat) (f : Fin 4 → Byte),
    (∀ w, Memory.readWord m i = some w → ∀ lane : Fin 4,
      Memory.read m (laneIndex .little i lane) = some (w.extractLsb' (8 * lane.val) 8) ∧
      Memory.read m (laneIndex .big i lane) = some (w.extractLsb' (24 - 8 * lane.val) 8)) ∧
    ∀ (o : HostOrder) (m' : Memory),
      m' = Memory.write (Memory.write (Memory.write (Memory.write m (laneIndex o i 0) (f 0)) (laneIndex o i 1) (f 1))
        (laneIndex o i 2) (f 2)) (laneIndex o i 3) (f 3) →
      Memory.readWord m' i = some (match o with
        | .little => f 3 ++ f 2 ++ f 1 ++ f 0
        | .big => f 0 ++ f 1 ++ f 2 ++ f 3) ∧
      ∀ a, a < 4 * i ∨ 4 * i + 4 ≤ a → Memory.read m' a = Memory.read m a

/-! ## Interrupt -/

/-- Rule R195: irq = IRQ_EN ∧ (DONE ∨ ERR); every completion and every ILLEGAL launch asserts it when enabled, a legal
launch and a full write-1-to-clear withdraw it, and OVR does not take part. -/
def Obligations.IrqLevel : Prop :=
  ∀ s : State,
    (irq s = true ↔ s.irqEn = true ∧ (s.done = true ∨ s.err = true)) ∧
    (∀ i t, exec i s = .next t → irq t = s.irqEn) ∧
    (∀ v, s.busy = false → legal v = false → irq (regWrite 0x00#6 v s) = s.irqEn) ∧
    (∀ v, s.busy = false → legal v = true → irq (regWrite 0x00#6 v s) = false) ∧
    irq (regWrite 0x04#6 0x00000006#32 s) = false ∧
    irq { s with ovr := true } = irq s

/-! ## Reset -/

/-- Rule R210: reset, in any state, gives every register its value of rule R41, and leaves the engine with no step. -/
def Obligations.ResetClearsRegisters : Prop :=
  ∀ s : State,
    resetMachine s =
      { s with
        busy := false, done := false, err := false, ovr := false, errCode := 0#4, irqEn := false
        width := 0#32, height := 0#32, payLen := 0#32, bitLen := 0#64, errInfo := 0#32, curOp := 0#4
        raster := (resetMachine s).raster, bitbuf := (resetMachine s).bitbuf
        payload := (resetMachine s).payload } ∧
    irq (resetMachine s) = false ∧ (∀ off, regRead off (resetMachine s) = 0#32) ∧
    engineTurn (resetMachine s) = .next (resetMachine s)

/-- Rule R212: a reset while BUSY = 0 changes no memory cell. -/
def Obligations.IdleResetKeepsMemories : Prop :=
  ∀ s : State, s.busy = false → (resetMachine s).raster = s.raster ∧
    (resetMachine s).bitbuf = s.bitbuf ∧ (resetMachine s).payload = s.payload

/-- Rule R213: a reset while BUSY = 1 leaves the abandoned command's write set without a value and every other cell as
before, whether the command's result would be defined or not. For EMBED and ENCODE_EMBED that set is the extent the rule
writes, whatever the outcome would be. For the others it lies in the memory that rule R72 lets the command write: when
the command would complete, the cells it would write, none if it would fail (log entry 8); when its result is not
defined, exactly the cells that it could write with some contents of the undefined cells (log entry 9). -/
def Obligations.BusyResetForgetsTheWriteSet : Prop :=
  ∀ (s : State) (i : Instr), s.busy = true → decodeOp s.curOp = some i →
    (∀ a, Memory.read (resetMachine s).raster a =
      if a < (match i with
              | .embed => s.bitLen.toNat
              | .encodeEmbed => 32 + 8 * s.payLen.toNat
              | _ => 0) then none
      else Memory.read s.raster a) ∧
    (∀ (t : State) (nb np : Nat), exec i s = .next t →
      nb = (if t.done then
              match i with
              | .encode | .extract => t.bitLen.toNat / 8
              | _ => 0
            else 0) →
      np = (if t.done then
              match i with
              | .decode | .extractDecode => t.payLen.toNat
              | _ => 0
            else 0) →
      ∀ a,
        Memory.read (resetMachine s).bitbuf a = (if a < nb then none else Memory.read s.bitbuf a) ∧
        Memory.read (resetMachine s).payload a = (if a < 4 * np then none else Memory.read s.payload a)) ∧
    (∀ s' t : State, Extends s s' → exec i s' = .next t → t.done = true → ∀ a,
      (i = .encode ∨ i = .extract → a < t.bitLen.toNat / 8 → Memory.read (resetMachine s).bitbuf a = none) ∧
      (i = .decode ∨ i = .extractDecode → a < 4 * t.payLen.toNat →
        Memory.read (resetMachine s).payload a = none)) ∧
    (i ≠ .encode → i ≠ .extract → (resetMachine s).bitbuf = s.bitbuf) ∧
    (i ≠ .decode → i ≠ .extractDecode → (resetMachine s).payload = s.payload) ∧
    (∀ a,
      ((∀ s' t : State, Extends s s' → exec i s' = .next t → t.done = true → t.bitLen.toNat / 8 ≤ a) →
        Memory.read (resetMachine s).bitbuf a = Memory.read s.bitbuf a) ∧
      ((∀ s' t : State, Extends s s' → exec i s' = .next t → t.done = true → 4 * t.payLen.toNat ≤ a) →
        Memory.read (resetMachine s).payload a = Memory.read s.payload a))

/-- Rules R41 and R214: after power-on every register reads 0 and no memory cell holds a value, for any parameters. -/
def Obligations.PowerOnState : Prop :=
  ∀ (c : Config), (∀ off, regRead off (State.powerOn c) = 0#32) ∧ (State.powerOn c).curOp = 0#4 ∧
    irq (State.powerOn c) = false ∧
    ∀ a, Memory.read (State.powerOn c).raster a = none ∧ Memory.read (State.powerOn c).bitbuf a = none ∧
      Memory.read (State.powerOn c).payload a = none

/-! ## Invariants and whole-machine rules -/

/-- Rule R28 (a) to (c), and BUSY = 1 only with a latched command: kept by every step of every agent. -/
def Obligations.StepKeepsStatusInvariant : Prop :=
  ∀ s s' : State, StatusInv s → step s = .next s' → StatusInv s'

/-- Every memory stays in canonical form and inside its space, under every step. -/
def Obligations.StepKeepsMemoryInvariant : Prop :=
  ∀ s s' : State, MemoryInv s → step s = .next s' → MemoryInv s'

/-- The power-on state meets both invariants, for any parameters. -/
def Obligations.PowerOnMeetsInvariants : Prop := ∀ c : Config, Inv (State.powerOn c)

/-- Rule R28 (d): a step that leaves a new non-zero ERRCODE is a launch or a completion that sets ERR with it. -/
def Obligations.NewErrCodeComesWithErr : Prop :=
  ∀ s t : State, step s = .next t → t.errCode ≠ 0#4 → t.errCode = s.errCode ∨ t.err = true

/-- Rules R24, R35, R38 and R74: while a command is in flight (BUSY = 1 before and after a step), no operand register,
no memory cell and not the latched opcode changes. -/
def Obligations.OperandsStableWhileBusy : Prop :=
  ∀ s t : State, step s = .next t → s.busy = true → t.busy = true →
    t.width = s.width ∧ t.height = s.height ∧ t.payLen = s.payLen ∧ t.bitLen = s.bitLen ∧
    t.curOp = s.curOp ∧ t.raster = s.raster ∧ t.bitbuf = s.bitbuf ∧ t.payload = s.payload ∧ t.cfg = s.cfg

/-- Rules R25, R26 and R38: only a legal launch sets BUSY: the host's next operation was a write of a legal word at CMD
(offset 0x00), at the register port or at its platform address, on the host's turn or with no turn left, and the state
after the step is the launched one with that operation and that turn taken. -/
def Obligations.OnlyLegalLaunchSetsBusy : Prop :=
  ∀ s t : State, step s = .next t → s.busy = false → t.busy = true →
    ∃ (v : Word) (op : HostOp) (ops : List HostOp) (rest : List Agent),
      legal v = true ∧ s.host = op :: ops ∧
      (op = .write (.reg .w32 0x00#6) v ∨
        ∃ addr, op = .busWrite .w32 addr v ∧ busResolve s.cfg .w32 addr = some (.reg .w32 0x00#6)) ∧
      (s.turns = .host :: rest ∨ (s.turns = [] ∧ rest = [])) ∧
      t = afterLaunch v { s with host := ops, turns := rest }

/-! ## The step -/

/-- Rules R5 and R38: the engine's turn at a busy state is exec of the latched command; an idle engine has no step; a
reset turn is the reset; and the schedule's turn is all that step adds. -/
def Obligations.StepRunsTheLatchedCommand : Prop :=
  ∀ (s : State) (rest : List Agent), configAdmitted s.cfg = true →
    (∀ i, s.busy = true → decodeOp s.curOp = some i → s.turns = .engine :: rest →
      step s = exec i { s with turns := rest }) ∧
    (∀ i, s.busy = true → decodeOp s.curOp = some i → s.turns = [] → step s = exec i s) ∧
    (s.busy = false → s.turns = .engine :: rest → step s = .next { s with turns := rest }) ∧
    (s.turns = .reset :: rest → step s = .next (resetMachine { s with turns := rest })) ∧
    (∀ op ops, s.turns = .host :: rest → s.host = op :: ops →
      step s = hostOp op { s with turns := rest, host := ops })

/-- Rules R25, R90 and R96: a host's CMD write of an instruction's word, then the engine's turn, runs that instruction,
in two steps. -/
def Obligations.CmdWriteThenCompletion : Prop :=
  ∀ (i : Instr) (s u : State) (ops : List HostOp) (rest : List Agent), configAdmitted s.cfg = true →
    s.busy = false → s.host = hostCmd i :: ops → s.turns = .host :: .engine :: rest →
    u = { afterLaunch (encode i) s with host := ops, turns := rest } →
    ∃ t, step s = .next t ∧ step t = exec i u

/-- A delivered command word is the very next step's command (log entry 12). -/
def Obligations.FetchWordRunsNext : Prop :=
  ∀ (i : Instr) (s : State), configAdmitted s.cfg = true →
    decodeTableWord 32 (encode i).toNat = some i ∧
    step (s.withFetchWord 32 (encode i).toNat) = exec i (afterLaunch (encode i) s)

/-- Rule R62: a configuration with BITBUF_BYTES < 4 + PAY_DEPTH is refused. -/
def Obligations.SmallBitbufConfigurationRefused : Prop :=
  ∀ s : State, s.cfg.bitbufBytes < 4 + s.cfg.payDepth → step s = .refused .configurationNotAdmitted

/-- Rule R74: a host or Image Store access to a memory while BUSY = 1 is refused; register reads and writes are still
admitted. -/
def Obligations.MemoryAccessWhileBusyRefused : Prop :=
  ∀ (s : State) (v : Word) (n : Nat) (lane : Fin 4), s.busy = true →
    portWrite (.raster n) v s = .refused (.memoryAccessWhileBusy .raster) ∧
    portRead (.raster n) s = .refused (.memoryAccessWhileBusy .raster) ∧
    portWrite (.bitbuf n) v s = .refused (.memoryAccessWhileBusy .bitbuf) ∧
    portRead (.bitbuf n) s = .refused (.memoryAccessWhileBusy .bitbuf) ∧
    portWrite (.payload n) v s = .refused (.memoryAccessWhileBusy .payload) ∧
    portRead (.payload n) s = .refused (.memoryAccessWhileBusy .payload) ∧
    portWrite (.payloadByte n lane) v s = .refused (.memoryAccessWhileBusy .payload) ∧
    portRead (.payloadByte n lane) s = .refused (.memoryAccessWhileBusy .payload) ∧
    ∀ off : BitVec 6, off.toNat % 4 = 0 →
      portRead (.reg .w32 off) s = .next { s with replies := regRead off s :: s.replies } ∧
      portWrite (.reg .w32 off) v s = .next (regWrite off v s)

/-- Rules R61, R70 and R71: while BUSY = 0, a host write to a cell of a space, or to one byte lane of a PAYLOAD word,
stores its value there, whether or not anything was written there before, and changes nothing else; a host read returns
the value and changes nothing. That a host read of a cell, or of a byte lane, without a value faults is the model's
reading of U1 (log entry 16); the lanes are log entries 5 and 15. -/
def Obligations.HostMemoryAccess : Prop :=
  ∀ (s : State) (v : Word) (n : Nat), s.busy = false →
    (n < s.cfg.rasterBytes →
      (∃ t, portWrite (.raster n) v s = .next t ∧ t = { s with raster := t.raster } ∧
        ∀ a, Memory.read t.raster a = if a = n then some (v.setWidth 8) else Memory.read s.raster a) ∧
      (∀ w, Memory.read s.raster n = some w →
        portRead (.raster n) s = .next { s with replies := w.setWidth 32 :: s.replies }) ∧
      (Memory.read s.raster n = none → portRead (.raster n) s = .fault (.unwrittenCell .raster n))) ∧
    (n < s.cfg.bitbufBytes →
      (∃ t, portWrite (.bitbuf n) v s = .next t ∧ t = { s with bitbuf := t.bitbuf } ∧
        ∀ a, Memory.read t.bitbuf a = if a = n then some (v.setWidth 8) else Memory.read s.bitbuf a) ∧
      (∀ w, Memory.read s.bitbuf n = some w →
        portRead (.bitbuf n) s = .next { s with replies := w.setWidth 32 :: s.replies }) ∧
      (Memory.read s.bitbuf n = none → portRead (.bitbuf n) s = .fault (.unwrittenCell .bitbuf n))) ∧
    (n < s.cfg.payDepth →
      (∃ t, portWrite (.payload n) v s = .next t ∧ t = { s with payload := t.payload } ∧
        Memory.readWord t.payload n = some v ∧
        ∀ a, a < 4 * n ∨ 4 * n + 4 ≤ a → Memory.read t.payload a = Memory.read s.payload a) ∧
      (∀ w, Memory.readWord s.payload n = some w →
        portRead (.payload n) s = .next { s with replies := w :: s.replies }) ∧
      (Memory.readWord s.payload n = none → portRead (.payload n) s = .fault (.unwrittenCell .payload n)) ∧
      ∀ (lane : Fin 4) (k : Nat), k = laneIndex s.cfg.payloadHostOrder n lane →
        (∃ t, portWrite (.payloadByte n lane) v s = .next t ∧ t = { s with payload := t.payload } ∧
          ∀ a, Memory.read t.payload a = if a = k then some (v.setWidth 8) else Memory.read s.payload a) ∧
        (∀ w, Memory.read s.payload k = some w →
          portRead (.payloadByte n lane) s = .next { s with replies := w.setWidth 32 :: s.replies }) ∧
        (Memory.read s.payload k = none →
          portRead (.payloadByte n lane) s = .fault (.unwrittenCell .payload n)))

/-- Rules R96, R97 and R222: a WAIT poll while BUSY = 1 reads STATUS, changes nothing else, and leaves the WAIT the
host's next operation; and with no turn left in the schedule, a busy machine whose operands are written leaves BUSY in
one step, and the WAIT then ends at its next poll (the schedule is the model's, log entry 1). -/
def Obligations.WaitPollsUntilCompletion : Prop :=
  ∀ (s : State) (ops : List HostOp), configAdmitted s.cfg = true → s.busy = true → s.host = .wait :: ops →
    (∀ rest, s.turns = .host :: rest →
      step s = .next { s with turns := rest, replies := regRead 0x04#6 s :: s.replies }) ∧
    (∀ i, s.turns = [] → decodeOp s.curOp = some i → OperandsWritten i s →
      ∃ t u, step s = .next t ∧ t.busy = false ∧ step t = .next u ∧ u.host = ops ∧
        u.replies = statusWord t :: s.replies ∧ u.done = t.done ∧ u.err = t.err)
end

