-- ==== Sys2Proof/Laws/Memory.lean ====
section
/-! SUPPORT. The laws of the memory operations: what one read sees after a write, a run of writes or an erasure, and
that every operation keeps the canonical form and the bound of the space. -/

namespace Sys2Proof.Machine

@[simp] theorem Memory.read_nil (a : Nat) : Memory.read ([] : Memory) a = none := rfl

theorem Memory.read_cons (b : Nat) (w : Byte) (m : Memory) (a : Nat) :
    Memory.read ((b, w) :: m) a = if b = a then some w else Memory.read m a := rfl

/-- The one memory law: a read after a write. -/
theorem Memory.read_write (m : Memory) (a : Nat) (v : Byte) (a' : Nat) :
    Memory.read (Memory.write m a v) a' = if a = a' then some v else Memory.read m a' := by
  induction m with
  | nil => rfl
  | cons cell rest ih =>
    obtain ⟨b, w⟩ := cell
    simp only [Memory.write]
    split
    · simp only [Memory.read_cons]
    · split
      · subst_vars; simp only [Memory.read_cons]; split <;> rfl
      · simp only [Memory.read_cons, ih]
        split <;> split <;> first | rfl | omega

/-- A read after a run of writes. -/
theorem Memory.read_writeRun (vs : List Byte) (m : Memory) (start a : Nat) :
    Memory.read (Memory.writeRun m start vs) a =
      if h : start ≤ a ∧ a - start < vs.length then some (vs[a - start]'h.2) else Memory.read m a := by
  induction vs generalizing m start with
  | nil => simp [Memory.writeRun]
  | cons v vs ih =>
    simp only [Memory.writeRun, ih, Memory.read_write]
    by_cases h1 : start + 1 ≤ a
    · by_cases h2 : a - (start + 1) < vs.length
      · have h3 : start ≤ a ∧ a - start < (v :: vs).length := by simp; omega
        rw [dif_pos ⟨h1, h2⟩, dif_pos h3]
        have h4 : a - start = (a - (start + 1)) + 1 := by omega
        simp [h4]
      · have h3 : ¬ (start ≤ a ∧ a - start < (v :: vs).length) := by simp; omega
        rw [dif_neg (by omega), dif_neg h3, if_neg (by omega)]
    · by_cases h2 : start = a
      · subst h2; simp
      · rw [dif_neg (by omega), dif_neg (by omega), if_neg h2]

/-- A read after a run of writes from index 0: the form every commit has. -/
theorem Memory.read_writeRun_zero (vs : List Byte) (m : Memory) (a : Nat) :
    Memory.read (Memory.writeRun m 0 vs) a =
      if h : a < vs.length then some (vs[a]'h) else Memory.read m a := by
  simp [Memory.read_writeRun]

@[simp] theorem Memory.writeRun_nil (m : Memory) (start : Nat) : Memory.writeRun m start [] = m := rfl

/-- A read after an erasure. -/
theorem Memory.read_eraseBelow (m : Memory) (n a : Nat) :
    Memory.read (Memory.eraseBelow m n) a = if a < n then none else Memory.read m a := by
  induction m with
  | nil => simp [Memory.eraseBelow]
  | cons cell rest ih =>
    obtain ⟨b, w⟩ := cell
    have ih' : Memory.read (List.filter (fun cell => decide (n ≤ cell.1)) rest) a =
        if a < n then none else Memory.read rest a := ih
    by_cases hb : n ≤ b
    · simp only [Memory.eraseBelow, List.filter, hb, decide_true, Memory.read_cons, ih']
      split <;> split <;> first | rfl | omega
    · simp only [Memory.eraseBelow, List.filter, hb, decide_false, Memory.read_cons, ih']
      by_cases h : a < n
      · simp [h]
      · simp only [h, if_false]; rw [if_neg (by omega)]

@[simp] theorem Memory.eraseBelow_zero (m : Memory) : Memory.eraseBelow m 0 = m := by
  simp [Memory.eraseBelow]

/-! ## PAYLOAD words -/

/-- A word is its four bytes. -/
theorem word_of_bytes (v : Word) :
    v.extractLsb' 24 8 ++ v.extractLsb' 16 8 ++ v.extractLsb' 8 8 ++ v.extractLsb' 0 8 = v := by
  apply BitVec.eq_of_getLsbD_eq
  intro k hk
  simp only [BitVec.getLsbD_append, BitVec.getLsbD_extractLsb']
  split
  · simp [*]
  · split
    · rw [show 8 + (k - 8) = k by omega]; simp [*]
    · split
      · rw [show 16 + (k - 8 - 8) = k by omega]; simp [*]
      · rw [show 24 + (k - 8 - 8 - 8) = k by omega]
        simp; intro _; omega

/-- The bytes of a word put together. -/
theorem bytes_of_word (b3 b2 b1 b0 : Byte) :
    ((b3 ++ b2 ++ b1 ++ b0 : Word).extractLsb' 0 8 = b0 ∧ (b3 ++ b2 ++ b1 ++ b0 : Word).extractLsb' 8 8 = b1) ∧
    (b3 ++ b2 ++ b1 ++ b0 : Word).extractLsb' 16 8 = b2 ∧ (b3 ++ b2 ++ b1 ++ b0 : Word).extractLsb' 24 8 = b3 := by
  refine ⟨⟨?_, ?_⟩, ?_, ?_⟩ <;>
  · apply BitVec.eq_of_getLsbD_eq
    intro k hk
    have h0 : k < 8 := hk
    simp only [BitVec.getLsbD_extractLsb', BitVec.getLsbD_append, h0, decide_true, Bool.true_and]
    (repeat' split) <;> first | omega | (congr 1; omega)

/-- A cell holds a word exactly when its four bytes hold the word's. -/
theorem Memory.readWord_eq_some (m : Memory) (i : Nat) (w : Word) :
    Memory.readWord m i = some w ↔
      Memory.read m (4 * i) = some (w.extractLsb' 0 8) ∧ Memory.read m (4 * i + 1) = some (w.extractLsb' 8 8) ∧
      Memory.read m (4 * i + 2) = some (w.extractLsb' 16 8) ∧
      Memory.read m (4 * i + 3) = some (w.extractLsb' 24 8) := by
  unfold Memory.readWord
  constructor
  · intro h
    split at h
    · rename_i b0 b1 b2 b3 h0 h1 h2 h3
      injection h with h
      obtain ⟨⟨e0, e1⟩, e2, e3⟩ := bytes_of_word b3 b2 b1 b0
      rw [h0, h1, h2, h3, ← h, e0, e1, e2, e3]
      exact ⟨rfl, rfl, rfl, rfl⟩
    · cases h
  · rintro ⟨h0, h1, h2, h3⟩
    rw [h0, h1, h2, h3]
    simp only [word_of_bytes]

/-- A cell without a word has a byte without a value. -/
theorem Memory.readWord_eq_none {m : Memory} {i : Nat} (h : Memory.readWord m i = none) :
    ∃ j, j < 4 ∧ Memory.read m (4 * i + j) = none := by
  by_contra hn
  push Not at hn
  obtain ⟨b0, h0⟩ := Option.ne_none_iff_exists'.1 (hn 0 (by omega))
  obtain ⟨b1, h1⟩ := Option.ne_none_iff_exists'.1 (hn 1 (by omega))
  obtain ⟨b2, h2⟩ := Option.ne_none_iff_exists'.1 (hn 2 (by omega))
  obtain ⟨b3, h3⟩ := Option.ne_none_iff_exists'.1 (hn 3 (by omega))
  simp only [Nat.add_zero] at h0
  simp [Memory.readWord, h0, h1, h2, h3] at h

/-- A word read depends on the four bytes of its cell alone. -/
theorem Memory.readWord_congr {m m' : Memory} {i : Nat}
    (h : ∀ j, j < 4 → Memory.read m (4 * i + j) = Memory.read m' (4 * i + j)) :
    Memory.readWord m i = Memory.readWord m' i := by
  have h0 := h 0 (by omega)
  simp only [Nat.add_zero] at h0
  simp only [Memory.readWord, h0, h 1 (by omega), h 2 (by omega), h 3 (by omega)]

@[simp] theorem wordBytes_length (v : Word) : (wordBytes v).length = 4 := rfl

@[simp] theorem flatMap_wordBytes_length (vs : List Word) : (vs.flatMap wordBytes).length = 4 * vs.length := by
  induction vs with
  | nil => rfl
  | cons v vs ih => rw [List.flatMap_cons, List.length_append, ih, wordBytes_length, List.length_cons]; omega

/-- Byte 4 i + j of a run of words is byte j of word i. -/
theorem flatMap_wordBytes_getElem? (vs : List Word) (i j : Nat) (hi : i < vs.length) (hj : j < 4) :
    (vs.flatMap wordBytes)[4 * i + j]? = some ((vs[i]'hi).extractLsb' (8 * j) 8) := by
  induction vs generalizing i with
  | nil => simp at hi
  | cons v vs ih =>
    rw [List.flatMap_cons]
    cases i with
    | zero =>
      rw [List.getElem?_append_left (by simpa using hj)]
      rcases j with _ | _ | _ | _ | j
      · rfl
      · rfl
      · rfl
      · rfl
      · omega
    | succ i =>
      rw [List.getElem?_append_right (by simp; omega), wordBytes_length,
        show 4 * (i + 1) + j - 4 = 4 * i + j by omega, ih i (by simpa using hi)]
      rfl

/-- A byte read after a run of words from cell 0: bytes past the run are as before. -/
theorem Memory.read_writeWords_ge (vs : List Word) (m : Memory) (a : Nat) (h : 4 * vs.length ≤ a) :
    Memory.read (Memory.writeWords m 0 vs) a = Memory.read m a := by
  rw [Memory.writeWords, Nat.mul_zero, Memory.read_writeRun_zero, dif_neg (by simp; omega)]

/-- Bytes inside the run do not depend on the memory it is stored in. -/
theorem Memory.read_writeWords_lt (vs : List Word) (m m' : Memory) (a : Nat) (h : a < 4 * vs.length) :
    Memory.read (Memory.writeWords m 0 vs) a = Memory.read (Memory.writeWords m' 0 vs) a := by
  have hl : a < (vs.flatMap wordBytes).length := by rw [flatMap_wordBytes_length]; exact h
  simp only [Memory.writeWords, Nat.mul_zero, Memory.read_writeRun_zero, dif_pos hl]

@[simp] theorem Memory.writeWords_nil (m : Memory) (start : Nat) : Memory.writeWords m start [] = m := rfl

/-- A word read after a run of words from cell 0: the form every commit to PAYLOAD has. -/
theorem Memory.readWord_writeWords (vs : List Word) (m : Memory) (i : Nat) :
    Memory.readWord (Memory.writeWords m 0 vs) i =
      if h : i < vs.length then some (vs[i]'h) else Memory.readWord m i := by
  by_cases hi : i < vs.length
  · rw [dif_pos hi, Memory.readWord_eq_some]
    have h : ∀ j, j < 4 → Memory.read (Memory.writeWords m 0 vs) (4 * i + j) =
        some ((vs[i]'hi).extractLsb' (8 * j) 8) := by
      intro j hj
      have hl : 4 * i + j < (vs.flatMap wordBytes).length := by simp; omega
      rw [Memory.writeWords, Nat.mul_zero, Memory.read_writeRun_zero, dif_pos hl]
      exact (List.getElem?_eq_getElem hl).symm.trans (flatMap_wordBytes_getElem? vs i j hi hj)
    exact ⟨h 0 (by omega), h 1 (by omega), h 2 (by omega), h 3 (by omega)⟩
  · rw [dif_neg hi]
    exact Memory.readWord_congr fun j hj => Memory.read_writeWords_ge vs m _ (by omega)

/-- A byte read after one word is written. -/
theorem Memory.read_writeWord (m : Memory) (i : Nat) (v : Word) (a : Nat) :
    Memory.read (Memory.writeWord m i v) a =
      if 4 * i ≤ a ∧ a < 4 * i + 4 then some (v.extractLsb' (8 * (a - 4 * i)) 8) else Memory.read m a := by
  rw [Memory.writeWord, Memory.read_writeRun]
  by_cases h : 4 * i ≤ a ∧ a < 4 * i + 4
  · have h' : 4 * i ≤ a ∧ a - 4 * i < (wordBytes v).length := by simp; omega
    rw [dif_pos h', if_pos h]
    obtain ⟨j, rfl⟩ : ∃ j, a = 4 * i + j := ⟨a - 4 * i, by omega⟩
    have hj : j < 4 := by omega
    simp only [Nat.add_sub_cancel_left]
    rcases j with _ | _ | _ | _ | j
    · rfl
    · rfl
    · rfl
    · rfl
    · omega
  · rw [dif_neg (by simp; omega), if_neg h]

/-- A word read after one word is written. -/
theorem Memory.readWord_writeWord (m : Memory) (i : Nat) (v : Word) (i' : Nat) :
    Memory.readWord (Memory.writeWord m i v) i' = if i = i' then some v else Memory.readWord m i' := by
  by_cases h : i = i'
  · subst h
    rw [if_pos rfl, Memory.readWord_eq_some]
    have hr : ∀ j, j < 4 → Memory.read (Memory.writeWord m i v) (4 * i + j) = some (v.extractLsb' (8 * j) 8) := by
      intro j hj
      rw [Memory.read_writeWord, if_pos (by omega), Nat.add_sub_cancel_left]
    exact ⟨hr 0 (by omega), hr 1 (by omega), hr 2 (by omega), hr 3 (by omega)⟩
  · rw [if_neg h]
    exact Memory.readWord_congr fun j hj => by rw [Memory.read_writeWord, if_neg (by omega)]

/-! ## The canonical form -/

theorem Memory.wf_cons_iff (a : Nat) (v : Byte) (m : Memory) :
    Memory.wf ((a, v) :: m) = true ↔ (∀ cell ∈ m, a < cell.1) ∧ Memory.wf m = true := by
  induction m generalizing a v with
  | nil => simp [Memory.wf]
  | cons cell rest ih =>
    obtain ⟨b, w⟩ := cell
    simp only [Memory.wf, Bool.and_eq_true, decide_eq_true_eq, List.mem_cons, forall_eq_or_imp]
    constructor
    · rintro ⟨hab, hwf⟩
      refine ⟨⟨hab, fun cell hc => ?_⟩, hwf⟩
      exact lt_trans hab (((ih b w).1 hwf).1 cell hc)
    · rintro ⟨⟨hab, -⟩, hwf⟩
      exact ⟨hab, hwf⟩

theorem Memory.mem_write {m : Memory} {a : Nat} {v : Byte} {cell : Host.Cell}
    (h : cell ∈ Memory.write m a v) : cell = (a, v) ∨ cell ∈ m := by
  induction m with
  | nil => simpa [Memory.write] using h
  | cons head rest ih =>
    obtain ⟨b, w⟩ := head
    simp only [Memory.write] at h
    split at h
    · simpa using h
    · split at h
      · rcases List.mem_cons.1 h with h | h
        · exact .inl h
        · exact .inr (List.mem_cons_of_mem _ h)
      · rcases List.mem_cons.1 h with h | h
        · exact .inr (h ▸ List.mem_cons_self)
        · exact (ih h).imp_right (List.mem_cons_of_mem _)

/-- A write keeps the canonical form. -/
theorem Memory.wf_write {m : Memory} (a : Nat) (v : Byte) (h : Memory.wf m = true) :
    Memory.wf (Memory.write m a v) = true := by
  induction m with
  | nil => rfl
  | cons head rest ih =>
    obtain ⟨b, w⟩ := head
    have hb := (Memory.wf_cons_iff b w rest).1 h
    simp only [Memory.write]
    split
    · rename_i hab
      refine (Memory.wf_cons_iff a v _).2 ⟨fun cell hc => ?_, h⟩
      rcases List.mem_cons.1 hc with hc | hc
      · simpa [hc] using hab
      · exact lt_trans hab (hb.1 cell hc)
    · split
      · rename_i hab
        subst hab
        exact (Memory.wf_cons_iff a v _).2 hb
      · refine (Memory.wf_cons_iff b w _).2 ⟨fun cell hc => ?_, ih hb.2⟩
        rcases Memory.mem_write hc with hc | hc
        · subst hc; simp only; omega
        · exact hb.1 cell hc

/-- A run of writes keeps the canonical form. -/
theorem Memory.wf_writeRun (vs : List Byte) {m : Memory} (start : Nat) (h : Memory.wf m = true) :
    Memory.wf (Memory.writeRun m start vs) = true := by
  induction vs generalizing m start with
  | nil => exact h
  | cons v vs ih => exact ih (start + 1) (Memory.wf_write start v h)

/-- An erasure keeps the canonical form. -/
theorem Memory.wf_eraseBelow {m : Memory} (n : Nat) (h : Memory.wf m = true) :
    Memory.wf (Memory.eraseBelow m n) = true := by
  induction m with
  | nil => rfl
  | cons head rest ih =>
    obtain ⟨b, w⟩ := head
    have hb := (Memory.wf_cons_iff b w rest).1 h
    have ih' := ih hb.2
    simp only [Memory.eraseBelow, List.filter] at ih' ⊢
    split
    · exact (Memory.wf_cons_iff b w _).2 ⟨fun cell hc => hb.1 cell (List.mem_of_mem_filter hc), ih'⟩
    · exact ih'

/-- A word write keeps the canonical form. -/
theorem Memory.wf_writeWord {m : Memory} (i : Nat) (v : Word) (h : Memory.wf m = true) :
    Memory.wf (Memory.writeWord m i v) = true := Memory.wf_writeRun _ _ h

/-- A run of word writes keeps the canonical form. -/
theorem Memory.wf_writeWords (vs : List Word) {m : Memory} (start : Nat) (h : Memory.wf m = true) :
    Memory.wf (Memory.writeWords m start vs) = true := Memory.wf_writeRun _ _ h

/-! ## The bound of the space -/

theorem Memory.below_iff (n : Nat) (m : Memory) :
    Memory.below n m = true ↔ ∀ cell ∈ m, cell.1 < n := by
  simp [Memory.below]

/-- A write inside the space keeps the bound. -/
theorem Memory.below_write {n : Nat} {m : Memory} {a : Nat} (v : Byte) (ha : a < n)
    (h : Memory.below n m = true) : Memory.below n (Memory.write m a v) = true := by
  rw [Memory.below_iff] at h ⊢
  intro cell hc
  rcases Memory.mem_write hc with hc | hc
  · subst hc; exact ha
  · exact h cell hc

/-- A run of writes inside the space keeps the bound. -/
theorem Memory.below_writeRun {n : Nat} (vs : List Byte) {m : Memory} (start : Nat)
    (hv : vs = [] ∨ start + vs.length ≤ n) (h : Memory.below n m = true) :
    Memory.below n (Memory.writeRun m start vs) = true := by
  induction vs generalizing m start with
  | nil => exact h
  | cons v vs ih =>
    have hlen : start + (vs.length + 1) ≤ n := by simpa using hv
    exact ih (start + 1) (.inr (by omega)) (Memory.below_write v (by omega) h)

/-- A word write inside the space keeps the bound. -/
theorem Memory.below_writeWord {n : Nat} {m : Memory} {i : Nat} (v : Word) (hi : i < n)
    (h : Memory.below (4 * n) m = true) : Memory.below (4 * n) (Memory.writeWord m i v) = true :=
  Memory.below_writeRun _ _ (.inr (by simp; omega)) h

/-- A run of word writes from cell 0 inside the space keeps the bound. -/
theorem Memory.below_writeWords {n : Nat} (vs : List Word) {m : Memory} (hv : vs.length ≤ n)
    (h : Memory.below (4 * n) m = true) : Memory.below (4 * n) (Memory.writeWords m 0 vs) = true :=
  Memory.below_writeRun _ _ (.inr (by simp; omega)) h

/-- An erasure keeps the bound. -/
theorem Memory.below_eraseBelow {n : Nat} {m : Memory} (k : Nat) (h : Memory.below n m = true) :
    Memory.below n (Memory.eraseBelow m k) = true := by
  rw [Memory.below_iff] at h ⊢
  exact fun cell hc => h cell (List.mem_of_mem_filter hc)

/-- A cell outside the space reads as no value. -/
theorem Memory.read_of_below {n : Nat} {m : Memory} {a : Nat} (h : Memory.below n m = true) (ha : n ≤ a) :
    Memory.read m a = none := by
  rw [Memory.below_iff] at h
  induction m with
  | nil => rfl
  | cons head rest ih =>
    obtain ⟨b, w⟩ := head
    have hb : b < n := h (b, w) List.mem_cons_self
    rw [Memory.read_cons, if_neg (by omega)]
    exact ih fun cell hc => h cell (List.mem_cons_of_mem _ hc)

end Sys2Proof.Machine
end

