-- ==== Sys2Proof/Laws/Operands.lean ====
section
/-! SUPPORT. One spec lemma for each way a command reads its operands: code points, bits of BITBUF, channels of RASTER,
and the extract scan in closed form; and the values of big-endian bit sequences. -/

namespace Sys2Proof.Machine

/-! ## One cell -/

theorem readCell_of_read {sp : Space} {m : Memory} {a : Nat} {v : Byte}
    (h : Memory.read m a = some v) : readCell sp m a = .ok v := by simp [readCell, definedCell, h]

theorem readCell_of_none {sp : Space} {m : Memory} {a : Nat}
    (h : Memory.read m a = none) : readCell sp m a = .error (.fault (.unwrittenCell sp a)) := by
  simp [readCell, definedCell, h]

theorem readWordCell_of_read {m : Memory} {i : Nat} {v : Word}
    (h : Memory.readWord m i = some v) : readWordCell m i = .ok v := by simp [readWordCell, definedCell, h]

theorem readWordCell_of_none {m : Memory} {i : Nat}
    (h : Memory.readWord m i = none) : readWordCell m i = .error (.fault (.unwrittenCell .payload i)) := by
  simp [readWordCell, definedCell, h]

/-- A memory whose bytes 0 to n - 1 are written holds some contents there. -/
theorem Written.exists_holds {m : Memory} {n : Nat} (h : Written m n) : ∃ f, Holds m n f := by
  refine ⟨fun a => (Memory.read m a).getD default, fun a ha => ?_⟩
  obtain ⟨v, hv⟩ := Option.isSome_iff_exists.1 (h a ha)
  simp [hv]

theorem Holds.written {m : Memory} {n : Nat} {f : Nat → Byte} (h : Holds m n f) : Written m n :=
  fun a ha => by simp [h a ha]

theorem Holds.mono {m : Memory} {n k : Nat} {f : Nat → Byte} (h : Holds m n f) (hk : k ≤ n) :
    Holds m k f := fun a ha => h a (by omega)

theorem HoldsWords.mono {m : Memory} {n k : Nat} {f : Nat → Word} (h : HoldsWords m n f) (hk : k ≤ n) :
    HoldsWords m k f := fun a ha => h a (by omega)

/-! ## Big-endian values -/

@[simp] theorem beValue_nil : beValue [] = 0 := rfl

theorem beValue_append (xs : List Bool) (b : Bool) : beValue (xs ++ [b]) = 2 * beValue xs + b.toNat := by
  simp [beValue]

/-- The value of a big-endian sequence is the weighted sum of rule R11. -/
theorem beValue_range (f : Nat → Bool) (n : Nat) :
    beValue ((List.range n).map f) = ∑ j ∈ Finset.range n, (f j).toNat * 2 ^ (n - 1 - j) := by
  induction n with
  | zero => simp
  | succ n ih =>
    rw [List.range_succ, List.map_append, List.map_singleton, beValue_append, ih, Finset.sum_range_succ,
      Finset.mul_sum]
    congr 1
    · refine Finset.sum_congr rfl fun j hj => ?_
      have hj' : j < n := Finset.mem_range.1 hj
      have : n + 1 - 1 - j = (n - 1 - j) + 1 := by omega
      rw [this, pow_succ]; ring
    · simp

theorem beValue_lt (xs : List Bool) : beValue xs < 2 ^ xs.length := by
  induction xs using List.reverseRecOn with
  | nil => simp
  | append_singleton xs b ih =>
    rw [beValue_append, List.length_append, List.length_singleton, pow_succ]
    cases b <;> simp <;> omega

/-- The n bits at offset o of a sequence given by a function. -/
theorem beAt_range (f : Nat → Bool) (len o n : Nat) (h : o + n ≤ len) :
    beAt ((List.range len).map f) o n = beValue ((List.range n).map fun j => f (o + j)) := by
  unfold beAt
  congr 1
  apply List.ext_getElem
  · simp; omega
  · intro i h1 h2
    simp

theorem be32_lt (xs : List Bool) (o : Nat) : be32 xs o < 2 ^ 32 := by
  unfold be32 beAt
  exact lt_of_lt_of_le (beValue_lt _) (Nat.pow_le_pow_right (by norm_num) (by simp))

/-- A word is the value of its bits, most significant first. -/
theorem beValue_bits {w : Nat} (v : BitVec w) :
    beValue ((List.range w).map fun j => v.getLsbD (w - 1 - j)) = v.toNat := by
  have key : ∀ n, n ≤ w →
      beValue ((List.range n).map fun j => v.getLsbD (w - 1 - j)) = v.toNat / 2 ^ (w - n) := by
    intro n
    induction n with
    | zero => intro _; simp [Nat.div_eq_of_lt v.isLt]
    | succ n ih =>
      intro hn
      rw [List.range_succ, List.map_append, List.map_singleton, beValue_append, ih (by omega)]
      have h1 : w - 1 - n = w - (n + 1) := by omega
      have h2 : w - n = (w - (n + 1)) + 1 := by omega
      rw [h1, h2, pow_succ, ← Nat.div_div_eq_div_mul, BitVec.getLsbD, Nat.testBit_eq_decide_div_mod_eq]
      have := Nat.div_add_mod (v.toNat / 2 ^ (w - (n + 1))) 2
      rcases Nat.mod_two_eq_zero_or_one (v.toNat / 2 ^ (w - (n + 1))) with h | h <;> simp [h] <;> omega
  simpa using key w le_rfl

/-- be8 of a sequence given by a function. -/
theorem be8_range (f : Nat → Bool) (len o : Nat) (h : o + 8 ≤ len) :
    be8 ((List.range len).map f) o = BitVec.ofNat 8 (beValue ((List.range 8).map fun m => f (o + m))) := by
  rw [be8, beAt_range f len o 8 h]

/-- Eight bits that are a byte's bits, most significant first, give the byte back. -/
theorem be8_bits (f : Nat → Bool) (len o : Nat) (v : Byte) (h : o + 8 ≤ len)
    (hf : ∀ m, m < 8 → f (o + m) = v.getLsbD (7 - m)) : be8 ((List.range len).map f) o = v := by
  rw [be8_range f len o h]
  have : (List.range 8).map (fun m => f (o + m)) = (List.range 8).map fun j => v.getLsbD (8 - 1 - j) :=
    List.map_congr_left fun m hm => hf m (by simpa using hm)
  rw [this, beValue_bits, BitVec.ofNat_toNat, BitVec.setWidth_eq]

@[simp] theorem packBytes_length (bits : List Bool) (n : Nat) : (packBytes bits n).length = n := by
  simp [packBytes]

@[simp] theorem packBytes_getElem (bits : List Bool) (n j : Nat) (h : j < (packBytes bits n).length) :
    (packBytes bits n)[j] = be8 bits (8 * j) := by simp [packBytes]

/-! ## Code points -/

/-- All words legal: the code points come back. -/
theorem readCodePoints_legal (m : Memory) (f : Nat → Word) (n i : Nat)
    (h : ∀ j, j < n → Memory.readWord m (i + j) = some (f (i + j)) ∧ (f (i + j)).toNat ≤ 0xFF) :
    readCodePoints m i n = .ok ((List.range n).map fun j => (f (i + j)).setWidth 8) := by
  induction n generalizing i with
  | zero => rfl
  | succ n ih =>
    have h0 := h 0 (by omega)
    have h1 := ih (i + 1) fun j hj => by
      have := h (j + 1) (by omega)
      rwa [show i + (j + 1) = i + 1 + j by omega] at this
    simp only [Nat.add_zero] at h0
    simp only [readCodePoints, readWordCell_of_read h0.1, h1, List.range_succ_eq_map, List.map_cons, List.map_map]
    rw [if_neg (by omega)]
    simp [Function.comp_def, Nat.add_assoc, Nat.add_comm 1]

/-- The first word above 0xFF, after legal ones, is the one reported. -/
theorem readCodePoints_raise (m : Memory) (f : Nat → Word) (n i k : Nat) (hk : k < n)
    (h : ∀ j, j < k → Memory.readWord m (i + j) = some (f (i + j)) ∧ (f (i + j)).toNat ≤ 0xFF)
    (hr : Memory.readWord m (i + k) = some (f (i + k))) (hb : 0xFF < (f (i + k)).toNat) :
    readCodePoints m i n = .error (.raise (.codepoint (i + k))) := by
  induction n generalizing i k with
  | zero => omega
  | succ n ih =>
    cases k with
    | zero =>
      rw [Nat.add_zero] at hr hb
      simp only [readCodePoints, readWordCell_of_read hr, Nat.add_zero]
      rw [if_pos hb]
    | succ k =>
      have h0 := h 0 (by omega)
      simp only [Nat.add_zero] at h0
      have hshift : i + (k + 1) = i + 1 + k := by omega
      rw [hshift] at hr hb ⊢
      have h1 := ih (i + 1) k (by omega) (fun j hj => by
        have := h (j + 1) (by omega)
        rwa [show i + (j + 1) = i + 1 + j by omega] at this) hr hb
      simp only [readCodePoints, readWordCell_of_read h0.1, h1]
      rw [if_neg (by omega)]

/-- An unwritten word, after legal ones, faults. -/
theorem readCodePoints_fault (m : Memory) (f : Nat → Word) (n i k : Nat) (hk : k < n)
    (h : ∀ j, j < k → Memory.readWord m (i + j) = some (f (i + j)) ∧ (f (i + j)).toNat ≤ 0xFF)
    (hr : Memory.readWord m (i + k) = none) :
    readCodePoints m i n = .error (.fault (.unwrittenCell .payload (i + k))) := by
  induction n generalizing i k with
  | zero => omega
  | succ n ih =>
    cases k with
    | zero =>
      rw [Nat.add_zero] at hr
      simp only [readCodePoints, readWordCell_of_none hr, Nat.add_zero]
    | succ k =>
      have h0 := h 0 (by omega)
      simp only [Nat.add_zero] at h0
      have hshift : i + (k + 1) = i + 1 + k := by omega
      rw [hshift] at hr ⊢
      have h1 := ih (i + 1) k (by omega) (fun j hj => by
        have := h (j + 1) (by omega)
        rwa [show i + (j + 1) = i + 1 + j by omega] at this) hr
      simp only [readCodePoints, readWordCell_of_read h0.1, h1]
      rw [if_neg (by omega)]

/-- Everything reading code points can answer. -/
theorem readCodePoints_cases (m : Memory) (n i : Nat) :
    (∃ f : Nat → Word, (∀ j, j < n → Memory.readWord m (i + j) = some (f (i + j)) ∧ (f (i + j)).toNat ≤ 0xFF) ∧
      readCodePoints m i n = .ok ((List.range n).map fun j => (f (i + j)).setWidth 8)) ∨
    (∃ (f : Nat → Word) (k : Nat), k < n ∧
      (∀ j, j < k → Memory.readWord m (i + j) = some (f (i + j)) ∧ (f (i + j)).toNat ≤ 0xFF) ∧
      Memory.readWord m (i + k) = some (f (i + k)) ∧ 0xFF < (f (i + k)).toNat ∧
      readCodePoints m i n = .error (.raise (.codepoint (i + k)))) ∨
    (∃ (f : Nat → Word) (k : Nat), k < n ∧
      (∀ j, j < k → Memory.readWord m (i + j) = some (f (i + j)) ∧ (f (i + j)).toNat ≤ 0xFF) ∧
      Memory.readWord m (i + k) = none ∧
      readCodePoints m i n = .error (.fault (.unwrittenCell .payload (i + k)))) := by
  let f : Nat → Word := fun a => (Memory.readWord m a).getD 0
  by_cases hall : ∀ j, j < n → ∃ w, Memory.readWord m (i + j) = some w ∧ w.toNat ≤ 0xFF
  · left
    have hf : ∀ j, j < n → Memory.readWord m (i + j) = some (f (i + j)) ∧ (f (i + j)).toNat ≤ 0xFF := by
      intro j hj
      obtain ⟨w, hw, hle⟩ := hall j hj
      simp only [f, hw]; exact ⟨rfl, hle⟩
    exact ⟨f, hf, readCodePoints_legal m f n i hf⟩
  · right
    push Not at hall
    obtain ⟨k0, hk0n, hk0⟩ := hall
    classical
    have hex : ∃ k, k < n ∧ ∀ w, Memory.readWord m (i + k) = some w → 0xFF < w.toNat := ⟨k0, hk0n, hk0⟩
    let k := Nat.find hex
    obtain ⟨hkn, hk⟩ : k < n ∧ ∀ w, Memory.readWord m (i + k) = some w → 0xFF < w.toNat := Nat.find_spec hex
    have hf : ∀ j, j < k → Memory.readWord m (i + j) = some (f (i + j)) ∧ (f (i + j)).toNat ≤ 0xFF := by
      intro j hj
      have hmin := Nat.find_min hex hj
      push Not at hmin
      obtain ⟨w, hw, hle⟩ := hmin (by omega)
      simp only [f, hw]; exact ⟨rfl, hle⟩
    cases hr : Memory.readWord m (i + k) with
    | none => exact .inr ⟨f, k, hkn, hf, hr, readCodePoints_fault m f n i k hkn hf hr⟩
    | some w =>
      have hw : Memory.readWord m (i + k) = some (f (i + k)) := by simp only [f, hr]; rfl
      have hb : 0xFF < (f (i + k)).toNat := by simpa [f, hr] using hk w hr
      rw [hr] at hw
      exact .inl ⟨f, k, hkn, hf, hr ▸ hw ▸ rfl, hb, readCodePoints_raise m f n i k hkn hf (hr.trans hw) hb⟩

/-! ## Bits of BITBUF -/

theorem getbit_of_read {m : Memory} {b : Nat → Byte} {k : Nat}
    (h : Memory.read m (k / 8) = some (b (k / 8))) : getbit m k = .ok (packedBit b k) := by
  simp [getbit, readCell_of_read h, packedBit]

/-- The bits of written bytes come back. -/
theorem getbits_written (m : Memory) (b : Nat → Byte) (n k : Nat)
    (h : ∀ j, j < n → Memory.read m ((k + j) / 8) = some (b ((k + j) / 8))) :
    getbits m k n = .ok ((List.range n).map fun j => packedBit b (k + j)) := by
  induction n generalizing k with
  | zero => rfl
  | succ n ih =>
    have h0 := h 0 (by omega)
    simp only [Nat.add_zero] at h0
    have h1 := ih (k + 1) fun j hj => by
      have := h (j + 1) (by omega)
      rwa [show k + (j + 1) = k + 1 + j by omega] at this
    simp only [getbits, getbit_of_read h0, h1, List.range_succ_eq_map, List.map_cons, List.map_map]
    simp [Function.comp_def, Nat.add_assoc, Nat.add_comm 1]

/-- A bit of an unwritten byte faults, at such a byte. -/
theorem getbits_fault (m : Memory) (n k : Nat)
    (h : ∃ j, j < n ∧ Memory.read m ((k + j) / 8) = none) :
    ∃ a, getbits m k n = .error (.fault (.unwrittenCell .bitbuf a)) ∧ Memory.read m a = none := by
  induction n generalizing k with
  | zero => obtain ⟨j, hj, -⟩ := h; omega
  | succ n ih =>
    cases hr : Memory.read m (k / 8) with
    | none => exact ⟨k / 8, by simp [getbits, getbit, readCell_of_none hr], hr⟩
    | some v =>
      obtain ⟨j, hj, hn⟩ := h
      obtain ⟨j, rfl⟩ : ∃ j', j = j' + 1 := by
        refine ⟨j - 1, ?_⟩
        rcases Nat.eq_zero_or_pos j with rfl | hp
        · simp [hr] at hn
        · omega
      obtain ⟨a, ha, hna⟩ := ih (k + 1) ⟨j, by omega, by rwa [show k + (j + 1) = k + 1 + j by omega] at hn⟩
      exact ⟨a, by simp [getbits, getbit, readCell_of_read hr, ha], hna⟩

/-! ## Channels -/

/-- The read-modify-write of written channels. -/
theorem embedRun_written (m : Memory) (c : Nat → Byte) (bits : List Bool) (k : Nat)
    (h : ∀ j, j < bits.length → Memory.read m (k + j) = some (c (k + j))) :
    embedRun m k bits = .ok (bits.mapIdx fun j b => lsbSub (c (k + j)) b) := by
  induction bits generalizing k with
  | nil => rfl
  | cons b bs ih =>
    have h0 := h 0 (by simp)
    simp only [Nat.add_zero] at h0
    have h1 := ih (k + 1) fun j hj => by
      have := h (j + 1) (by simpa using hj)
      rwa [show k + (j + 1) = k + 1 + j by omega] at this
    simp only [embedRun, readCell_of_read h0, h1, List.mapIdx_cons]
    simp [Nat.add_assoc, Nat.add_comm 1]

/-- An unwritten channel faults, at such a channel. -/
theorem embedRun_fault (m : Memory) (bits : List Bool) (k : Nat)
    (h : ∃ j, j < bits.length ∧ Memory.read m (k + j) = none) :
    ∃ a, embedRun m k bits = .error (.fault (.unwrittenCell .raster a)) ∧ Memory.read m a = none := by
  induction bits generalizing k with
  | nil => obtain ⟨j, hj, -⟩ := h; simp at hj
  | cons b bs ih =>
    cases hr : Memory.read m k with
    | none => exact ⟨k, by simp [embedRun, readCell_of_none hr], hr⟩
    | some v =>
      obtain ⟨j, hj, hn⟩ := h
      obtain ⟨j, rfl⟩ : ∃ j', j = j' + 1 := by
        refine ⟨j - 1, ?_⟩
        rcases Nat.eq_zero_or_pos j with rfl | hp
        · simp [hr] at hn
        · omega
      obtain ⟨a, ha, hna⟩ := ih (k + 1)
        ⟨j, by simpa using hj, by rwa [show k + (j + 1) = k + 1 + j by omega] at hn⟩
      exact ⟨a, by simp [embedRun, readCell_of_read hr, ha], hna⟩

/-! ## The extract scan in closed form -/

/-- The first n LSBs of the channels c, in scan order. -/
def lsbBits (c : Nat → Byte) (n : Nat) : List Bool := (List.range n).map fun k => lsb (c k)

@[simp] theorem lsbBits_length (c : Nat → Byte) (n : Nat) : (lsbBits c n).length = n := by simp [lsbBits]

theorem lsbBits_succ (c : Nat → Byte) (n : Nat) : lsbBits c (n + 1) = lsbBits c n ++ [lsb (c n)] := by
  simp [lsbBits, List.range_succ]

theorem lsb_toNat (v : Byte) : (lsb v).toNat = v.toNat % 2 := by
  rw [lsb, BitVec.getLsbD, Nat.testBit_zero]
  rcases Nat.mod_two_eq_zero_or_one v.toNat with h | h <;> simp [h]

/-- The first 32 LSBs, read as the prefix, are the declared length. -/
theorem be32_lsbBits (c : Nat → Byte) (n : Nat) (h : 32 ≤ n) : be32 (lsbBits c n) 0 = lsbPrefix c := by
  rw [be32, lsbBits, beAt_range _ _ _ _ (by omega), beValue_range, lsbPrefix]
  refine Finset.sum_congr rfl fun k _ => ?_
  rw [Nat.zero_add, lsb_toNat]

/-- Eight LSBs as a byte. -/
theorem be8_lsbBits (c : Nat → Byte) (n o : Nat) (h : o + 8 ≤ n) :
    be8 (lsbBits c n) o = BitVec.ofNat 8 (lsbByte c o) := by
  rw [lsbBits, be8_range _ _ _ h, beValue_range, lsbByte]
  congr 1
  refine Finset.sum_congr rfl fun m _ => ?_
  rw [lsb_toNat]

theorem lsbPrefix_lt (c : Nat → Byte) : lsbPrefix c < 2 ^ 32 := by
  rw [← be32_lsbBits c 32 le_rfl]; exact be32_lt _ _

theorem lsbByte_lt (c : Nat → Byte) (o : Nat) : lsbByte c o < 256 := by
  have h : lsbByte c o = beValue ((List.range 8).map fun m => lsb (c (o + m))) := by
    rw [beValue_range, lsbByte]
    refine Finset.sum_congr rfl fun m _ => ?_
    rw [lsb_toNat]
  rw [h]
  exact lt_of_lt_of_le (beValue_lt _) (by simp)

theorem scanFrom_payload (m : Memory) (c : Nat → Byte) (r n k : Nat) (hk : k < r)
    (h : ∀ j, k ≤ j → j < min r (k + n) → Memory.read m j = some (c j)) :
    scanFrom m k ⟨.scanningPayload r, lsbBits c k⟩ n =
      if k + n < r then .error (.raise (.underflow true)) else .ok (lsbBits c r) := by
  induction n generalizing k with
  | zero => simp [scanFrom, hk]
  | succ n ih =>
    have h0 := h k le_rfl (by omega)
    simp only [scanFrom, readCell_of_read h0, scanVisit, ← lsbBits_succ, scanSettle, lsbBits_length]
    by_cases he : k + 1 = r
    · rw [if_pos he, if_neg (by omega), ← he]
      cases n <;> rfl
    · rw [if_neg he, ih (k + 1) (by omega) fun j h1 h2 => h j (by omega) (by omega)]
      simp only [show k + 1 + n = k + (n + 1) by omega]

theorem scanFrom_length (m : Memory) (c : Nat → Byte) (n k : Nat) (hk : k < 32)
    (h : ∀ j, k ≤ j → j < extractReads (k + n) c → Memory.read m j = some (c j)) :
    scanFrom m k ⟨.scanningLength, lsbBits c k⟩ n =
      if k + n < 32 then .error (.raise (.underflow false))
      else if k + n < 32 + 8 * lsbPrefix c then .error (.raise (.underflow true))
      else .ok (lsbBits c (32 + 8 * lsbPrefix c)) := by
  induction n generalizing k with
  | zero => simp [scanFrom, hk]
  | succ n ih =>
    have h0 := h k le_rfl (by unfold extractReads; split <;> omega)
    simp only [scanFrom, readCell_of_read h0, scanVisit, ← lsbBits_succ, lsbBits_length, lenBits]
    by_cases he : k + 1 = 32
    · rw [if_pos he, be32_lsbBits c (k + 1) (by omega), if_neg (by omega)]
      simp only [frameLen, lenBits, cpBits, scanSettle, lsbBits_length]
      by_cases hz : k + 1 = 32 + 8 * lsbPrefix c
      · rw [if_pos hz, if_neg (by omega), ← hz]
        cases n <;> rfl
      · rw [if_neg hz, scanFrom_payload m c _ n (k + 1) (by omega) fun j h1 h2 => h j (by omega) (by
          unfold extractReads; rw [if_neg (by omega)]; omega)]
        simp only [show k + 1 + n = k + (n + 1) by omega]
    · rw [if_neg he, ih (k + 1) (by omega) fun j h1 h2 => h j (by omega) (by
        rwa [show k + 1 + n = k + (n + 1) by omega] at h2)]
      simp only [show k + 1 + n = k + (n + 1) by omega]

/-- The scan of a raster of `cap` channels c (rules R132, R133). -/
theorem scanFrom_start (m : Memory) (c : Nat → Byte) (cap : Nat) (h : Holds m (extractReads cap c) c) :
    scanFrom m 0 Scan.start cap =
      if cap < 32 then .error (.raise (.underflow false))
      else if cap < 32 + 8 * lsbPrefix c then .error (.raise (.underflow true))
      else .ok (lsbBits c (32 + 8 * lsbPrefix c)) := by
  have := scanFrom_length m c cap 0 (by omega) fun j _ hj => h j (by simpa using hj)
  simpa [Scan.start, lsbBits] using this

/-- A scan that meets an unwritten channel faults, at such a channel. -/
theorem scanFrom_payload_fault (m : Memory) (acc : List Bool) (r n k : Nat) (hacc : acc.length = k)
    (h : ∃ j, k ≤ j ∧ j < min r (k + n) ∧ Memory.read m j = none) :
    ∃ a, scanFrom m k ⟨.scanningPayload r, acc⟩ n = .error (.fault (.unwrittenCell .raster a)) ∧
      Memory.read m a = none := by
  induction n generalizing k acc with
  | zero => obtain ⟨j, h1, h2, -⟩ := h; omega
  | succ n ih =>
    cases hr : Memory.read m k with
    | none => exact ⟨k, by simp [scanFrom, readCell_of_none hr], hr⟩
    | some v =>
      obtain ⟨j, h1, h2, hn⟩ := h
      have hjk : j ≠ k := by rintro rfl; simp [hr] at hn
      have hne : k + 1 ≠ r := by omega
      obtain ⟨a, ha, hna⟩ := ih (acc ++ [lsb v]) (k + 1) (by simp [hacc]) ⟨j, by omega, by omega, hn⟩
      refine ⟨a, ?_, hna⟩
      simp only [scanFrom, readCell_of_read hr, scanVisit, scanSettle, List.length_append, hacc,
        List.length_singleton, if_neg hne, ha]

theorem scanFrom_length_fault (m : Memory) (c : Nat → Byte) (n k : Nat) (hk : k < 32)
    (hc : ∀ j v, Memory.read m j = some v → c j = v)
    (h : ∃ j, k ≤ j ∧ j < extractReads (k + n) c ∧ Memory.read m j = none) :
    ∃ a, scanFrom m k ⟨.scanningLength, lsbBits c k⟩ n = .error (.fault (.unwrittenCell .raster a)) ∧
      Memory.read m a = none := by
  induction n generalizing k with
  | zero =>
    obtain ⟨j, h1, h2, -⟩ := h
    rw [extractReads, if_pos (by omega)] at h2; omega
  | succ n ih =>
    cases hr : Memory.read m k with
    | none => exact ⟨k, by simp [scanFrom, readCell_of_none hr], hr⟩
    | some v =>
      obtain rfl : c k = v := hc k v hr
      obtain ⟨j, h1, h2, hn⟩ := h
      have hjk : j ≠ k := by rintro rfl; simp [hr] at hn
      by_cases he : k + 1 = 32
      · rw [extractReads, if_neg (by omega)] at h2
        obtain ⟨a, ha, hna⟩ := scanFrom_payload_fault m (lsbBits c (k + 1)) (32 + 8 * lsbPrefix c) n (k + 1)
          (by simp) ⟨j, by omega, by omega, hn⟩
        refine ⟨a, ?_, hna⟩
        simp only [scanFrom, readCell_of_read hr, scanVisit, ← lsbBits_succ, lsbBits_length, lenBits,
          if_pos he, be32_lsbBits c (k + 1) (by omega), frameLen, cpBits, scanSettle]
        rw [if_neg (by omega)]; exact ha
      · obtain ⟨a, ha, hna⟩ := ih (k + 1) (by omega) ⟨j, by omega, by
          rwa [show k + 1 + n = k + (n + 1) by omega], hn⟩
        refine ⟨a, ?_, hna⟩
        simp only [scanFrom, readCell_of_read hr, scanVisit, ← lsbBits_succ, lsbBits_length, lenBits,
          if_neg he, ha]

/-- Everything the scan can answer. -/
theorem scanFrom_start_cases (m : Memory) (cap : Nat) :
    (∃ c, Holds m (extractReads cap c) c) ∨
    ∃ a, scanFrom m 0 Scan.start cap = .error (.fault (.unwrittenCell .raster a)) ∧ Memory.read m a = none := by
  let c : Nat → Byte := fun a => (Memory.read m a).getD 0
  by_cases h : Written m (extractReads cap c)
  · left
    refine ⟨c, fun a ha => ?_⟩
    obtain ⟨v, hv⟩ := Option.isSome_iff_exists.1 (h a ha)
    simp [c, hv]
  · right
    unfold Written at h
    push Not at h
    obtain ⟨j, hj, hn⟩ := h
    have := scanFrom_length_fault m c cap 0 (by omega) (fun j v hv => by simp [c, hv])
      ⟨j, by omega, by simpa using hj, by simpa using hn⟩
    simpa [Scan.start, lsbBits] using this

end Sys2Proof.Machine
end

