-- ==== Sys2Proof/Laws/State.lean ====
section
/-! SUPPORT. One lemma per field of State for each named update, true by rfl, so that no later proof unfolds a record
update. -/

namespace Sys2Proof.Machine

variable (s : State)

/-! ## recordError -/

@[simp] theorem recordError_cfg (e : CmdError) : (recordError e s).cfg = s.cfg := rfl
@[simp] theorem recordError_busy (e : CmdError) : (recordError e s).busy = false := rfl
@[simp] theorem recordError_done (e : CmdError) : (recordError e s).done = false := rfl
@[simp] theorem recordError_err (e : CmdError) : (recordError e s).err = true := rfl
@[simp] theorem recordError_ovr (e : CmdError) : (recordError e s).ovr = s.ovr := rfl
@[simp] theorem recordError_errCode (e : CmdError) : (recordError e s).errCode = errorCode e := rfl
@[simp] theorem recordError_irqEn (e : CmdError) : (recordError e s).irqEn = s.irqEn := rfl
@[simp] theorem recordError_width (e : CmdError) : (recordError e s).width = s.width := rfl
@[simp] theorem recordError_height (e : CmdError) : (recordError e s).height = s.height := rfl
@[simp] theorem recordError_payLen (e : CmdError) : (recordError e s).payLen = s.payLen := rfl
@[simp] theorem recordError_bitLen (e : CmdError) : (recordError e s).bitLen = s.bitLen := rfl
@[simp] theorem recordError_errInfo (e : CmdError) : (recordError e s).errInfo = errorInfo e := rfl
@[simp] theorem recordError_curOp (e : CmdError) : (recordError e s).curOp = s.curOp := rfl
@[simp] theorem recordError_raster (e : CmdError) : (recordError e s).raster = s.raster := rfl
@[simp] theorem recordError_bitbuf (e : CmdError) : (recordError e s).bitbuf = s.bitbuf := rfl
@[simp] theorem recordError_payload (e : CmdError) : (recordError e s).payload = s.payload := rfl
@[simp] theorem recordError_host (e : CmdError) : (recordError e s).host = s.host := rfl
@[simp] theorem recordError_turns (e : CmdError) : (recordError e s).turns = s.turns := rfl
@[simp] theorem recordError_replies (e : CmdError) : (recordError e s).replies = s.replies := rfl

/-! ## recordSuccess -/

@[simp] theorem recordSuccess_cfg : (recordSuccess s).cfg = s.cfg := rfl
@[simp] theorem recordSuccess_busy : (recordSuccess s).busy = false := rfl
@[simp] theorem recordSuccess_done : (recordSuccess s).done = true := rfl
@[simp] theorem recordSuccess_err : (recordSuccess s).err = false := rfl
@[simp] theorem recordSuccess_ovr : (recordSuccess s).ovr = s.ovr := rfl
@[simp] theorem recordSuccess_errCode : (recordSuccess s).errCode = 0#4 := rfl
@[simp] theorem recordSuccess_irqEn : (recordSuccess s).irqEn = s.irqEn := rfl
@[simp] theorem recordSuccess_width : (recordSuccess s).width = s.width := rfl
@[simp] theorem recordSuccess_height : (recordSuccess s).height = s.height := rfl
@[simp] theorem recordSuccess_payLen : (recordSuccess s).payLen = s.payLen := rfl
@[simp] theorem recordSuccess_bitLen : (recordSuccess s).bitLen = s.bitLen := rfl
@[simp] theorem recordSuccess_errInfo : (recordSuccess s).errInfo = 0#32 := rfl
@[simp] theorem recordSuccess_curOp : (recordSuccess s).curOp = s.curOp := rfl
@[simp] theorem recordSuccess_raster : (recordSuccess s).raster = s.raster := rfl
@[simp] theorem recordSuccess_bitbuf : (recordSuccess s).bitbuf = s.bitbuf := rfl
@[simp] theorem recordSuccess_payload : (recordSuccess s).payload = s.payload := rfl
@[simp] theorem recordSuccess_host : (recordSuccess s).host = s.host := rfl
@[simp] theorem recordSuccess_turns : (recordSuccess s).turns = s.turns := rfl
@[simp] theorem recordSuccess_replies : (recordSuccess s).replies = s.replies := rfl

/-! ## clearRecord -/

@[simp] theorem clearRecord_cfg : (clearRecord s).cfg = s.cfg := rfl
@[simp] theorem clearRecord_busy : (clearRecord s).busy = s.busy := rfl
@[simp] theorem clearRecord_done : (clearRecord s).done = false := rfl
@[simp] theorem clearRecord_err : (clearRecord s).err = false := rfl
@[simp] theorem clearRecord_ovr : (clearRecord s).ovr = s.ovr := rfl
@[simp] theorem clearRecord_errCode : (clearRecord s).errCode = 0#4 := rfl
@[simp] theorem clearRecord_irqEn : (clearRecord s).irqEn = s.irqEn := rfl
@[simp] theorem clearRecord_width : (clearRecord s).width = s.width := rfl
@[simp] theorem clearRecord_height : (clearRecord s).height = s.height := rfl
@[simp] theorem clearRecord_payLen : (clearRecord s).payLen = s.payLen := rfl
@[simp] theorem clearRecord_bitLen : (clearRecord s).bitLen = s.bitLen := rfl
@[simp] theorem clearRecord_errInfo : (clearRecord s).errInfo = 0#32 := rfl
@[simp] theorem clearRecord_curOp : (clearRecord s).curOp = s.curOp := rfl
@[simp] theorem clearRecord_raster : (clearRecord s).raster = s.raster := rfl
@[simp] theorem clearRecord_bitbuf : (clearRecord s).bitbuf = s.bitbuf := rfl
@[simp] theorem clearRecord_payload : (clearRecord s).payload = s.payload := rfl
@[simp] theorem clearRecord_host : (clearRecord s).host = s.host := rfl
@[simp] theorem clearRecord_turns : (clearRecord s).turns = s.turns := rfl
@[simp] theorem clearRecord_replies : (clearRecord s).replies = s.replies := rfl

/-! ## dropWrite -/

@[simp] theorem dropWrite_cfg : (dropWrite s).cfg = s.cfg := rfl
@[simp] theorem dropWrite_busy : (dropWrite s).busy = s.busy := rfl
@[simp] theorem dropWrite_done : (dropWrite s).done = s.done := rfl
@[simp] theorem dropWrite_err : (dropWrite s).err = s.err := rfl
@[simp] theorem dropWrite_ovr : (dropWrite s).ovr = true := rfl
@[simp] theorem dropWrite_errCode : (dropWrite s).errCode = s.errCode := rfl
@[simp] theorem dropWrite_irqEn : (dropWrite s).irqEn = s.irqEn := rfl
@[simp] theorem dropWrite_width : (dropWrite s).width = s.width := rfl
@[simp] theorem dropWrite_height : (dropWrite s).height = s.height := rfl
@[simp] theorem dropWrite_payLen : (dropWrite s).payLen = s.payLen := rfl
@[simp] theorem dropWrite_bitLen : (dropWrite s).bitLen = s.bitLen := rfl
@[simp] theorem dropWrite_errInfo : (dropWrite s).errInfo = s.errInfo := rfl
@[simp] theorem dropWrite_curOp : (dropWrite s).curOp = s.curOp := rfl
@[simp] theorem dropWrite_raster : (dropWrite s).raster = s.raster := rfl
@[simp] theorem dropWrite_bitbuf : (dropWrite s).bitbuf = s.bitbuf := rfl
@[simp] theorem dropWrite_payload : (dropWrite s).payload = s.payload := rfl
@[simp] theorem dropWrite_host : (dropWrite s).host = s.host := rfl
@[simp] theorem dropWrite_turns : (dropWrite s).turns = s.turns := rfl
@[simp] theorem dropWrite_replies : (dropWrite s).replies = s.replies := rfl

/-! ## statusWrite -/

@[simp] theorem statusWrite_cfg (v : Word) : (statusWrite v s).cfg = s.cfg := rfl
@[simp] theorem statusWrite_busy (v : Word) : (statusWrite v s).busy = s.busy := rfl
@[simp] theorem statusWrite_done (v : Word) : (statusWrite v s).done = (s.done && !(v.getLsbD 1)) := rfl
@[simp] theorem statusWrite_err (v : Word) : (statusWrite v s).err = (s.err && !(v.getLsbD 2)) := rfl
@[simp] theorem statusWrite_ovr (v : Word) : (statusWrite v s).ovr = (s.ovr && !(v.getLsbD 3)) := rfl
@[simp] theorem statusWrite_errCode (v : Word) : (statusWrite v s).errCode = s.errCode := rfl
@[simp] theorem statusWrite_irqEn (v : Word) : (statusWrite v s).irqEn = s.irqEn := rfl
@[simp] theorem statusWrite_width (v : Word) : (statusWrite v s).width = s.width := rfl
@[simp] theorem statusWrite_height (v : Word) : (statusWrite v s).height = s.height := rfl
@[simp] theorem statusWrite_payLen (v : Word) : (statusWrite v s).payLen = s.payLen := rfl
@[simp] theorem statusWrite_bitLen (v : Word) : (statusWrite v s).bitLen = s.bitLen := rfl
@[simp] theorem statusWrite_errInfo (v : Word) : (statusWrite v s).errInfo = s.errInfo := rfl
@[simp] theorem statusWrite_curOp (v : Word) : (statusWrite v s).curOp = s.curOp := rfl
@[simp] theorem statusWrite_raster (v : Word) : (statusWrite v s).raster = s.raster := rfl
@[simp] theorem statusWrite_bitbuf (v : Word) : (statusWrite v s).bitbuf = s.bitbuf := rfl
@[simp] theorem statusWrite_payload (v : Word) : (statusWrite v s).payload = s.payload := rfl
@[simp] theorem statusWrite_host (v : Word) : (statusWrite v s).host = s.host := rfl
@[simp] theorem statusWrite_turns (v : Word) : (statusWrite v s).turns = s.turns := rfl
@[simp] theorem statusWrite_replies (v : Word) : (statusWrite v s).replies = s.replies := rfl

/-! ## ctrlWrite -/

@[simp] theorem ctrlWrite_cfg (v : Word) : (ctrlWrite v s).cfg = s.cfg := rfl
@[simp] theorem ctrlWrite_busy (v : Word) : (ctrlWrite v s).busy = s.busy := rfl
@[simp] theorem ctrlWrite_done (v : Word) : (ctrlWrite v s).done = s.done := rfl
@[simp] theorem ctrlWrite_err (v : Word) : (ctrlWrite v s).err = s.err := rfl
@[simp] theorem ctrlWrite_ovr (v : Word) : (ctrlWrite v s).ovr = s.ovr := rfl
@[simp] theorem ctrlWrite_errCode (v : Word) : (ctrlWrite v s).errCode = s.errCode := rfl
@[simp] theorem ctrlWrite_irqEn (v : Word) : (ctrlWrite v s).irqEn = v.getLsbD 0 := rfl
@[simp] theorem ctrlWrite_width (v : Word) : (ctrlWrite v s).width = s.width := rfl
@[simp] theorem ctrlWrite_height (v : Word) : (ctrlWrite v s).height = s.height := rfl
@[simp] theorem ctrlWrite_payLen (v : Word) : (ctrlWrite v s).payLen = s.payLen := rfl
@[simp] theorem ctrlWrite_bitLen (v : Word) : (ctrlWrite v s).bitLen = s.bitLen := rfl
@[simp] theorem ctrlWrite_errInfo (v : Word) : (ctrlWrite v s).errInfo = s.errInfo := rfl
@[simp] theorem ctrlWrite_curOp (v : Word) : (ctrlWrite v s).curOp = s.curOp := rfl
@[simp] theorem ctrlWrite_raster (v : Word) : (ctrlWrite v s).raster = s.raster := rfl
@[simp] theorem ctrlWrite_bitbuf (v : Word) : (ctrlWrite v s).bitbuf = s.bitbuf := rfl
@[simp] theorem ctrlWrite_payload (v : Word) : (ctrlWrite v s).payload = s.payload := rfl
@[simp] theorem ctrlWrite_host (v : Word) : (ctrlWrite v s).host = s.host := rfl
@[simp] theorem ctrlWrite_turns (v : Word) : (ctrlWrite v s).turns = s.turns := rfl
@[simp] theorem ctrlWrite_replies (v : Word) : (ctrlWrite v s).replies = s.replies := rfl

/-! ## applyCommit -/

@[simp] theorem applyCommit_cfg (c : Commit) : (applyCommit c s).cfg = s.cfg := rfl
@[simp] theorem applyCommit_busy (c : Commit) : (applyCommit c s).busy = s.busy := rfl
@[simp] theorem applyCommit_done (c : Commit) : (applyCommit c s).done = s.done := rfl
@[simp] theorem applyCommit_err (c : Commit) : (applyCommit c s).err = s.err := rfl
@[simp] theorem applyCommit_ovr (c : Commit) : (applyCommit c s).ovr = s.ovr := rfl
@[simp] theorem applyCommit_errCode (c : Commit) : (applyCommit c s).errCode = s.errCode := rfl
@[simp] theorem applyCommit_irqEn (c : Commit) : (applyCommit c s).irqEn = s.irqEn := rfl
@[simp] theorem applyCommit_width (c : Commit) : (applyCommit c s).width = s.width := rfl
@[simp] theorem applyCommit_height (c : Commit) : (applyCommit c s).height = s.height := rfl
@[simp] theorem applyCommit_payLen (c : Commit) : (applyCommit c s).payLen = c.payLen.getD s.payLen := rfl
@[simp] theorem applyCommit_bitLen (c : Commit) : (applyCommit c s).bitLen = c.bitLen.getD s.bitLen := rfl
@[simp] theorem applyCommit_errInfo (c : Commit) : (applyCommit c s).errInfo = s.errInfo := rfl
@[simp] theorem applyCommit_curOp (c : Commit) : (applyCommit c s).curOp = s.curOp := rfl
@[simp] theorem applyCommit_raster (c : Commit) : (applyCommit c s).raster = Memory.writeRun s.raster 0 c.raster := rfl
@[simp] theorem applyCommit_bitbuf (c : Commit) : (applyCommit c s).bitbuf = Memory.writeRun s.bitbuf 0 c.bitbuf := rfl
@[simp] theorem applyCommit_payload (c : Commit) : (applyCommit c s).payload = Memory.writeWords s.payload 0 c.payload := rfl
@[simp] theorem applyCommit_host (c : Commit) : (applyCommit c s).host = s.host := rfl
@[simp] theorem applyCommit_turns (c : Commit) : (applyCommit c s).turns = s.turns := rfl
@[simp] theorem applyCommit_replies (c : Commit) : (applyCommit c s).replies = s.replies := rfl

/-! ## reply -/

@[simp] theorem reply_cfg (v : Word) : (reply v s).cfg = s.cfg := rfl
@[simp] theorem reply_busy (v : Word) : (reply v s).busy = s.busy := rfl
@[simp] theorem reply_done (v : Word) : (reply v s).done = s.done := rfl
@[simp] theorem reply_err (v : Word) : (reply v s).err = s.err := rfl
@[simp] theorem reply_ovr (v : Word) : (reply v s).ovr = s.ovr := rfl
@[simp] theorem reply_errCode (v : Word) : (reply v s).errCode = s.errCode := rfl
@[simp] theorem reply_irqEn (v : Word) : (reply v s).irqEn = s.irqEn := rfl
@[simp] theorem reply_width (v : Word) : (reply v s).width = s.width := rfl
@[simp] theorem reply_height (v : Word) : (reply v s).height = s.height := rfl
@[simp] theorem reply_payLen (v : Word) : (reply v s).payLen = s.payLen := rfl
@[simp] theorem reply_bitLen (v : Word) : (reply v s).bitLen = s.bitLen := rfl
@[simp] theorem reply_errInfo (v : Word) : (reply v s).errInfo = s.errInfo := rfl
@[simp] theorem reply_curOp (v : Word) : (reply v s).curOp = s.curOp := rfl
@[simp] theorem reply_raster (v : Word) : (reply v s).raster = s.raster := rfl
@[simp] theorem reply_bitbuf (v : Word) : (reply v s).bitbuf = s.bitbuf := rfl
@[simp] theorem reply_payload (v : Word) : (reply v s).payload = s.payload := rfl
@[simp] theorem reply_host (v : Word) : (reply v s).host = s.host := rfl
@[simp] theorem reply_turns (v : Word) : (reply v s).turns = s.turns := rfl
@[simp] theorem reply_replies (v : Word) : (reply v s).replies = v :: s.replies := rfl

/-! ## forget -/

@[simp] theorem forget_cfg (ws : WriteSet) : (forget ws s).cfg = s.cfg := rfl
@[simp] theorem forget_busy (ws : WriteSet) : (forget ws s).busy = s.busy := rfl
@[simp] theorem forget_done (ws : WriteSet) : (forget ws s).done = s.done := rfl
@[simp] theorem forget_err (ws : WriteSet) : (forget ws s).err = s.err := rfl
@[simp] theorem forget_ovr (ws : WriteSet) : (forget ws s).ovr = s.ovr := rfl
@[simp] theorem forget_errCode (ws : WriteSet) : (forget ws s).errCode = s.errCode := rfl
@[simp] theorem forget_irqEn (ws : WriteSet) : (forget ws s).irqEn = s.irqEn := rfl
@[simp] theorem forget_width (ws : WriteSet) : (forget ws s).width = s.width := rfl
@[simp] theorem forget_height (ws : WriteSet) : (forget ws s).height = s.height := rfl
@[simp] theorem forget_payLen (ws : WriteSet) : (forget ws s).payLen = s.payLen := rfl
@[simp] theorem forget_bitLen (ws : WriteSet) : (forget ws s).bitLen = s.bitLen := rfl
@[simp] theorem forget_errInfo (ws : WriteSet) : (forget ws s).errInfo = s.errInfo := rfl
@[simp] theorem forget_curOp (ws : WriteSet) : (forget ws s).curOp = s.curOp := rfl
@[simp] theorem forget_raster (ws : WriteSet) : (forget ws s).raster = Memory.eraseBelow s.raster ws.raster := rfl
@[simp] theorem forget_bitbuf (ws : WriteSet) : (forget ws s).bitbuf = Memory.eraseBelow s.bitbuf ws.bitbuf := rfl
@[simp] theorem forget_payload (ws : WriteSet) : (forget ws s).payload = Memory.eraseBelow s.payload (4 * ws.payload) := rfl
@[simp] theorem forget_host (ws : WriteSet) : (forget ws s).host = s.host := rfl
@[simp] theorem forget_turns (ws : WriteSet) : (forget ws s).turns = s.turns := rfl
@[simp] theorem forget_replies (ws : WriteSet) : (forget ws s).replies = s.replies := rfl

/-! ## resetRegisters -/

@[simp] theorem resetRegisters_cfg : (resetRegisters s).cfg = s.cfg := rfl
@[simp] theorem resetRegisters_busy : (resetRegisters s).busy = false := rfl
@[simp] theorem resetRegisters_done : (resetRegisters s).done = false := rfl
@[simp] theorem resetRegisters_err : (resetRegisters s).err = false := rfl
@[simp] theorem resetRegisters_ovr : (resetRegisters s).ovr = false := rfl
@[simp] theorem resetRegisters_errCode : (resetRegisters s).errCode = 0#4 := rfl
@[simp] theorem resetRegisters_irqEn : (resetRegisters s).irqEn = false := rfl
@[simp] theorem resetRegisters_width : (resetRegisters s).width = 0#32 := rfl
@[simp] theorem resetRegisters_height : (resetRegisters s).height = 0#32 := rfl
@[simp] theorem resetRegisters_payLen : (resetRegisters s).payLen = 0#32 := rfl
@[simp] theorem resetRegisters_bitLen : (resetRegisters s).bitLen = 0#64 := rfl
@[simp] theorem resetRegisters_errInfo : (resetRegisters s).errInfo = 0#32 := rfl
@[simp] theorem resetRegisters_curOp : (resetRegisters s).curOp = 0#4 := rfl
@[simp] theorem resetRegisters_raster : (resetRegisters s).raster = s.raster := rfl
@[simp] theorem resetRegisters_bitbuf : (resetRegisters s).bitbuf = s.bitbuf := rfl
@[simp] theorem resetRegisters_payload : (resetRegisters s).payload = s.payload := rfl
@[simp] theorem resetRegisters_host : (resetRegisters s).host = s.host := rfl
@[simp] theorem resetRegisters_turns : (resetRegisters s).turns = s.turns := rfl
@[simp] theorem resetRegisters_replies : (resetRegisters s).replies = s.replies := rfl

end Sys2Proof.Machine
end

