-- ==== Sys2Proof/Laws/Ops.lean ====
section
/-! SUPPORT. What the shared operations can do, each said once: the completion of a command, the plans, register
writes, accesses at the ports, and one step. -/

namespace Sys2Proof.Machine

/-! ## Completion -/

/-- A completion that answers a next state recorded a success of its commit, or an error. -/
theorem complete_next {s t : State} {r : Eval Commit} (h : complete s r = .next t) :
    (∃ c, r = .ok c ∧ t = recordSuccess (applyCommit c s)) ∨
    (∃ e, r = .error (.raise e) ∧ t = recordError e s) := by
  rcases r with (e | f) | c
  · exact .inr ⟨e, rfl, by simpa [complete] using h.symm⟩
  · simp [complete] at h
  · exact .inl ⟨c, rfl, by simpa [complete] using h.symm⟩

@[simp] theorem complete_ok (s : State) (c : Commit) :
    complete s (.ok c) = .next (recordSuccess (applyCommit c s)) := rfl

@[simp] theorem complete_raise (s : State) (e : CmdError) :
    complete s (.error (.raise e)) = .next (recordError e s) := rfl

@[simp] theorem complete_fault (s : State) (f : Fault) : complete s (.error (.fault f)) = .fault f := rfl

/-! The three shapes of a commit, as the state they leave: BITBUF with BIT_LEN, PAYLOAD with PAY_LEN, RASTER. Stated for
any values, so that no proof unfolds a computed length. -/

theorem complete_bitbuf (s : State) (l : List Byte) (n : DWord) :
    ∃ t, complete s (.ok { bitbuf := l, bitLen := some n }) = .next t ∧
      t = { afterSuccess s with bitbuf := t.bitbuf, bitLen := n } ∧
      t.bitbuf = Memory.writeRun s.bitbuf 0 l := ⟨_, rfl, rfl, rfl⟩

theorem complete_payload (s : State) (l : List Word) (n : Word) :
    ∃ t, complete s (.ok { payload := l, payLen := some n }) = .next t ∧
      t = { afterSuccess s with payload := t.payload, payLen := n } ∧
      t.payload = Memory.writeWords s.payload 0 l := ⟨_, rfl, rfl, rfl⟩

theorem complete_raster (s : State) (l : List Byte) :
    ∃ t, complete s (.ok { raster := l }) = .next t ∧
      t = { afterSuccess s with raster := t.raster } ∧
      t.raster = Memory.writeRun s.raster 0 l := ⟨_, rfl, rfl, rfl⟩

/-- The reads, checks and writes of a command. -/
def planOf (i : Instr) (s : State) : Eval Commit :=
  match i with
  | .encode => planEncode s
  | .decode => planDecode s
  | .embed => planEmbed s
  | .extract => planExtract s
  | .encodeEmbed => planEncodeEmbed s
  | .extractDecode => planExtractDecode s

/-- Every command is the completion of its plan. -/
theorem exec_eq_complete (i : Instr) (s : State) : exec i s = complete s (planOf i s) := by
  cases i <;> rfl

/-- The cells a plan's commit may write, and the bound its checks put on them. -/
theorem planOf_ok {i : Instr} {s : State} {c : Commit} (h : planOf i s = .ok c) :
    (i ≠ .embed → i ≠ .encodeEmbed → c.raster = []) ∧
    (i ≠ .encode → i ≠ .extract → c.bitbuf = [] ∧ c.bitLen = none) ∧
    (i ≠ .decode → i ≠ .extractDecode → c.payload = [] ∧ c.payLen = none) := by
  cases i <;> simp only [planOf, planEncode, planDecode, planEmbed, planExtract, planEncodeEmbed,
      planExtractDecode] at h <;>
    (repeat' split at h) <;> simp_all <;> (subst h; simp)

theorem readCodePoints_length {m : Memory} {i n : Nat} {cps : List Byte}
    (h : readCodePoints m i n = .ok cps) : cps.length = n := by
  rcases readCodePoints_cases m n i with ⟨f, -, hok⟩ | ⟨f, k, -, -, -, -, he⟩ | ⟨f, k, -, -, -, he⟩
  · rw [hok] at h; injection h with h; simp [← h]
  · rw [he] at h; cases h
  · rw [he] at h; cases h

theorem getbits_length {m : Memory} {k n : Nat} {bits : List Bool} (h : getbits m k n = .ok bits) :
    bits.length = n := by
  induction n generalizing k bits with
  | zero => simp only [getbits] at h; injection h with h; simp [← h]
  | succ n ih =>
    simp only [getbits] at h
    split at h
    · cases h
    · split at h
      · cases h
      · rename_i bs hbs
        injection h with h
        simp [← h, ih hbs]

theorem embedRun_length {m : Memory} {k : Nat} {bits : List Bool} {vs : List Byte}
    (h : embedRun m k bits = .ok vs) : vs.length = bits.length := by
  induction bits generalizing k vs with
  | nil => simp only [embedRun] at h; injection h with h; simp [← h]
  | cons b bs ih =>
    simp only [embedRun] at h
    split at h
    · cases h
    · split at h
      · cases h
      · rename_i ws hws
        injection h with h
        simp [← h, ih hws]

@[simp] theorem bits32_length (v : Word) : (bits32 v).length = 32 := by simp [bits32]

@[simp] theorem bits8_length (v : Byte) : (bits8 v).length = 8 := by simp [bits8]

/-- len(frame(L, cp)) of rule R110. -/
@[simp] theorem frame_length (len : Word) (cps : List Byte) : (frame len cps).length = 32 + 8 * cps.length := by
  induction cps with
  | nil => simp [frame]
  | cons v vs ih => simp [frame] at ih ⊢; omega

@[simp] theorem frameBytes_length (len : Word) (cps : List Byte) :
    (frameBytes len cps).length = 4 + cps.length := by simp [frameBytes]; omega

theorem framePayload_ok {s : State} {cps : List Byte} (h : framePayload s = .ok cps) :
    s.payLen.toNat ≤ s.cfg.payDepth ∧ cps.length = s.payLen.toNat := by
  unfold framePayload at h
  split at h
  · cases h
  · exact ⟨by omega, readCodePoints_length h⟩

/-- Every commit stays inside the spaces. -/
theorem planOf_ok_bounds {i : Instr} {s : State} {c : Commit} (h : planOf i s = .ok c) :
    c.raster.length ≤ s.cfg.rasterBytes ∧ c.bitbuf.length ≤ s.cfg.bitbufBytes ∧
    c.payload.length ≤ s.cfg.payDepth := by
  cases i
  case encode =>
    simp only [planOf, planEncode] at h
    (repeat' split at h) <;> try cases h
    rename_i cps hcps _
    have := (framePayload_ok hcps).2
    simp; omega
  case decode =>
    simp only [planOf, planDecode] at h
    (repeat' split at h) <;> try cases h
    simp; omega
  case embed =>
    simp only [planOf, planEmbed] at h
    (repeat' split at h) <;> try cases h
    rename_i bits hbits _ _ hvs
    have h1 := embedRun_length hvs
    have h2 := getbits_length hbits
    simp; omega
  case extract =>
    simp only [planOf, planExtract] at h
    (repeat' split at h) <;> try cases h
    simp [frameLen, lenBits, cpBits]; omega
  case encodeEmbed =>
    simp only [planOf, planEncodeEmbed] at h
    (repeat' split at h) <;> try cases h
    rename_i cps hcps _ _ _ _ hvs
    have h1 := embedRun_length hvs
    have h2 := (framePayload_ok hcps).2
    simp [frameLen, lenBits, cpBits] at *; omega
  case extractDecode =>
    simp only [planOf, planExtractDecode] at h
    (repeat' split at h) <;> try cases h
    simp; omega

/-! ## Register writes -/

/-- Everything a register write can do (rules R22 to R36). -/
theorem regWrite_cases (off : BitVec 6) (v : Word) (s : State) :
    regWrite off v s = s ∨ regWrite off v s = statusWrite v s ∨ regWrite off v s = ctrlWrite v s ∨
    (s.busy = true ∧ regWrite off v s = dropWrite s) ∨
    (s.busy = false ∧ (regWrite off v s = launch v s ∨
      ∃ w h p b, regWrite off v s = { s with width := w, height := h, payLen := p, bitLen := b })) := by
  unfold regWrite
  split
  · by_cases hb : s.busy = true
    · exact .inr (.inr (.inr (.inl ⟨hb, by simp [cmdWrite, hb]⟩)))
    · exact .inr (.inr (.inr (.inr ⟨by simpa using hb, .inl (by simp [cmdWrite, hb])⟩)))
  · exact .inr (.inl rfl)
  · exact .inr (.inr (.inl rfl))
  all_goals first
    | exact .inl rfl
    | (by_cases hb : s.busy = true
       · exact .inr (.inr (.inr (.inl ⟨hb, by simp [operandWrite, hb]⟩)))
       · exact .inr (.inr (.inr (.inr ⟨by simpa using hb, .inr ⟨_, _, _, _, by
           simp only [operandWrite, hb]; rfl⟩⟩))))

/-- A launch of a legal word, and of an illegal one (rule R25). -/
theorem launch_cases (v : Word) (s : State) :
    (legal v = true ∧ launch v s = afterLaunch v s) ∨
    (legal v = false ∧ launch v s = { recordError .illegal s with busy := s.busy }) := by
  by_cases h : legal v = true
  · exact .inl ⟨h, by simp [launch, h, afterLaunch, clearRecord, opField]⟩
  · exact .inr ⟨by simpa using h, by simp [launch, h, clearRecord, recordError]⟩

/-! ## One step -/

/-- Everything one step can be: a refusal of the configuration, the host's turn, the engine's turn or a reset. -/
theorem step_cases (s : State) :
    (configAdmitted s.cfg = false ∧ step s = .refused .configurationNotAdmitted) ∨
    (∃ ts, step s = hostTurn { s with turns := ts }) ∨
    (∃ ts, step s = engineTurn { s with turns := ts }) ∨
    (∃ ts, step s = .next (resetMachine { s with turns := ts })) := by
  by_cases hc : configAdmitted s.cfg = true
  · right
    simp only [step, hc, if_true, scheduledStep]
    split
    · rename_i a rest _
      cases a
      · exact .inl ⟨rest, rfl⟩
      · exact .inr (.inl ⟨rest, rfl⟩)
      · exact .inr (.inr ⟨rest, rfl⟩)
    · unfold defaultTurn
      split
      · exact .inr (.inl ⟨s.turns, rfl⟩)
      · exact .inl ⟨s.turns, rfl⟩
  · exact .inl ⟨by simpa using hc, by simp [step, hc]⟩

end Sys2Proof.Machine
end

