-- ==== Sys2Proof/Laws/Commands.lean ====
section
/-! SUPPORT. Lemmas about command words, and about what the commands compute from their operands: the framer, the
channels and the error codes. -/

namespace Sys2Proof.Machine

/-! ## Command words -/

/-- A word is its two fields (rule R91). -/
theorem word_of_fields (v : Word) : v = ((rsvdField v).setWidth 32 <<< 4) ||| (opField v).setWidth 32 := by
  apply BitVec.eq_of_getLsbD_eq; intro i hi
  simp only [rsvdField, opField, BitVec.getLsbD_or, BitVec.getLsbD_shiftLeft, BitVec.getLsbD_setWidth,
      BitVec.getLsbD_extractLsb']
  by_cases h : i < 4
  · simp [h, hi]
  · simp [h, hi, show i - 4 < 28 by omega, show 4 + (i-4) = i by omega, show i - 4 < 32 by omega]

/-- The opcode map is one-to-one (rule R92). -/
theorem decodeOp_some {op : BitVec 4} {i} (h : decodeOp op = some i) : op = opcode i := by
  revert op i; decide

/-- A word is legal exactly when it decodes (rule R93). -/
theorem legal_iff (v : Word) : legal v = true ↔ ∃ i, decode v = .ok i := by
  unfold legal; split <;> simp_all

/-- The opcode a legal launch latches is one of a command. -/
theorem legal_op {v} (h : legal v = true) : (decodeOp (v.extractLsb' 0 4)).isSome = true := by
  unfold legal decode at h
  split at h
  · rename_i heq
    split at heq
    · split at heq
      · rename_i hd; simp only [opField] at hd; simp [hd]
      · cases heq
    · cases heq
  · cases h

/-- The word of a command is legal. -/
theorem legal_encode (i : Instr) : legal (encode i) = true := by cases i <;> decide

/-- The opcode a launch of an instruction latches decodes to it. -/
theorem decodeOp_encode (i : Instr) : decodeOp ((encode i).extractLsb' 0 4) = some i := by cases i <;> decide

/-! ## Operands and results -/

/-- A payload longer than PAYLOAD: BOUNDS(PAYLOAD) (rule R111). -/
theorem framePayload_too_long {s : State} (h : s.cfg.payDepth < s.payLen.toNat) :
    framePayload s = .error (.raise (.bounds .payload)) := by
  simp [framePayload, h]

/-- The lowest code point above 0xFF is the one reported (rule R184). -/
theorem framePayload_codepoint {s : State} (h : s.payLen.toNat ≤ s.cfg.payDepth) (cp : Nat → Word) (i)
    (hi : i < s.payLen.toNat)
    (hh : HoldsWords s.payload (i+1) cp) (hl : ∀ j, j < i → (cp j).toNat ≤ 0xFF) (hb : 0xFF < (cp i).toNat) :
   framePayload s = .error (.raise (.codepoint i)) := by
  rw [framePayload, if_neg (by omega)]
  have := readCodePoints_raise s.payload cp s.payLen.toNat 0 i hi (fun j hj => by simpa using ⟨hh j (by omega),
      hl j hj⟩) (by simpa using hh i (by omega)) (by simpa using hb)
  simpa using this

/-- A payload of legal code points, as the framer reads it. -/
theorem framePayload_legal_words {s : State} (h : s.payLen.toNat ≤ s.cfg.payDepth) (cp : Nat → Word)
   (hh : HoldsWords s.payload s.payLen.toNat cp) (hl : ∀ j, j < s.payLen.toNat → (cp j).toNat ≤ 0xFF) :
   framePayload s = .ok ((List.range s.payLen.toNat).map fun j => (cp j).setWidth 8) := by
  rw [framePayload, if_neg (by omega)]
  have := readCodePoints_legal s.payload cp s.payLen.toNat 0 (fun j hj => by simpa using ⟨hh j (by omega), hl j hj⟩)
  simpa using this

/-- What a framed payload says of PAYLOAD. -/
theorem framePayload_legal {s : State} {cps} (h : framePayload s = .ok cps) : s.payLen.toNat ≤ s.cfg.payDepth ∧
    ∃ cp : Nat → Word, HoldsWords s.payload s.payLen.toNat cp ∧ (∀ j, j < s.payLen.toNat → (cp j).toNat ≤ 0xFF) ∧
    cps = (List.range s.payLen.toNat).map fun j => (cp j).setWidth 8 := by
  refine ⟨(framePayload_ok h).1, ?_⟩
  have h2 := (framePayload_ok h).1
  rw [framePayload, if_neg (by omega)] at h
  rcases readCodePoints_cases s.payload s.payLen.toNat 0 with ⟨f, hf, hk⟩ | ⟨f, j, -, -, -, -, hk⟩ | ⟨f, j, -, -,
      -, hk⟩
  · simp at hf hk
    rw [hk] at h; injection h with h
    exact ⟨f, fun a ha => (hf a ha).1, fun a ha => (hf a ha).2, h.symm⟩
  · rw [hk] at h; cases h
  · rw [hk] at h; cases h

/-- The bytes of a frame (rule R67). -/
theorem frameBytes_getElem (len : Word) (cps : List Byte) (a : Nat) (h : a < 4 + cps.length) :
   (frameBytes len cps)[a]'(by simpa using h) = if ha : a < 4 then len.extractLsb' (24 - 8 * a) 8 else
       cps[a - 4]'(by omega) := by
  unfold frameBytes
  rcases a with _ | _ | _ | _ | a
  · rfl
  · rfl
  · rfl
  · rfl
  · simp

/-- The big-endian prefix of four bytes (rule R69). -/
theorem bytePrefix_eq (b : Nat → Byte) : be32 ((List.range 32).map fun j => packedBit b j) 0 = bytePrefix b := by
  rw [be32, beAt_range _ _ _ _ (by omega)]
  have h : ∀ (v : Byte), v.toNat = (v.getLsbD 7).toNat * 128 + (v.getLsbD 6).toNat * 64 + (v.getLsbD 5).toNat * 32+
      (v.getLsbD 4).toNat * 16+ (v.getLsbD 3).toNat * 8+ (v.getLsbD 2).toNat * 4+ (v.getLsbD 1).toNat * 2+
      (v.getLsbD 0).toNat := by decide
  rw [beValue_range, bytePrefix]
  simp [Finset.sum_range_succ, packedBit]
  rw [h (b 0), h (b 1), h (b 2), h (b 3)]
  simp
  ring

/-- A prefix has 32 bits. -/
theorem bytePrefix_lt (b) : bytePrefix b < 2^32 := by rw [← bytePrefix_eq]; exact be32_lt _ _

/-- The prefix of the four bytes of a word is the word. -/
theorem bytePrefix_of_bytes (L : Word) (b : Nat → Byte) (h : ∀ a, a < 4 → b a = L.extractLsb' (24 - 8*a) 8) :
    bytePrefix b = L.toNat := by
  simp [bytePrefix, Finset.sum_range_succ]
  rw [h 0 (by omega), h 1 (by omega), h 2 (by omega), h 3 (by omega)]
  simp [BitVec.extractLsb'_toNat, Nat.shiftRight_eq_div_pow]
  have := L.isLt
  omega

/-- Bits of written BITBUF bytes (rule R66). -/
theorem getbits_range (m : Memory) (b : Nat → Byte) (n bytes k : Nat) (h : Holds m bytes b) (hn : k + n ≤ 8 * bytes) :
   getbits m k n = .ok ((List.range n).map fun j => packedBit b (k+j)) := 
  getbits_written m b n k fun j hj => h _ (by omega)

/-- The bits of a byte, most significant first. -/
theorem bits8_getElem (v : Byte) (m : Nat) (h : m < 8) : (bits8 v)[m]'(by simpa using h) =
    v.getLsbD (7 - m) := by simp [bits8]

/-- The bits of a run of bytes. -/
theorem flatMap_bits8_getElem (cps : List Byte) (k : Nat) (h : k < 8 * cps.length) : (cps.flatMap bits8)[k]? =
    some ((cps[k/8]'(by omega)).getLsbD (7 - k % 8)) := by
  induction cps generalizing k with
  | nil => simp at h
  | cons v vs ih =>
    rw [List.flatMap_cons]
    by_cases hk : k < 8
    · rw [List.getElem?_append_left (by simpa using hk)]
      rw [List.getElem?_eq_getElem (by simpa using hk), bits8_getElem _ _ hk]
      simp [show k / 8 = 0 by omega, show k % 8 = k by omega]
    · rw [List.getElem?_append_right (by simpa using hk)]
      simp at h
      rw [bits8_length, ih (k - 8) (by omega)]
      simp only [show k / 8 = (k-8)/8 + 1 by omega, List.getElem_cons_succ, show k % 8 = (k-8)%8 by omega]

/-- frame(L, cp), bit by bit (rule R110). -/
theorem frame_getElem (len : Word) (cps : List Byte) (k : Nat) (h : k < 32 + 8 * cps.length) :
   (frame len cps)[k]'(by simpa using h) = if hk : k < 32 then len.getLsbD (31 - k) else
       (cps[(k-32)/8]'(by omega)).getLsbD (7 - (k-32)%8) := by
  have : (frame len cps)[k]? = some (if hk : k < 32 then len.getLsbD (31 - k) else
      (cps[(k-32)/8]'(by omega)).getLsbD (7 - (k-32)%8)) := by
    unfold frame
    by_cases hk : k < 32
    · rw [List.getElem?_append_left (by simpa using hk)]; simp [hk, bits32]
    · rw [List.getElem?_append_right (by simpa using hk), bits32_length,
        flatMap_bits8_getElem _ _ (by omega)]; simp [hk]
  exact (List.getElem?_eq_some_iff.1 this).2

/-- The LSB after a substitution is the bit substituted. -/
theorem lsb_lsbSub (v : Byte) (b : Bool) : lsb ((v &&& 0xFE#8) ||| (if b then 0x01#8 else 0x00#8)) = b := by
  revert v b; decide

/-- Flipping the LSB of a channel. -/
theorem lsb_flip (v : Byte) : lsb (v ^^^ 0x01#8) = !lsb v := by
  unfold lsb; simp

/-- The bits of the scan after the first o. -/
theorem lsbBits_drop (c : Nat → Byte) (n o : Nat) : (lsbBits c (o+n)).drop o =
    (List.range n).map fun k => lsb (c (o + k)) := by
  unfold lsbBits
  apply List.ext_getElem
  · simp
  · intro i h1 h2; simp

/-- A payload byte of the extracted bits. -/
theorem be8_payload_bits (c : Nat → Byte) (n a : Nat) (ha : a < n) :
   BitVec.setWidth 32 (be8 ((lsbBits c (32 + 8 * n)).drop 32) (8 * a)) = BitVec.ofNat 32 (lsbByte c (32 +
       8 * a)) := by
  rw [lsbBits_drop]
  have h := be8_lsbBits (fun k => c (32 + k)) (8 * n) (8*a) (by omega)
  rw [lsbBits] at h; rw [h]
  have h2 : lsbByte (fun k => c (32 + k)) (8*a) = lsbByte c (32 + 8*a) := by simp [lsbByte, Nat.add_assoc]
  rw [h2]
  apply BitVec.eq_of_toNat_eq
  have := lsbByte_lt c (32+8*a)
  rw [BitVec.toNat_setWidth, BitVec.toNat_ofNat, BitVec.toNat_ofNat]
  omega

/-- EXTRACT_DECODE up to its commit, when every check passes. -/
theorem planExtractDecode_ok (s : State) (c : Nat → Byte) (cap : Nat) (hc : rasterCapacity s = cap)
    (h : cap ≤ s.cfg.rasterBytes) (hh : Holds s.raster (extractReads cap c) c) (h3 : 32 + 8 * lsbPrefix c ≤ cap)
    (h4 : lsbPrefix c ≤ s.cfg.payDepth) :
    planExtractDecode s = .ok {
      payload :=
        (packBytes ((lsbBits c (32 + 8 * lsbPrefix c)).drop 32) (lsbPrefix c)).map (BitVec.setWidth 32),
      payLen := some (BitVec.ofNat 32 (lsbPrefix c)) } := by
  have hs := scanFrom_start s.raster c cap hh
  rw [if_neg (by omega), if_neg (by omega)] at hs
  unfold planExtractDecode extractSequence
  rw [hc, if_neg (by omega), hs]
  simp only
  rw [be32_lsbBits c _ (by omega), if_neg (by omega)]
  rfl

/-- The 32 bits of a word, most significant first, have its value. -/
theorem beValue_word (L : Word) (f : Nat → Bool) (h : ∀ k, k < 32 → f k = L.getLsbD (31 - k)) :
    beValue ((List.range 32).map f) = L.toNat := by
  rw [← beValue_bits L]
  congr 1
  apply List.map_congr_left
  intro a ha; rw [h a (by simpa using ha)]

/-- The declared length as a big-endian value. -/
theorem lsbPrefix_eq (c : Nat → Byte) : lsbPrefix c = beValue ((List.range 32).map fun k => lsb (c k)) := by
  rw [beValue_range, lsbPrefix]; refine Finset.sum_congr rfl fun m _ => ?_; rw [lsb_toNat]

/-- A byte of channel LSBs as a big-endian value. -/
theorem lsbByte_eq (c : Nat → Byte) (o) : lsbByte c o = beValue ((List.range 8).map fun k => lsb (c (o+k))) := by
  rw [beValue_range, lsbByte]; refine Finset.sum_congr rfl fun m _ => ?_; rw [lsb_toNat]

/-- The payload bytes of channels that carry a frame. -/
theorem lsbByte_frame (c' : Nat → Byte) (L : Word) (cp : Nat → Word) (hlsb : ∀ k, lsb (c' k) = frameBit L cp k)
    (a : Nat) (hla : (cp a).toNat ≤ 0xFF) : lsbByte c' (32 + 8*a) = (cp a).toNat := by
  rw [lsbByte_eq]
  have h8 : (cp a).toNat = ((cp a).setWidth 8).toNat := by simp; omega
  rw [h8, ← beValue_bits ((cp a).setWidth 8)]
  congr 1
  apply List.map_congr_left
  intro m hm
  have hm : m < 8 := by simpa using hm
  rw [hlsb]
  simp only [frameBit, show ¬ (32 + 8 * a + m < 32) by omega, if_false]
  rw [show (32 + 8*a + m - 32)/8 = a by omega, show (32 + 8*a + m - 32)%8 = m by omega]
  simp; omega

/-- The bits of a byte packed from channel LSBs. -/
theorem packed_lsbByte (c : Nat → Byte) (j m : Nat) (hm : m < 8) :
    (BitVec.ofNat 8 (lsbByte c (8*j))).getLsbD (7 - m) = lsb (c (8*j+m)) := by
  have h : BitVec.ofNat 8 (lsbByte c (8*j)) = be8 (lsbBits c (8*j+8)) (8*j) := (be8_lsbBits _ _ _ le_rfl).symm
  -- byte with given bits
  let v : Byte := BitVec.ofFnLE fun i : Fin 8 => lsb (c (8*j + (7 - i.val)))
  have hv : ∀ m, m < 8 → lsb (c (8*j+m)) = v.getLsbD (7-m) := by
    intro m hm
    simp only [v]
    rw [BitVec.getLsbD_eq_getElem (by omega), BitVec.getElem_ofFnLE]
    simp [show 7 - (7 - m) = m by omega]
  rw [h, lsbBits, be8_bits (fun k => lsb (c k)) _ _ v le_rfl hv, hv m hm]

/-- Reading a cell raises no error. -/
theorem readCell_not_raise {sp} {m : Memory} {a e} : readCell sp m a ≠ .error (.raise e) := by
  unfold readCell definedCell; split <;> simp

/-- Reading a bit raises no error. -/
theorem getbit_not_raise {m a e} : getbit m a ≠ .error (.raise e) := by
  unfold getbit; split
  · rename_i x hx; intro h; cases h; exact readCell_not_raise hx
  · simp

/-- A command at completion raises codes 1 to 5 (rule R181). -/
theorem planOf_error_code {i : Instr} {s : State} {e} (h : planOf i s = .error (.raise e)) :
    1 ≤ (errorCode e).toNat ∧ (errorCode e).toNat ≤ 5 := by
  have : e ≠ .illegal := by
    rintro rfl
    have hcp : ∀ n k, readCodePoints s.payload k n ≠ .error (.raise .illegal) := by
      intro n k hh
      rcases readCodePoints_cases s.payload n k with ⟨f, -, h⟩ | ⟨f, j, -, -, -, -, h⟩ | ⟨f, j, -, -, -, h⟩ <;>
          rw [h] at hh <;> cases hh
    have hgb : ∀ n k e, getbits s.bitbuf k n ≠ .error (.raise e) := by
      intro n
      induction n with
      | zero => intro k e hh; cases hh
      | succ n ih =>
        intro k e hh
        simp only [getbits] at hh
        split at hh
        · rename_i x hx; cases hh; exact getbit_not_raise hx
        · split at hh
          · rename_i hx; cases hh; exact ih _ _ hx
          · cases hh
    have her : ∀ bits k e, embedRun s.raster k bits ≠ .error (.raise e) := by
      intro n
      induction n with
      | nil => intro k e hh; cases hh
      | cons b n ih =>
        intro k e hh
        simp only [embedRun] at hh
        split at hh
        · rename_i x hx; cases hh; exact readCell_not_raise hx
        · split at hh
          · rename_i hx; cases hh; exact ih _ _ hx
          · cases hh
    have hscan : scanFrom s.raster 0 Scan.start (rasterCapacity s) ≠ .error (.raise .illegal) := by
      rcases scanFrom_start_cases s.raster (rasterCapacity s) with ⟨c, hc⟩ | ⟨a, ha, -⟩
      · rw [scanFrom_start _ _ _ hc]; split_ifs <;> simp
      · rw [ha]; simp
    cases i <;> simp only [planOf, planEncode, planDecode, planEmbed, planExtract, planEncodeEmbed,
        planExtractDecode, framePayload, extractSequence] at h <;>
     (repeat' split at h) <;> (try cases h) <;> (repeat' split at *) <;> simp_all
  cases e <;> simp [errorCode] at this ⊢

/-- EMBED writes T channels. -/
theorem planEmbed_length {s c} (h : planEmbed s = .ok c) : c.raster.length = s.bitLen.toNat := by
  simp only [planEmbed] at h
  (repeat' split at h) <;> try cases h
  rename_i bits hbits _ _ hvs
  simp [embedRun_length hvs, getbits_length hbits]

end Sys2Proof.Machine
end

