-- ==== Sys2Proof/Laws/PerInstr.lean ====
section
/-! SUPPORT. One lemma per constructor of Instr for the family WordIsOpcode: what the command word of an instruction
looks like. -/

namespace Sys2Proof.Laws

/-- The command word of an instruction is its opcode with RSVD = 0 (rules R91, R92, R93), and it is well-formed, legal
and within its 32 bits as the opcode table numbers them. -/
def WordIsOpcode.Statement (i : Instr) : Prop :=
  opField (encode i) = opcode i ∧ rsvdField (encode i) = 0#28 ∧ wordWellFormed (encode i) = true ∧
    legal (encode i) = true ∧ decodeTableWord 32 (opcode i).toNat = some i

theorem WordIsOpcode.encode : WordIsOpcode.Statement .encode := by unfold WordIsOpcode.Statement; decide

theorem WordIsOpcode.decode : WordIsOpcode.Statement .decode := by unfold WordIsOpcode.Statement; decide

theorem WordIsOpcode.embed : WordIsOpcode.Statement .embed := by unfold WordIsOpcode.Statement; decide

theorem WordIsOpcode.extract : WordIsOpcode.Statement .extract := by unfold WordIsOpcode.Statement; decide

theorem WordIsOpcode.encodeEmbed : WordIsOpcode.Statement .encodeEmbed := by unfold WordIsOpcode.Statement; decide

theorem WordIsOpcode.extractDecode : WordIsOpcode.Statement .extractDecode := by unfold WordIsOpcode.Statement; decide

end Sys2Proof.Laws
end

