-- ==== Sys2Proof/Laws/Turns.lean ====
section
/-! SUPPORT. One lemma for each agent's turn that says everything it can do: the host's operation,
    the engine's turn and
a reset. -/

namespace Sys2Proof.Machine

theorem laneByte_lt (o : HostOrder) (lane : Fin 4) : laneByte o lane < 4 := by
  have := lane.isLt
  cases o <;> simp only [laneByte] <;> omega

/-- Everything a write at a port can do. -/
theorem portWrite_next {p v s t} (h : portWrite p v s = .next t) :
    (∃ off, t = regWrite off v s) ∨
    (s.busy = false ∧
      ((∃ k w, k < s.cfg.rasterBytes ∧ t = { s with raster := Memory.write s.raster k w }) ∨
       (∃ k w, k < s.cfg.bitbufBytes ∧ t = { s with bitbuf := Memory.write s.bitbuf k w }) ∨
       (∃ k w, k < 4 * s.cfg.payDepth ∧ t = { s with payload := Memory.write s.payload k w }) ∨
       (∃ k w, k < s.cfg.payDepth ∧ t = { s with payload := Memory.writeWord s.payload k w }))) := by
  have hm : ∀ sp k go, memoryAccess sp k s go = .next t → s.busy = false ∧ k < spaceSize s.cfg sp ∧ go = .next t := by
    intro sp k go h
    unfold memoryAccess at h
    by_cases hb : s.busy = true
    · simp [hb] at h
    · by_cases hk : k < spaceSize s.cfg sp
      · simp [hb, hk] at h; exact ⟨by simpa using hb, hk, h⟩
      · simp [hb, hk] at h
  cases p <;> simp only [portWrite] at h
  case reg w off =>
    split at h
    · injection h with h; exact .inl ⟨off, h.symm⟩
    · cases h
  case raster k =>
    obtain ⟨hb, hk, h⟩ := hm _ _ _ h; injection h with h
    exact .inr ⟨hb, .inl ⟨k, _, hk, h.symm⟩⟩
  case bitbuf k =>
    obtain ⟨hb, hk, h⟩ := hm _ _ _ h; injection h with h
    exact .inr ⟨hb, .inr (.inl ⟨k, _, hk, h.symm⟩)⟩
  case payload k =>
    obtain ⟨hb, hk, h⟩ := hm _ _ _ h; injection h with h
    exact .inr ⟨hb, .inr (.inr (.inr ⟨k, _, hk, h.symm⟩))⟩
  case payloadByte k lane =>
    obtain ⟨hb, hk, h⟩ := hm _ _ _ h; injection h with h
    have hl : laneIndex s.cfg.payloadHostOrder k lane < 4 * s.cfg.payDepth := by
      have := laneByte_lt s.cfg.payloadHostOrder lane
      have hk : k < s.cfg.payDepth := hk
      unfold laneIndex; omega
    exact .inr ⟨hb, .inr (.inr (.inl ⟨_, _, hl, h.symm⟩))⟩

/-- A read at a port changes nothing but the replies. -/
theorem portRead_next {p s t} (h : portRead p s = .next t) : ∃ w, t = reply w s := by
  have hm : ∀ sp k r, memoryAccess sp k s (replyCell sp k r s) = .next t → ∃ w, t = reply w s := by
    intro sp k r h
    unfold memoryAccess replyCell at h
    split at h; · cases h
    split at h
    · split at h
      · injection h with h; exact ⟨_, h.symm⟩
      · cases h
    · cases h
  cases p <;> simp only [portRead] at h
  case reg => 
    split at h
    · injection h with h; exact ⟨_, h.symm⟩
    · cases h
  all_goals exact hm _ _ _ h

/-- Everything a host operation can do to the state it runs on. -/
def PortEffect (s t : State) : Prop :=
  (∃ ops rs, t = { s with host := ops, replies := rs }) ∨ (∃ off v, t = regWrite off v s) ∨
  (s.busy = false ∧
    ((∃ k w, k < s.cfg.rasterBytes ∧ t = { s with raster := Memory.write s.raster k w }) ∨
     (∃ k w, k < s.cfg.bitbufBytes ∧ t = { s with bitbuf := Memory.write s.bitbuf k w }) ∨
     (∃ k w, k < 4 * s.cfg.payDepth ∧ t = { s with payload := Memory.write s.payload k w }) ∨
       (∃ k w, k < s.cfg.payDepth ∧ t = { s with payload := Memory.writeWord s.payload k w })))

/-- Everything one host operation can do. -/
theorem hostOp_next {op s t} (h : hostOp op s = .next t) : PortEffect s t := by
  have gw : ∀ p v, portWrite p v s = .next t → PortEffect s t := fun p v h => by
    rcases portWrite_next h with ⟨off, h⟩ | h
    · exact .inr (.inl ⟨off, v, h⟩)
    · exact .inr (.inr h)
  have gr : ∀ p, portRead p s = .next t → PortEffect s t := fun p h => by
    obtain ⟨w, h⟩ := portRead_next h; exact .inl ⟨_, _, h⟩
  cases op <;> simp only [hostOp] at h
  case write p v => exact gw p v h
  case read p => exact gr p h
  case busWrite =>
    split at h
    · exact gw _ _ h
    · cases h
  case busRead =>
    split at h
    · exact gr _ h
    · cases h
  case wait =>
    injection h with h
    unfold waitPoll at h
    split at h
    · exact .inl ⟨_, _, h.symm⟩
    · exact .inl ⟨_, _, h.symm⟩

/-- Everything the host's turn can do. -/
theorem hostTurn_next {s t} (h : hostTurn s = .next t) : ∃ ops, PortEffect { s with host := ops } t := by
  unfold hostTurn at h
  split at h
  · injection h with h; exact ⟨s.host, .inl ⟨_, _, h.symm⟩⟩
  · exact ⟨_, hostOp_next h⟩

/-- A register write touches no memory, no parameter and no agent. -/
theorem regWrite_frame (off v s) : (regWrite off v s).raster = s.raster ∧ (regWrite off v s).bitbuf = s.bitbuf ∧
   (regWrite off v s).payload = s.payload ∧ (regWrite off v s).cfg = s.cfg ∧ (regWrite off v s).host = s.host ∧
       (regWrite off v s).turns = s.turns ∧ (regWrite off v s).replies = s.replies := by
  rcases regWrite_cases off v s with h | h | h | ⟨_, h⟩ | ⟨_, h | ⟨w, hh, p, b, h⟩⟩ <;> rw [h]
  · simp
  · simp [statusWrite]
  · simp [ctrlWrite]
  · simp [dropWrite]
  · rcases launch_cases v s with ⟨_, h⟩ | ⟨_, h⟩ <;> rw [h] <;> simp [afterLaunch, recordError]
  · simp

/-- A register write keeps the STATUS invariants (rule R28). -/
theorem StatusInv_regWrite {off v s} (hi : StatusInv s) : StatusInv (regWrite off v s) := by
  obtain ⟨h1, h2, h3, h4⟩ := hi
  rcases regWrite_cases off v s with h | h | h | ⟨_, h⟩ | ⟨hb, h | ⟨w, hh, p, b, h⟩⟩ <;> rw [h]
  · exact ⟨h1, h2, h3, h4⟩
  · refine ⟨?_, fun hb => ?_, h3, h4⟩
    · simp only [statusWrite]; revert h1; cases s.done <;> cases s.err <;> simp
    · have := h2 hb; simp [statusWrite, this]
  · exact ⟨h1, h2, h3, h4⟩
  · exact ⟨h1, h2, h3, h4⟩
  · rcases launch_cases v s with ⟨hl, h⟩ | ⟨_, h⟩ <;> rw [h]
    · exact ⟨by simp [afterLaunch], fun _ => by simp [afterLaunch], by simp [afterLaunch], fun _ => legal_op hl⟩
    · exact ⟨by simp [recordError], fun h => by simp [hb] at h, by simp [recordError, errorCode],
        fun h => by simp [hb] at h⟩
  · exact ⟨h1, h2, h3, h4⟩

/-- Everything the engine's turn can do. -/
theorem engineTurn_next {s t} (h : engineTurn s = .next t) : (s.busy = false ∧ t = s) ∨ (s.busy = true ∧ ∃ i,
    decodeOp s.curOp = some i ∧ exec i s = .next t) := by
  unfold engineTurn at h
  split at h
  · split at h
    · exact .inr ⟨‹_›, _, ‹_›, h⟩
    · cases h
  · rename_i hb; injection h with h; exact .inl ⟨by simpa using hb, h.symm⟩

/-- A reset only forgets cells of the memories. -/
theorem resetMachine_memories (s) : ∃ a b c, (resetMachine s).raster = Memory.eraseBelow s.raster a ∧
    (resetMachine s).bitbuf = Memory.eraseBelow s.bitbuf b ∧ (resetMachine s).payload =
    Memory.eraseBelow s.payload c := by
  unfold resetMachine resetMemories
  split
  · split
    · exact ⟨_, _, _, rfl, rfl, rfl⟩
    · exact ⟨0, 0, 0, by simp [resetRegisters]⟩
  · exact ⟨0, 0, 0, by simp [resetRegisters]⟩

end Sys2Proof.Machine
end

