-- ==== Sys2Proof/Laws/Reset.lean ====
section
/-! SUPPORT. What a reset while BUSY = 1 forgets (rule R213): the lengths that written and unwritten cells may declare,
and the longest of them. -/

namespace Sys2Proof.Machine

/-! ## The largest length -/

/-- The largest length: it has the property, and no larger one up to the bound does. -/
theorem largestUpTo_some {p : Nat → Bool} {n k : Nat} (h : largestUpTo p n = some k) :
    p k = true ∧ k ≤ n ∧ ∀ j, k < j → j ≤ n → p j = false := by
  induction n with
  | zero =>
    simp only [largestUpTo] at h
    split at h
    · injection h with h; subst h; exact ⟨‹_›, le_rfl, fun j h1 h2 => by omega⟩
    · cases h
  | succ n ih =>
    simp only [largestUpTo] at h
    split at h
    · injection h with h; subst h; exact ⟨‹_›, le_rfl, fun j h1 h2 => by omega⟩
    · rename_i hp
      obtain ⟨h1, h2, h3⟩ := ih h
      refine ⟨h1, by omega, fun j hj hn => ?_⟩
      by_cases he : j = n + 1
      · subst he; exact Bool.eq_false_iff.2 hp
      · exact h3 j hj (by omega)

/-- A length with the property is at most the largest one. -/
theorem le_largestUpTo {p : Nat → Bool} {n k : Nat} (hp : p k = true) (hk : k ≤ n) :
    ∃ j, largestUpTo p n = some j ∧ k ≤ j := by
  induction n with
  | zero =>
    obtain rfl : k = 0 := by omega
    exact ⟨0, by simp [largestUpTo, hp], le_rfl⟩
  | succ n ih =>
    simp only [largestUpTo]
    by_cases h : p (n + 1) = true
    · exact ⟨n + 1, by rw [if_pos h], hk⟩
    · rw [if_neg h]
      exact ih (by by_contra hc; exact h (by rwa [show n + 1 = k by omega]))

/-- The longest payload where the operands declare one length alone. -/
theorem longestPayload_unique {p : Nat → Bool} {len : Nat} (bound : Nat) (hl : len < 2 ^ 32) (hp : p len = true)
    (hu : ∀ j, j < 2 ^ 32 → p j = true → j = len) :
    longestPayload p bound = if len ≤ bound then some len else none := by
  unfold longestPayload
  split
  · obtain ⟨j, hj, -⟩ := le_largestUpTo (n := min bound (2 ^ 32 - 1)) hp (by omega)
    obtain ⟨h1, h2, -⟩ := largestUpTo_some hj
    rw [hj, hu j (by omega) h1]
  · cases hj : largestUpTo p (min bound (2 ^ 32 - 1)) with
    | none => rfl
    | some j =>
      obtain ⟨h1, h2, -⟩ := largestUpTo_some hj
      have := hu j (by omega) h1
      omega

/-- The same as DECODE's and EXTRACT_DECODE's write sets use it: a sequence of x bits, a bound of words. -/
theorem longestPayload_getD {p : Nat → Bool} {len : Nat} (words x : Nat) (hx : 32 ≤ x) (hl : len < 2 ^ 32)
    (hp : p len = true) (hu : ∀ j, j < 2 ^ 32 → p j = true → j = len) :
    (longestPayload p (min words ((x - lenBits) / cpBits))).getD 0 =
      if 32 + 8 * len ≤ x ∧ len ≤ words then len else 0 := by
  simp only [lenBits, cpBits]
  rw [longestPayload_unique _ hl hp hu]
  by_cases h : 32 + 8 * len ≤ x ∧ len ≤ words
  · rw [if_pos h, if_pos (by omega)]; rfl
  · rw [if_neg h, if_neg (by omega)]; rfl

/-- A length that the operands may declare is at most the longest payload. -/
theorem le_longestPayload {p : Nat → Bool} {len bound : Nat} (hl : len < 2 ^ 32) (hb : len ≤ bound)
    (hp : p len = true) : ∃ j, longestPayload p bound = some j ∧ len ≤ j :=
  le_largestUpTo hp (by omega)

/-! ## What cells may hold -/

/-- A cell may hold what any contents that keep its value give it. -/
theorem mayHold_of_read {m m' : Memory} {a : Nat} {b : Byte}
    (he : ∀ a v, Memory.read m a = some v → Memory.read m' a = some v) (h : Memory.read m' a = some b) :
    mayHold m a b = true := by
  unfold mayHold
  split
  · rename_i v hv
    have := he a v hv
    rw [h] at this; injection this with this; simp [this]
  · rfl

/-- The same of a channel's LSB. -/
theorem mayHaveLsb_of_read {m m' : Memory} {k : Nat} {v : Byte}
    (he : ∀ a v, Memory.read m a = some v → Memory.read m' a = some v) (h : Memory.read m' k = some v) :
    mayHaveLsb m k (lsb v) = true := by
  unfold mayHaveLsb
  split
  · rename_i w hw
    have := he k w hw
    rw [h] at this; injection this with this; simp [this]
  · rfl

/-- The bytes of the prefix are those of the word it declares (rule R67). -/
theorem bytePrefix_bytes (b : Nat → Byte) {j : Nat} (hj : j < 4) :
    b j = (BitVec.ofNat 32 (bytePrefix b)).extractLsb' (24 - 8 * j) 8 := by
  obtain ⟨⟨e0, e1⟩, e2, e3⟩ := bytes_of_word (b 0) (b 1) (b 2) (b 3)
  have h : bytePrefix b = (b 0 ++ b 1 ++ b 2 ++ b 3 : Word).toNat := by
    apply bytePrefix_of_bytes
    intro a ha
    interval_cases a <;> simp only [Nat.reduceMul, Nat.reduceSub]
    · exact e3.symm
    · exact e2.symm
    · exact e1.symm
    · exact e0.symm
  rw [h, BitVec.ofNat_toNat, BitVec.setWidth_eq]
  interval_cases j <;> simp only [Nat.reduceMul, Nat.reduceSub]
  · exact e3.symm
  · exact e2.symm
  · exact e1.symm
  · exact e0.symm

/-- The LSBs of the first 32 channels are the bits of the word they declare (rule R132). -/
theorem lsbPrefix_bits (c : Nat → Byte) {k : Nat} (hk : k < 32) :
    lsb (c k) = (BitVec.ofNat 32 (lsbPrefix c)).getLsbD (31 - k) := by
  let v : Word := BitVec.ofFnLE fun i : Fin 32 => lsb (c (31 - i.val))
  have hv : ∀ k, k < 32 → lsb (c k) = v.getLsbD (31 - k) := by
    intro k hk
    simp only [v]
    rw [BitVec.getLsbD_eq_getElem (by omega), BitVec.getElem_ofFnLE]
    simp [show 31 - (31 - k) = k by omega]
  rw [lsbPrefix_eq, beValue_word v _ hv, BitVec.ofNat_toNat, BitVec.setWidth_eq]
  exact hv k hk

/-- BITBUF may declare the length that any contents of its undefined bytes declare, -/
theorem mayDeclare_of_holds {m m' : Memory} {b : Nat → Byte}
    (he : ∀ a v, Memory.read m a = some v → Memory.read m' a = some v) (h : Holds m' 4 b) :
    mayDeclare m (bytePrefix b) = true := by
  simp only [mayDeclare, List.all_eq_true, List.mem_range]
  intro j hj
  rw [← bytePrefix_bytes b hj]
  exact mayHold_of_read he (h j hj)

/-- and no other where its first four bytes are written. -/
theorem mayDeclare_unique {m : Memory} {b : Nat → Byte} (h : Holds m 4 b) {len : Nat} (hl : len < 2 ^ 32)
    (hm : mayDeclare m len = true) : len = bytePrefix b := by
  simp only [mayDeclare, List.all_eq_true, List.mem_range] at hm
  have := bytePrefix_of_bytes (BitVec.ofNat 32 len) b fun a ha => by
    have := hm a ha
    simpa [mayHold, h a ha] using this
  rw [this, BitVec.toNat_ofNat, Nat.mod_eq_of_lt hl]

/-- The raster may carry the length that any contents of its undefined channels carry, -/
theorem mayCarry_of_holds {m m' : Memory} {c : Nat → Byte}
    (he : ∀ a v, Memory.read m a = some v → Memory.read m' a = some v) (h : Holds m' 32 c) :
    mayCarry m (lsbPrefix c) = true := by
  simp only [mayCarry, List.all_eq_true, List.mem_range]
  intro k hk
  rw [← lsbPrefix_bits c hk]
  exact mayHaveLsb_of_read he (h k hk)

/-- and no other where its first 32 channels are written. -/
theorem mayCarry_unique {m : Memory} {c : Nat → Byte} (h : Holds m 32 c) {len : Nat} (hl : len < 2 ^ 32)
    (hm : mayCarry m len = true) : len = lsbPrefix c := by
  simp only [mayCarry, List.all_eq_true, List.mem_range] at hm
  rw [lsbPrefix_eq, beValue_word (BitVec.ofNat 32 len) _ fun k hk => by
    have := hm k hk
    simpa [mayHaveLsb, h k hk] using this]
  rw [BitVec.toNat_ofNat, Nat.mod_eq_of_lt hl]

/-- A word is a legal code point exactly when its upper three bytes are 0. -/
theorem word_legal_iff (w : Word) :
    w.toNat ≤ 0xFF ↔ w.extractLsb' 8 8 = 0#8 ∧ w.extractLsb' 16 8 = 0#8 ∧ w.extractLsb' 24 8 = 0#8 := by
  have e : ∀ k, w.extractLsb' k 8 = 0#8 ↔ w.toNat / 2 ^ k % 256 = 0 := by
    intro k
    rw [← BitVec.toNat_inj]
    simp [BitVec.extractLsb'_toNat, Nat.shiftRight_eq_div_pow]
  rw [e 8, e 16, e 24]
  have := w.isLt
  omega

/-- PAYLOAD may be legal where some contents of its undefined bytes are legal, -/
theorem mayBeLegal_of_holds {m m' : Memory} {n : Nat} {cp : Nat → Word}
    (he : ∀ a v, Memory.read m a = some v → Memory.read m' a = some v) (h : HoldsWords m' n cp)
    (hl : ∀ i, i < n → (cp i).toNat ≤ 0xFF) : mayBeLegal m n = true := by
  simp only [mayBeLegal, List.all_eq_true, List.mem_range, Bool.and_eq_true]
  intro i hi
  obtain ⟨-, h1, h2, h3⟩ := (Memory.readWord_eq_some _ _ _).1 (h i hi)
  obtain ⟨e1, e2, e3⟩ := (word_legal_iff _).1 (hl i hi)
  rw [e1] at h1; rw [e2] at h2; rw [e3] at h3
  exact ⟨⟨mayHold_of_read he h1, mayHold_of_read he h2⟩, mayHold_of_read he h3⟩

/-- and may not where a written word is above 0xFF. -/
theorem mayBeLegal_of_bad {m : Memory} {n i : Nat} {w : Word} (hi : i < n) (h : Memory.readWord m i = some w)
    (hb : 0xFF < w.toNat) : mayBeLegal m n = false := by
  by_contra hc
  simp only [mayBeLegal, Bool.not_eq_false, List.all_eq_true, List.mem_range, Bool.and_eq_true] at hc
  obtain ⟨-, h1, h2, h3⟩ := (Memory.readWord_eq_some _ _ _).1 h
  obtain ⟨⟨e1, e2⟩, e3⟩ := hc i hi
  simp only [mayHold, h1, h2, h3, beq_iff_eq] at e1 e2 e3
  have := (word_legal_iff w).2 ⟨e1, e2, e3⟩
  omega

/-! ## Contents of the undefined cells -/

/-- Every memory extends to one whose first n bytes are written: with f where it holds no value. -/
theorem Memory.exists_filled (m : Memory) (n : Nat) (f : Nat → Byte) :
    ∃ m', (∀ a v, Memory.read m a = some v → Memory.read m' a = some v) ∧
      Holds m' n fun a => (Memory.read m a).getD (f a) := by
  refine ⟨Memory.writeRun m 0 ((List.range n).map fun a => (Memory.read m a).getD (f a)), fun a v h => ?_,
    fun a ha => ?_⟩
  · rw [Memory.read_writeRun_zero]
    split
    · simp [h]
    · exact h
  · rw [Memory.read_writeRun_zero, dif_pos (by simpa using ha)]
    simp

/-- A cell that may hold b holds it once b fills it. -/
theorem getD_of_mayHold {m : Memory} {a : Nat} {b : Byte} (h : mayHold m a b = true) :
    (Memory.read m a).getD b = b := by
  unfold mayHold at h
  split at h
  · rename_i v hv; simpa [hv] using h
  · rename_i hv; simp [hv]

/-- BITBUF that may declare a length has contents, of any size n, that declare it. -/
theorem exists_holds_of_mayDeclare {m : Memory} {len : Nat} (n : Nat) (hl : len < 2 ^ 32)
    (h : mayDeclare m len = true) :
    ∃ m' b, (∀ a v, Memory.read m a = some v → Memory.read m' a = some v) ∧ Holds m' n b ∧ bytePrefix b = len := by
  obtain ⟨m', he, hh⟩ := Memory.exists_filled m n fun a => (BitVec.ofNat 32 len).extractLsb' (24 - 8 * a) 8
  refine ⟨m', _, he, hh, ?_⟩
  simp only [mayDeclare, List.all_eq_true, List.mem_range] at h
  rw [bytePrefix_of_bytes (BitVec.ofNat 32 len) _ fun a ha => getD_of_mayHold (h a ha), BitVec.toNat_ofNat,
    Nat.mod_eq_of_lt hl]

/-- A raster that may carry a length has contents, of any size n, that carry it. -/
theorem exists_holds_of_mayCarry {m : Memory} {len : Nat} (n : Nat) (hl : len < 2 ^ 32) (h : mayCarry m len = true) :
    ∃ m' c, (∀ a v, Memory.read m a = some v → Memory.read m' a = some v) ∧ Holds m' n c ∧ lsbPrefix c = len := by
  obtain ⟨m', he, hh⟩ := Memory.exists_filled m n fun k =>
    if (BitVec.ofNat 32 len).getLsbD (31 - k) then 1#8 else 0#8
  refine ⟨m', _, he, hh, ?_⟩
  simp only [mayCarry, List.all_eq_true, List.mem_range] at h
  rw [lsbPrefix_eq, beValue_word (BitVec.ofNat 32 len) _ fun k hk => ?_, BitVec.toNat_ofNat, Nat.mod_eq_of_lt hl]
  have hk := h k hk
  unfold mayHaveLsb at hk
  split at hk
  · rename_i v hv; simpa [hv] using hk
  · rename_i hv
    rw [hv, Option.getD_none]
    cases (BitVec.ofNat 32 len).getLsbD (31 - k) <;> decide

/-- PAYLOAD that may be legal has contents that are. -/
theorem exists_holds_of_mayBeLegal {m : Memory} {n : Nat} (h : mayBeLegal m n = true) :
    ∃ m' cp, (∀ a v, Memory.read m a = some v → Memory.read m' a = some v) ∧ HoldsWords m' n cp ∧
      ∀ i, i < n → (cp i).toNat ≤ 0xFF := by
  obtain ⟨m', he, hh⟩ := Memory.exists_filled m (4 * n) fun _ => 0#8
  simp only [mayBeLegal, List.all_eq_true, List.mem_range, Bool.and_eq_true] at h
  have hw : ∀ i, i < n → ∃ w : Word, Memory.readWord m' i = some w ∧ w.toNat ≤ 0xFF := by
    intro i hi
    obtain ⟨⟨h1, h2⟩, h3⟩ := h i hi
    have e1 := (hh (4 * i + 1) (by omega)).trans (congrArg some (getD_of_mayHold h1))
    have e2 := (hh (4 * i + 2) (by omega)).trans (congrArg some (getD_of_mayHold h2))
    have e3 := (hh (4 * i + 3) (by omega)).trans (congrArg some (getD_of_mayHold h3))
    have e0 := hh (4 * i) (by omega)
    refine ⟨0#8 ++ 0#8 ++ 0#8 ++ (Memory.read m (4 * i)).getD 0#8, by simp [Memory.readWord, e0, e1, e2, e3], ?_⟩
    obtain ⟨⟨-, b1⟩, b2, b3⟩ := bytes_of_word 0#8 0#8 0#8 ((Memory.read m (4 * i)).getD 0#8)
    exact (word_legal_iff _).2 ⟨b1, b2, b3⟩
  refine ⟨m', fun i => (Memory.readWord m' i).getD 0#32, he, fun i hi => ?_, fun i hi => ?_⟩
  · obtain ⟨w, hr, -⟩ := hw i hi; simp [hr]
  · obtain ⟨w, hr, hl⟩ := hw i hi; simpa [hr] using hl

/-! ## The memories a write set lies in (rule R72) -/

theorem writeSet_bitbuf_eq_zero {i : Instr} (s : State) (h1 : i ≠ .encode) (h2 : i ≠ .extract) :
    (writeSet i s).bitbuf = 0 := by
  cases i <;> simp only [writeSet, writeSetDecode, writeSetEmbed, writeSetEncodeEmbed, writeSetExtractDecode] <;>
    first | contradiction | ((repeat' split) <;> rfl)

theorem writeSet_payload_eq_zero {i : Instr} (s : State) (h1 : i ≠ .decode) (h2 : i ≠ .extractDecode) :
    (writeSet i s).payload = 0 := by
  cases i <;> simp only [writeSet, writeSetEncode, writeSetEmbed, writeSetEncodeEmbed, writeSetExtract] <;>
    first | contradiction | ((repeat' split) <;> rfl)

/-! ## The reset -/

/-- What a reset while BUSY = 1 does to the memories. -/
theorem resetMachine_forgets {s : State} {i : Instr} (hb : s.busy = true) (hi : decodeOp s.curOp = some i) :
    (resetMachine s).raster = Memory.eraseBelow s.raster (writeSet i s).raster ∧
    (resetMachine s).bitbuf = Memory.eraseBelow s.bitbuf (writeSet i s).bitbuf ∧
    (resetMachine s).payload = Memory.eraseBelow s.payload (4 * (writeSet i s).payload) := by
  simp [resetMachine, resetMemories, resetRegisters, forget, hb, hi]

end Sys2Proof.Machine
end

