-- ==== Sys2Proof/Tests/Slice0.lean ====
section
/-! SUPPORT. Tests: ill-formed words the checks refuse, words written bit by bit from rule R91, vectors of
spec/95_test_vectors.md (each named where it is used), and for every statement with hypotheses a witness that meets
them together. -/

namespace Sys2Proof.Tests

open Sys2Proof Sys2Proof.Machine

/-! ## Helpers -/

/-- The bytes 0, 1, … with the given values. -/
def cells (vs : List Byte) : Memory := Memory.writeRun [] 0 vs

/-- The PAYLOAD words 0, 1, … with the given values. -/
def wordCells (vs : List Word) : Memory := Memory.writeWords [] 0 vs

/-- The outcome is a next state of which the check holds. -/
def answers (o : Host.Outcome State Fault Refusal) (p : State → Bool) : Bool :=
  match o with
  | .next t => p t
  | .fault _ => false
  | .refused _ => false

theorem answers_next {o : Host.Outcome State Fault Refusal} {p : State → Bool} (h : answers o p = true) :
    ∃ t, o = .next t ∧ p t = true := by
  cases o
  · exact ⟨_, rfl, h⟩
  · cases h
  · cases h

/-- The values of the first n bytes. -/
def firstCells (m : Memory) (n : Nat) : List (Option Byte) := (List.range n).map (Memory.read m)

/-- The values of the first n PAYLOAD words. -/
def firstWords (m : Memory) (n : Nat) : List (Option Word) := (List.range n).map (Memory.readWord m)

/-- The 4 by 4 raster that carries "A" (the end RASTER of V-EMB-1). -/
def rasterA : Memory :=
  cells (List.replicate 31 0xFE#8 ++ [0xFF#8, 0xFE#8, 0xFF#8] ++ List.replicate 5 0xFE#8 ++ List.replicate 9 0xFF#8)

/-- A state in which each command succeeds. -/
def good (i : Instr) : State :=
  match i with
  | .encode => { State.reset with payLen := 1#32, payload := wordCells [0x41#32] }
  | .decode => { State.reset with bitLen := 40#64, bitbuf := cells [0#8, 0#8, 0#8, 1#8, 0x41#8] }
  | .embed =>
    { State.reset with
      width := 1#32, height := 1#32, bitLen := 2#64
      bitbuf := cells [0xA0#8], raster := cells [0x10#8, 0x11#8, 0x12#8] }
  | .extract => { State.reset with width := 4#32, height := 4#32, raster := rasterA }
  | .encodeEmbed =>
    { State.reset with
      width := 4#32, height := 4#32, payLen := 2#32, payload := wordCells [0x48#32, 0x69#32]
      raster := cells (List.replicate 48 0#8) }
  | .extractDecode => { State.reset with width := 4#32, height := 4#32, raster := rasterA }

/-- The same state after a legal launch of the command. -/
def goodBusy (i : Instr) : State := afterLaunch (encode i) (good i)

/-- A state in which each command fails. -/
def bad (i : Instr) : State :=
  match i with
  | .encode => { State.reset with payLen := 17#32 }
  | .decode => { State.reset with bitLen := 31#64 }
  | .embed => { State.reset with height := 7#32, bitLen := 1#64 }
  | .extract => { State.reset with height := 3#32 }
  | .encodeEmbed => { State.reset with width := 2#32, height := 2#32 }
  | .extractDecode => { State.reset with height := 3#32 }

/-! ## Well-formed and ill-formed words (rule R93) -/

theorem test_rsvd_not_zero_refused : rsvdZero 0x00000011#32 = false := by decide

theorem test_rsvd_top_bit_refused : wordWellFormed 0x80000001#32 = false := by decide

theorem test_opcode_zero_refused : opAssigned 0x00000000#32 = false := by decide

theorem test_opcode_seven_refused : wordWellFormed 0x00000007#32 = false := by decide

theorem test_opcode_fifteen_refused : wordWellFormed 0x0000000F#32 = false := by decide

theorem test_every_instr_wf : ∀ i : Instr, i.wf = true := by intro i; cases i <;> rfl

/-! ## Words written out bit by bit from rules R91 and R92 -/

theorem test_word_encode : decode 0b00000000000000000000000000000001#32 = .ok .encode := by decide

theorem test_word_decode : decode 0b00000000000000000000000000000010#32 = .ok .decode := by decide

theorem test_word_embed : decode 0b00000000000000000000000000000011#32 = .ok .embed := by decide

theorem test_word_extract : decode 0b00000000000000000000000000000100#32 = .ok .extract := by decide

theorem test_word_encode_embed : decode 0b00000000000000000000000000000101#32 = .ok .encodeEmbed := by decide

theorem test_word_extract_decode : decode 0b00000000000000000000000000000110#32 = .ok .extractDecode := by decide

theorem test_word_reserved_bits : decode 0b10000000000000000000000000000001#32 = .error .reservedBits := by decide

theorem test_word_reserved_opcode : decode 0b00000000000000000000000000001111#32 = .error .reservedOpcode := by decide

/-! ## Vectors of spec/95_test_vectors.md -/

/-- V-ENC-2. -/
theorem test_encode_one_character : answers (exec .encode (good .encode)) (fun t =>
    statusWord t == 2#32 && t.errInfo == 0#32 && t.bitLen == 40#64 &&
    firstCells t.bitbuf 6 == [some 0#8, some 0#8, some 0#8, some 1#8, some 0x41#8, none]) = true := by decide

/-- V-ENC-5: the lowest bad index, and nothing written. -/
theorem test_encode_lowest_bad_code_point : answers (exec .encode { State.reset with
      payLen := 3#32, payload := wordCells [0x41#32, 0x100#32, 0x1F600#32]
      bitbuf := cells (List.replicate 8 0xAA#8), bitLen := 7#64 }) (fun t =>
    statusWord t == 0x204#32 && t.errInfo == 1#32 && t.bitLen == 7#64 &&
    t.bitbuf == cells (List.replicate 8 0xAA#8)) = true := by decide

/-- V-DEC-9: zero-extended. -/
theorem test_decode_zero_extends : answers (exec .decode { State.reset with
      bitbuf := cells [0#8, 0#8, 0#8, 1#8, 0x80#8], bitLen := 40#64 }) (fun t =>
    statusWord t == 2#32 && t.payLen == 1#32 && firstWords t.payload 2 == [some 0x80#32, none]) = true := by decide

/-- V-DEC-8: BOUNDS(PAYLOAD), with BITBUF_BYTES = 24. -/
theorem test_decode_payload_too_long : answers (exec .decode { State.reset with
      cfg := { Config.default with bitbufBytes := 24 }
      bitbuf := cells ([0#8, 0#8, 0#8, 0x11#8] ++ List.replicate 20 0#8), bitLen := 168#64 }) (fun t =>
    statusWord t == 0x504#32 && t.errInfo == 1#32 && t.payload == []) = true := by decide

/-- V-EMB-10: the cases of lsb_sub, and the untouched tail. -/
theorem test_embed_lsb_cases : answers (exec .embed { State.reset with
      width := 1#32, height := 2#32, bitLen := 4#64, bitbuf := cells [0xB0#8]
      raster := cells [0xFE#8, 0x01#8, 0x80#8, 0x7F#8, 0x00#8, 0xFF#8] }) (fun t =>
    statusWord t == 2#32 && t.raster == cells [0xFF#8, 0x00#8, 0x81#8, 0x7F#8, 0x00#8, 0xFF#8]) = true := by decide

/-- V-EMB-8: BOUNDS(BITBUF) before the other checks. -/
theorem test_embed_bitbuf_bound_first : answers (exec .embed { State.reset with
      width := 4#32, height := 4#32, bitLen := 161#64 }) (fun t =>
    statusWord t == 0x504#32 && t.errInfo == 2#32) = true := by decide

/-- V-EXT-1. -/
theorem test_extract_A : answers (exec .extract (good .extract)) (fun t =>
    statusWord t == 2#32 && t.bitLen == 40#64 && t.raster == rasterA &&
    firstCells t.bitbuf 6 == [some 0#8, some 0#8, some 0#8, some 1#8, some 0x41#8, none]) = true := by
  decide +kernel

/-- V-EXT-5: the payload is incomplete. -/
theorem test_extract_underflow_payload : answers (exec .extract { State.reset with
      width := 11#32, height := 1#32
      raster := cells (List.replicate 31 0#8 ++ [1#8, 0#8]) }) (fun t =>
    statusWord t == 0x304#32 && t.errInfo == 1#32 && t.bitbuf == [] && t.bitLen == 0#64) = true := by
  decide +kernel

/-- V-CS-3b: RASTER as in V-EMB-2. -/
theorem test_encode_embed_exact_capacity : answers (exec .encodeEmbed (good .encodeEmbed)) (fun t =>
    statusWord t == 2#32 && t.bitbuf == [] && t.bitLen == 0#64 &&
    t.raster == cells ((List.range 48).map fun k =>
      if [30, 33, 36, 41, 42, 44, 47].contains k then 1#8 else 0#8)) = true := by decide +kernel

/-- V-CS-4: CODEPOINT before CAPACITY. -/
theorem test_encode_embed_code_point_first : answers (exec .encodeEmbed { State.reset with
      width := 2#32, height := 2#32, payLen := 1#32, payload := wordCells [0x100#32] }) (fun t =>
    statusWord t == 0x204#32 && t.errInfo == 0#32) = true := by decide

/-- V-CS-7. -/
theorem test_extract_decode_A : answers (exec .extractDecode (good .extractDecode)) (fun t =>
    statusWord t == 2#32 && t.payLen == 1#32 && t.payload == wordCells [0x41#32] && t.bitbuf == [] &&
    t.bitLen == 0#64) = true := by decide +kernel

/-- V-CS-8: not an empty payload (conflict C2). -/
theorem test_extract_decode_small_raster : answers (exec .extractDecode { State.reset with
      width := 2#32, height := 2#32, raster := cells (List.replicate 12 0#8) }) (fun t =>
    statusWord t == 0x304#32 && t.errInfo == 0#32) = true := by decide

/-- V-REG-1, for the word 0x80000001. -/
theorem test_illegal_launch : regWrite 0x00#6 0x80000001#32 State.reset =
    { State.reset with err := true, errCode := 6#4 } ∧
    statusWord (regWrite 0x00#6 0x80000001#32 State.reset) = 0x604#32 := by decide

/-- V-REG-3: writes dropped while BUSY = 1. -/
theorem test_writes_dropped_while_busy :
    statusWord (regWrite 0x00#6 1#32 (regWrite 0x0C#6 9#32 (goodBusy .extract))) = 0x9#32 ∧
    regRead 0x0C#6 (regWrite 0x00#6 1#32 (regWrite 0x0C#6 9#32 (goodBusy .extract))) = 4#32 := by decide +kernel

/-- V-REG-6: ERRCODE survives the clear of ERR. -/
theorem test_errcode_survives_clear :
    statusWord (regWrite 0x04#6 4#32 (afterError 3#4 1#32 State.reset)) = 0x300#32 ∧
    (regWrite 0x04#6 4#32 (afterError 3#4 1#32 State.reset)).errInfo = 1#32 := by decide

/-- V-REG-7: irq after an ILLEGAL launch. -/
theorem test_irq_on_illegal : regRead 0x08#6 (regWrite 0x08#6 0xFFFFFFFF#32 State.reset) = 1#32 ∧
    irq (regWrite 0x08#6 0xFFFFFFFF#32 State.reset) = false ∧
    irq (regWrite 0x00#6 0#32 (regWrite 0x08#6 0xFFFFFFFF#32 State.reset)) = true := by decide

/-- V-REG-14: the reset during EMBED forgets RASTER[0..39] and keeps RASTER[40..47] and BITBUF. -/
theorem test_reset_during_embed : (fun t : State => t.raster == (List.range 8).map (fun k => (40 + k, 0x55#8)) &&
      t.bitbuf == cells [0#8, 0#8, 0#8, 1#8, 0x41#8] && statusWord t == 0#32)
    (resetMachine { goodBusy .embed with
      width := 4#32, height := 4#32, bitLen := 40#64, bitbuf := cells [0#8, 0#8, 0#8, 1#8, 0x41#8]
      raster := cells (List.replicate 48 0x55#8) }) = true := by decide +kernel

/-- Rule R213: R213's extent is lost of an EMBED that would fail (T = 40 above cap = 3). -/
theorem test_reset_during_failing_embed : (fun t : State => t.raster == (List.range 8).map fun k => (40 + k, 0x55#8))
    (resetMachine { goodBusy .embed with
      bitLen := 40#64, raster := cells (List.replicate 48 0x55#8) }) = true := by decide +kernel

/-- Rule R213: a DECODE of T = 40 can write one word at most, whatever BITBUF holds; the next word is kept. -/
theorem test_reset_during_undefined_decode : firstWords (resetMachine { goodBusy .decode with
    bitbuf := [], payload := wordCells [1#32, 2#32] }).payload 2 = [none, some 2#32] := by decide +kernel

/-- Rules R213 and R72: an EMBED over unwritten channels keeps BITBUF and PAYLOAD. -/
theorem test_reset_during_undefined_embed : (fun t : State =>
      t.bitbuf == cells [0xA0#8] && t.payload == wordCells [1#32, 2#32] && t.raster == [])
    (resetMachine { goodBusy .embed with raster := [], payload := wordCells [1#32, 2#32] }) = true := by
  decide +kernel

/-- Rule R213: an EXTRACT with cap = 48 can write BITBUF bytes 0 to 5 at most. -/
theorem test_reset_during_undefined_extract : firstCells (resetMachine { goodBusy .extract with
    raster := [], bitbuf := cells (List.replicate 8 7#8) }).bitbuf 8 = List.replicate 6 none ++ [some 7#8, some 7#8] := by
  decide +kernel

/-- Rule R71: a byte lane written over an undefined word is stored, -/
theorem test_byte_lane_write_stores : answers (portWrite (.payloadByte 0 2) 0x141#32 State.reset) (fun t =>
    t.payload == [(2, 0x41#8)]) = true := by decide

/-- and the fourth of them defines the word (the bytes 0x41, 0, 0, 0 in little-endian order, rule R68). -/
theorem test_byte_lanes_make_the_word :
    answers (portWrite (.payloadByte 0 3) 0#32 { State.reset with payload := cells [0x41#8, 0#8, 0#8] }) (fun t =>
      Memory.readWord t.payload 0 == some 0x41#32) = true := by decide

/-- Rule R81: RASTER's place may touch PAYLOAD's, not overlap it; -/
theorem test_raster_place : configAdmitted { Config.default with rasterBase := 0x240 } = true ∧
    configAdmitted { Config.default with rasterBase := 0x23F } = false := by decide

/-- and its bytes, first to last, are reached there. -/
theorem test_raster_at_its_place : busResolve Config.default .w8 0x300 = some (.raster 0) ∧
    busResolve Config.default .w8 0x33F = some (.raster 63) ∧ busResolve Config.default .w8 0x340 = none := by decide

/-- A memory of bytes is a list of Host.Cell. -/
theorem test_memory_of_bytes : Memory = List Host.Cell := rfl

/-- The very next step after a word is placed runs it, from reset. -/
theorem test_fetch_word_runs : answers (step (State.reset.withFetchWord 32 2)) (fun t =>
    statusWord t == 0x404#32 && t.errInfo == 0#32) = true := by decide

/-! ## Witnesses: the premises of the statements can be met together -/

/-- EncodeOfDecode, LegalWordsMatchOneRow: the first and the last legal word. -/
theorem witness_legal_words : decode 1#32 = .ok .encode ∧ decode 6#32 = .ok .extractDecode ∧
    legal 1#32 = true ∧ legal 6#32 = true := by decide

/-- DecodeOfEncode, FetchWordRunsNext. -/
theorem witness_wf_instr : Instr.wf .embed = true ∧ configAdmitted State.reset.cfg = true := by decide

/-- LaunchRule, both clauses; IllegalWordLaunchesNothing, each case. -/
theorem witness_launch : State.reset.busy = false ∧ legal 6#32 = true ∧ legal 7#32 = false ∧
    (0x11#32).extractLsb' 4 28 ≠ 0#28 ∧ (0#32).extractLsb' 0 4 = 0#4 ∧ 7 ≤ ((7#32).extractLsb' 0 4).toNat := by
  decide

/-- CmdWriteWhileBusySetsOvr, OperandWriteWhileBusySetsOvr, MemoryAccessWhileBusyRefused. -/
theorem witness_busy : (goodBusy .embed).busy = true ∧
    0x0C#6 ∈ [0x0C#6, 0x10#6, 0x14#6, 0x18#6, 0x1C#6] ∧ 0x1C#6 ∈ [0x0C#6, 0x10#6, 0x14#6, 0x18#6, 0x1C#6] := by
  decide

/-- UnmappedAndReservedReadZero: the first and the last unmapped offset, and the reserved bits at their edges. -/
theorem witness_unmapped : 0x24 ≤ (0x24#6).toNat ∧ (0x24#6).toNat % 4 = 0 ∧ 0x24 ≤ (0x3C#6).toNat ∧
    (0x3C#6).toNat % 4 = 0 ∧ ((4 ≤ 4 ∧ 4 < 8) ∨ 12 ≤ 4) ∧ ((4 ≤ 12 ∧ 12 < 8) ∨ 12 ≤ 12) := by decide

/-- OperandWriteStores, OperandReadsBack: two different operand registers of an idle machine. -/
theorem witness_operand_write : State.reset.busy = false ∧
    0x0C#6 ∈ [0x0C#6, 0x10#6, 0x14#6, 0x18#6, 0x1C#6] ∧ 0x18#6 ≠ 0x1C#6 := by decide

/-- RegisterReadsWhileBusy. -/
theorem witness_reads_while_busy : ∃ t, (good .extract).busy = false ∧ legal (encode .extract) = true ∧
    t = [(0x0C#6, 9#32), (0x04#6, 8#32)].foldl (fun u w => regWrite w.1 w.2 u)
      (regWrite 0x00#6 (encode .extract) (good .extract)) :=
  ⟨_, rfl, by decide, rfl⟩

/-- RegisterAccessAdmission: the last aligned offset, a wrong width, a misaligned offset. -/
theorem witness_register_access : (AccessWidth.w32 = .w32 ∧ (0x3C#6).toNat % 4 = 0) ∧
    ¬ (AccessWidth.w8 = .w32 ∧ (0x04#6).toNat % 4 = 0) ∧ ¬ (AccessWidth.w32 = .w32 ∧ (0x06#6).toNat % 4 = 0) := by
  decide

/-- The payload of a test: one bad word at index 1. -/
def words : Nat → Word := fun i => if i = 1 then 0x100#32 else 0xFF#32

/-- EncodeOutcome, each clause at its boundary: L = PAY_DEPTH + 1; the lowest bad word at index 1, holding 0x100; a
BITBUF one byte too small; L = PAY_DEPTH filling BITBUF. -/
theorem witness_encode :
    (bad .encode).cfg.payDepth < (bad .encode).payLen.toNat ∧
    ((2#32).toNat ≤ Config.default.payDepth ∧ 1 < (2#32).toNat ∧ HoldsWords (wordCells [0xFF#32, 0x100#32]) 2 words ∧
      (∀ j, j < 1 → (words j).toNat ≤ 0xFF) ∧ 0xFF < (words 1).toNat) ∧
    (HoldsWords (wordCells [0xFF#32]) (1#32).toNat words ∧ (∀ j, j < (1#32).toNat → (words j).toNat ≤ 0xFF) ∧
      4 < 4 + (1#32).toNat) ∧
    (HoldsWords (wordCells (List.replicate 16 0xFF#32)) (16#32).toNat (fun _ => 0xFF#32) ∧
      (∀ j, j < (16#32).toNat → (0xFF#32).toNat ≤ 0xFF) ∧ 4 + (16#32).toNat ≤ Config.default.bitbufBytes) := by
  unfold HoldsWords; decide +kernel

/-- EncodeWritesTheFrame. -/
theorem witness_encode_frame : HoldsWords (good .encode).payload (good .encode).payLen.toNat (fun _ => 0x41#32) ∧
    ∃ t, exec .encode (good .encode) = .next t ∧ t.done = true :=
  ⟨by unfold HoldsWords; decide, answers_next (by decide)⟩

/-- The bytes of a test: prefix 17. -/
def bytes17 : Nat → Byte := fun j => if j = 3 then 0x11#8 else 0#8

/-- DecodeOutcome, each clause at its boundary: T = 8 · BITBUF_BYTES + 1; T = 31; T = 160 with L = 17; L = 17 with
T = 168 (24 bytes of BITBUF); T = 32 with L = 0. -/
theorem witness_decode :
    8 * Config.default.bitbufBytes < (161#64).toNat ∧
    ((bad .decode).bitLen.toNat ≤ 8 * (bad .decode).cfg.bitbufBytes ∧ (bad .decode).bitLen.toNat < 32) ∧
    ((160#64).toNat ≤ 8 * Config.default.bitbufBytes ∧ 32 ≤ (160#64).toNat ∧
      Holds (cells [0#8, 0#8, 0#8, 0x11#8]) 4 bytes17 ∧ (160#64).toNat < 32 + 8 * bytePrefix bytes17) ∧
    ((168#64).toNat ≤ 8 * 24 ∧ Holds (cells [0#8, 0#8, 0#8, 0x11#8]) 4 bytes17 ∧
      32 + 8 * bytePrefix bytes17 ≤ (168#64).toNat ∧ Config.default.payDepth < bytePrefix bytes17) ∧
    (32 ≤ (32#64).toNat ∧ Holds (cells (List.replicate 4 0#8)) (4 + bytePrefix fun _ => 0#8) (fun _ => 0#8) ∧
      (32 + 8 * bytePrefix fun _ => 0#8) ≤ (32#64).toNat ∧ (bytePrefix fun _ => 0#8) ≤ Config.default.payDepth) := by
  unfold Holds; decide +kernel

/-- EmbedOutcome, each clause at its boundary: T = 8 · BITBUF_BYTES + 1; cap = 75 above 64; T = cap + 1; T = cap. -/
theorem witness_embed :
    8 * Config.default.bitbufBytes < (161#64).toNat ∧
    ((0#64).toNat ≤ 8 * Config.default.bitbufBytes ∧ Config.default.rasterBytes < (5#32).toNat * (5#32).toNat * 3) ∧
    ((1#32).toNat * (1#32).toNat * 3 ≤ Config.default.rasterBytes ∧
      (1#32).toNat * (1#32).toNat * 3 < (4#64).toNat) ∧
    ((3#64).toNat ≤ (1#32).toNat * (1#32).toNat * 3 ∧
      Holds (cells [0xA0#8]) (((3#64).toNat + 7) / 8) (fun _ => 0xA0#8) ∧
      Holds (cells [0x10#8, 0x10#8, 0x10#8]) (3#64).toNat (fun _ => 0x10#8)) := by
  unfold Holds; decide

/-- The channels of a test: the LSBs of a given length prefix, then zeros. -/
def channels (len : Word) : Nat → Byte := fun k => if k < 32 ∧ len.getLsbD (31 - k) then 1#8 else 0#8

/-- ExtractOutcome and ExtractDecodeOutcome, each clause at its boundary: cap = 75 above 64; cap = 30; cap = 33 with
L = 1; cap = 168 with L = 17 (required = 168, BITBUF of 20 bytes, PAYLOAD of 16 words); cap = 48 with L = 2. -/
theorem witness_extract :
    Config.default.rasterBytes < (5#32).toNat * (5#32).toNat * 3 ∧
    ((10#32).toNat * (1#32).toNat * 3 < 32 ∧ 30 ≤ Config.default.rasterBytes ∧
      Holds (cells (List.replicate 30 0#8)) (extractReads 30 (channels 0#32)) (channels 0#32)) ∧
    (33 < 32 + 8 * lsbPrefix (channels 1#32) ∧ 33 ≤ Config.default.rasterBytes ∧
      Holds (cells ((List.range 33).map (channels 1#32))) (extractReads 33 (channels 1#32)) (channels 1#32)) ∧
    (32 + 8 * lsbPrefix (channels 17#32) ≤ 168 ∧ 20 < 4 + lsbPrefix (channels 17#32) ∧
      16 < lsbPrefix (channels 17#32) ∧
      Holds (cells ((List.range 168).map (channels 17#32))) (extractReads 168 (channels 17#32)) (channels 17#32)) ∧
    (32 ≤ 48 ∧ 32 + 8 * lsbPrefix (channels 2#32) ≤ 48 ∧ 4 + lsbPrefix (channels 2#32) ≤ 20 ∧
      lsbPrefix (channels 2#32) ≤ 16 ∧
      Holds (cells ((List.range 48).map (channels 2#32))) (extractReads 48 (channels 2#32)) (channels 2#32)) := by
  unfold Holds; decide +kernel

/-- EncodeEmbedOutcome, each clause at its boundary: L = PAY_DEPTH + 1; a bad word at index 1; cap = 75 above 64;
cap = 45 for L = 2; cap = 48 for L = 2. -/
theorem witness_encode_embed :
    Config.default.payDepth < (17#32).toNat ∧
    (1 < (2#32).toNat ∧ HoldsWords (wordCells [0xFF#32, 0x100#32]) 2 words ∧ (∀ j, j < 1 → (words j).toNat ≤ 0xFF) ∧
      0xFF < (words 1).toNat) ∧
    (HoldsWords (wordCells [0xFF#32]) (1#32).toNat words ∧ (∀ j, j < (1#32).toNat → (words j).toNat ≤ 0xFF) ∧
      Config.default.rasterBytes < (5#32).toNat * (5#32).toNat * 3) ∧
    ((5#32).toNat * (3#32).toNat * 3 ≤ Config.default.rasterBytes ∧
      (5#32).toNat * (3#32).toNat * 3 < 32 + 8 * (2#32).toNat) ∧
    (32 + 8 * (2#32).toNat ≤ (4#32).toNat * (4#32).toNat * 3 ∧
      Holds (good .encodeEmbed).raster (32 + 8 * (2#32).toNat) (fun _ => 0#8)) := by
  unfold Holds HoldsWords; decide +kernel

/-- CommandFrame, CompletionRecordsOneOutcome, UntouchedTailAndNonDestructiveFailure, CallSitesIgnoreBitbuf: each
command completes with success, -/
theorem witness_success : ∀ i, ∃ t, exec i (good i) = .next t ∧ t.done = true := by
  intro i; cases i <;> exact answers_next (by decide +kernel)

/-- FailedCommandWritesOnlyTheRecord and the error clauses of the same: and each with an error. -/
theorem witness_failure : ∀ i, ∃ t, exec i (bad i) = .next t ∧ t.err = true := by
  intro i; cases i <;> exact answers_next (by decide)

/-- CommandCompletesIffOperandsWritten: the operands of each command can be written, -/
theorem witness_operands_written : ∀ i, OperandsWritten i (good i) := by
  intro i
  have hd : ∀ m : Memory, Holds m 4 (fun j => if j = 3 then 1#8 else 0#8) → ∀ b, Holds m 4 b → bytePrefix b = 1 := by
    intro m hm b hb
    have e : ∀ j, j < 4 → b j = if j = 3 then 1#8 else 0#8 := fun j hj =>
      Option.some.inj ((hb j hj).symm.trans (hm j hj))
    simp [bytePrefix, Finset.sum_range_succ, e]
  cases i
  · intro _ i hi _; revert i; decide
  · intro _ _
    refine ⟨by unfold Written; decide, fun b hb _ _ => ?_⟩
    rw [hd _ (by unfold Holds; decide) b hb]; unfold Written; decide
  · exact fun _ _ _ => ⟨by unfold Written; decide, by unfold Written; decide⟩
  · exact fun _ => ⟨fun k => if [31, 33, 39, 40, 41, 42, 43, 44, 45, 46, 47].contains k then 0xFF#8 else 0xFE#8,
      by unfold Holds; decide +kernel⟩
  · exact fun _ => ⟨fun i hi _ => by
      have h : i < 2 := hi
      interval_cases i <;> rfl, fun _ _ _ => by unfold Written; decide +kernel⟩
  · exact fun _ => ⟨fun k => if [31, 33, 39, 40, 41, 42, 43, 44, 45, 46, 47].contains k then 0xFF#8 else 0xFE#8,
      by unfold Holds; decide +kernel⟩

/-- and they can be missing: L = 1 with no PAYLOAD word written. -/
theorem witness_operands_missing : ¬ OperandsWritten .encode { State.reset with payLen := 1#32 } := by
  intro h
  have := h (by decide) 0 (by decide) (fun j hj => absurd hj (Nat.not_lt_zero j))
  revert this; decide

/-- FramerPurity, both clauses: two states that differ elsewhere. -/
theorem witness_purity :
    ((good .encode).cfg = { good .encode with width := 9#32, bitLen := 3#64 }.cfg ∧
      ∃ t, exec .encode (good .encode) = .next t ∧ t.done = true) ∧
    ((good .decode).cfg = { good .decode with height := 9#32, payLen := 3#32 }.cfg ∧
      ∃ t, exec .decode (good .decode) = .next t ∧ t.done = true) :=
  ⟨⟨rfl, answers_next (by decide)⟩, ⟨rfl, answers_next (by decide)⟩⟩

/-- SameProductSameExtraction: 2 by 8 and 4 by 4. -/
theorem witness_same_product : (2#32).toNat * (8#32).toNat = (good .extract).width.toNat * (good .extract).height.toNat ∧
    ∃ t, exec .extract (good .extract) = .next t ∧ t.done = true :=
  ⟨by decide, answers_next (by decide +kernel)⟩

/-- FramerRoundTrip and RasterRoundTrip, at the exact capacity (4 by 4 and L = 2). -/
theorem witness_round_trips :
    4 + (good .encodeEmbed).cfg.payDepth ≤ (good .encodeEmbed).cfg.bitbufBytes ∧
    (good .encodeEmbed).payLen.toNat ≤ (good .encodeEmbed).cfg.payDepth ∧
    HoldsWords (good .encodeEmbed).payload (good .encodeEmbed).payLen.toNat (fun i => if i = 0 then 0x48#32 else 0x69#32) ∧
    (∀ i, i < (good .encodeEmbed).payLen.toNat → ((if i = 0 then 0x48#32 else 0x69#32 : Word)).toNat ≤ 0xFF) ∧
    32 + 8 * (good .encodeEmbed).payLen.toNat ≤
      (good .encodeEmbed).width.toNat * (good .encodeEmbed).height.toNat * 3 ∧
    (good .encodeEmbed).width.toNat * (good .encodeEmbed).height.toNat * 3 ≤ (good .encodeEmbed).cfg.rasterBytes ∧
    Written (good .encodeEmbed).raster (32 + 8 * (good .encodeEmbed).payLen.toNat) := by
  unfold HoldsWords Written; decide +kernel

/-- EncodeEmbedIsEncodeThenEmbed: ENCODE fails; ENCODE and then EMBED succeed. -/
theorem witness_encode_then_embed : (∃ t, exec .encode (bad .encode) = .next t ∧ t.err = true) ∧
    ∃ t, exec .encode (good .encodeEmbed) = .next t ∧ t.done = true ∧ ∃ u, exec .embed t = .next u ∧ u.done = true := by
  refine ⟨answers_next (by decide), ?_⟩
  obtain ⟨t, h, hp⟩ := answers_next (o := exec .encode (good .encodeEmbed))
    (p := fun t => t.done && answers (exec .embed t) fun u => u.done) (by decide +kernel)
  simp only [Bool.and_eq_true] at hp
  exact ⟨t, h, hp.1, answers_next hp.2⟩

/-- ExtractDecodeIsExtractThenDecode: EXTRACT fails; EXTRACT succeeds. -/
theorem witness_extract_then_decode : (∃ t, exec .extract (bad .extract) = .next t ∧ t.err = true) ∧
    ∃ t, exec .extract (good .extract) = .next t ∧ t.done = true :=
  ⟨answers_next (by decide), answers_next (by decide +kernel)⟩

/-- ScanPositionSensitivity: cap = 48, L = 1 (required = 40), at positions 31, 32, 39, 40 and 47. -/
theorem witness_scan_positions : 48 = (good .extract).width.toNat * (good .extract).height.toNat * 3 ∧
    Holds (good .extract).raster 48
      (fun k => if [31, 33, 39, 40, 41, 42, 43, 44, 45, 46, 47].contains k then 0xFF#8 else 0xFE#8) ∧
    32 + 8 * lsbPrefix (fun k => if [31, 33, 39, 40, 41, 42, 43, 44, 45, 46, 47].contains k then 0xFF#8 else 0xFE#8)
      = 40 ∧ (31 < 48 ∧ 31 < 32) ∧ (32 ≤ 39 ∧ 39 < 40) ∧ (40 ≤ 47 ∧ 47 < 48) := by
  unfold Holds; decide +kernel

/-- CapacityIsExact; ScanPositionIsRasterByte at the last channel of an 11 by 1 raster. -/
theorem witness_capacity : ((0#32 : Word) = 0#32 ∨ (5#32 : Word) = 0#32) ∧
    10 < (11#32).toNat ∧ 0 < (1#32).toNat ∧ 2 < 3 ∧ 32 < capacity 11#32 1#32 := by decide

/-- ExtractStateMachine: the 31st and the 32nd bit, with L = 0 and L = 1. -/
theorem witness_state_machine : (List.replicate 30 false).length + 1 ≠ 32 ∧ (List.replicate 31 false).length + 1 = 32 ∧
    be32 (List.replicate 31 false ++ [false]) 0 = 0 ∧ be32 (List.replicate 31 false ++ [true]) 0 ≠ 0 := by
  decide

/-- IdleResetKeepsMemories, and BusyResetForgetsTheWriteSet for each command. -/
theorem witness_reset : (good .embed).busy = false ∧
    ∀ i, (goodBusy i).busy = true ∧ decodeOp (goodBusy i).curOp = some i ∧
      ∃ t, exec i (goodBusy i) = .next t ∧ t.done = true := by
  refine ⟨rfl, fun i => ⟨rfl, ?_, ?_⟩⟩
  · cases i <;> decide
  · cases i <;> exact answers_next (by decide +kernel)

/-- BusyResetForgetsTheWriteSet, the clause on undefined cells: a DECODE with no BITBUF byte written, and one of the
contents its BITBUF may have. -/
theorem witness_reset_undefined : Extends { goodBusy .decode with bitbuf := [] } (goodBusy .decode) ∧
    ∃ t, exec .decode (goodBusy .decode) = .next t ∧ t.done = true :=
  ⟨⟨rfl, fun _ _ h => (by cases h), fun _ _ h => (by cases h), fun _ _ h => h⟩, answers_next (by decide)⟩

/-- The same, the clause on the cells it keeps: whatever that BITBUF holds, at most one PAYLOAD word is written, so byte
4 is kept. -/
theorem witness_reset_kept : ∀ s' t, Extends { goodBusy .decode with bitbuf := [] } s' → exec .decode s' = .next t →
    t.done = true → 4 * t.payLen.toNat ≤ 4 := by
  intro s' t hx h hd
  have hT : s'.bitLen.toNat = 40 := by rw [hx.1]; rfl
  rw [exec_eq_complete] at h
  rcases complete_next h with ⟨c, hc, rfl⟩ | ⟨e, -, rfl⟩
  · simp only [planOf, planDecode] at hc
    (repeat' split at hc) <;> cases hc
    rename_i bits _ _ _ _ _ _
    have := be32_lt bits 0
    simp only [hT, frameLen, lenBits, cpBits] at *
    simp
    omega
  · simp at hd

/-- StepKeepsStatusInvariant, StepKeepsMemoryInvariant, NewErrCodeComesWithErr, OnlyLegalLaunchSetsBusy,
CmdWriteThenCompletion, HostMemoryAccess: a host that launches DECODE. -/
def launching : State := { good .decode with host := [hostCmd .decode], turns := [.host, .engine] }

theorem witness_launching : StatusInv launching ∧ MemoryInv launching ∧ launching.busy = false ∧
    configAdmitted launching.cfg = true ∧ ∃ t, step launching = .next t ∧ t.busy = true :=
  ⟨by decide, by decide, rfl, by decide, answers_next (by decide)⟩

/-- OnlyLegalLaunchSetsBusy: the same through CMD's platform address, with no turn left. -/
theorem witness_launching_bus : (good .decode).busy = false ∧
    ∃ t, step { good .decode with host := [.busWrite .w32 0 (encode .decode)] } = .next t ∧ t.busy = true :=
  ⟨rfl, answers_next (by decide)⟩

/-- NewErrCodeComesWithErr: a step that leaves a new error code. -/
theorem witness_new_error : ∃ t, step { goodBusy .decode with bitLen := 31#64 } = .next t ∧
    decide (t.errCode ≠ 0#4) = true := answers_next (by decide)

/-- OperandsStableWhileBusy: a register write while a command is in flight. -/
theorem witness_in_flight : (goodBusy .decode).busy = true ∧
    ∃ t, step { goodBusy .decode with host := [hostWr .width 9#32], turns := [.host] } = .next t ∧ t.busy = true :=
  ⟨rfl, answers_next (by decide)⟩

/-- StepRunsTheLatchedCommand: each turn; WaitPollsUntilCompletion: a WAIT while BUSY = 1, with a turn of the host and
with the schedule used up. -/
theorem witness_turns : configAdmitted (goodBusy .decode).cfg = true ∧ (goodBusy .decode).busy = true ∧
    decodeOp (goodBusy .decode).curOp = some .decode ∧ (goodBusy .decode).turns = [] ∧
    { goodBusy .decode with turns := [.engine] }.turns = [.engine] ∧
    { good .decode with turns := [.reset] }.turns = [.reset] ∧ (good .decode).busy = false ∧
    { goodBusy .decode with host := [.wait], turns := [.host] }.host = [.wait] := by decide

theorem witness_wait_operands : OperandsWritten .decode { goodBusy .decode with host := [.wait] } :=
  witness_operands_written .decode

/-- SmallBitbufConfigurationRefused: one byte too few. -/
theorem witness_small_bitbuf : (19 : Nat) < 4 + Config.default.payDepth := by decide

/-- HostMemoryAccess: the last cell of each space, and the last byte lane of PAYLOAD, written and unwritten. -/
theorem witness_host_memory : State.reset.busy = false ∧ 63 < State.reset.cfg.rasterBytes ∧
    19 < State.reset.cfg.bitbufBytes ∧ 15 < State.reset.cfg.payDepth ∧
    Memory.readWord State.reset.payload 15 = none ∧ Memory.readWord (Memory.writeWord [] 15 7#32) 15 = some 7#32 ∧
    63 = laneIndex State.reset.cfg.payloadHostOrder 15 3 ∧ Memory.read State.reset.payload 63 = none ∧
    Memory.read [(63, 7#8)] 63 = some 7#8 ∧ Memory.read State.reset.raster 63 = none := by decide

/-- PayloadByteLanes: the last PAYLOAD word, written whole and lane by lane. -/
theorem witness_byte_lanes : Memory.readWord (Memory.writeWord [] 15 0x41000002#32) 15 = some 0x41000002#32 ∧
    Memory.readWord (Memory.write (Memory.write (Memory.write (Memory.write [] (laneIndex .big 15 0) 0x41#8)
      (laneIndex .big 15 1) 0#8) (laneIndex .big 15 2) 0#8) (laneIndex .big 15 3) 2#8) 15 = some 0x41000002#32 := by
  decide

end Sys2Proof.Tests
end

section
/-! PROOFS. Scope: the LSB substitution of rule R11, and what one step is on each agent's turn (rules R5, R38). -/

namespace Sys2Proof.Machine

/-! ## The LSB substitution -/

/-- The substituted bit is bit 0 of lsb_sub. -/
theorem lsbSub_getLsbD_zero (v : Byte) (b : Bool) : (lsbSub v b).getLsbD 0 = b :=
  lsb_lsbSub v b

/-- The mask of lsb_sub keeps every bit of a byte but bit 0. -/
theorem getLsbD_mask_of_ne_zero {n : Nat} (hn : n ≠ 0) : (0xFE#8).getLsbD n = decide (n < 8) := by
  by_cases h8 : n < 8
  · have bits : ∀ k < 8, k ≠ 0 → (0xFE#8).getLsbD k = true := by decide
    simpa [h8] using bits n h8 hn
  · simpa [h8] using BitVec.getLsbD_of_ge (0xFE#8) n (by omega)

/-- lsb_sub keeps every bit but bit 0. -/
theorem lsbSub_getLsbD_of_ne_zero (v : Byte) (b : Bool) {n : Nat} (hn : n ≠ 0) :
    (lsbSub v b).getLsbD n = v.getLsbD n := by
  have bit : (if b then 1#8 else 0#8).getLsbD n = false := by
    cases b <;> simp [BitVec.getLsbD_one, hn]
  have past : v.getLsbD n = true → n < 8 := BitVec.lt_of_getLsbD
  rw [lsbSub, BitVec.getLsbD_or, BitVec.getLsbD_and, getLsbD_mask_of_ne_zero hn, bit, Bool.or_false]
  simpa using past

/-- Settles O40: bit 0 of lsb_sub is the substituted bit, and the mask keeps every other bit. -/
theorem lsbSubReplacesBitZero : Obligations.LsbSubReplacesBitZero := by
  intro v b n
  split
  next h0 => rw [h0, lsbSub_getLsbD_zero]
  next h0 => exact lsbSub_getLsbD_of_ne_zero v b h0

/-! ## The engine's and the host's turns -/

/-- The engine's turn while a command is in flight (rules R5, R38). -/
theorem engineTurn_of_busy {s : State} {i : Instr} (hb : s.busy = true) (hd : decodeOp s.curOp = some i) :
    engineTurn s = exec i s := by
  simp [engineTurn, hb, hd]

/-- The engine's turn while BUSY = 0. -/
theorem engineTurn_of_idle {s : State} (hb : s.busy = false) : engineTurn s = .next s := by
  simp [engineTurn, hb]

/-- The host's turn when it has an operation left. -/
theorem hostTurn_cons {s : State} {op : HostOp} {ops : List HostOp} (hh : s.host = op :: ops) :
    hostTurn s = hostOp op { s with host := ops } := by
  simp [hostTurn, hh]

/-! ## The step -/

/-- A step on a scheduled turn is that agent's turn, the schedule being one turn shorter. -/
theorem step_of_turn {s : State} {a : Agent} {rest : List Agent} (hc : configAdmitted s.cfg = true)
    (ht : s.turns = a :: rest) : step s = agentTurn a { s with turns := rest } := by
  simp [step, hc, scheduledStep, ht]

/-- With no turn left, a busy machine steps by the engine's turn (log entry 1). -/
theorem step_of_no_turn_of_busy {s : State} (hc : configAdmitted s.cfg = true) (ht : s.turns = [])
    (hb : s.busy = true) : step s = engineTurn s := by
  simp [step, hc, scheduledStep, ht, defaultTurn, hb]

/-- Settles O54: a step is the turn of the agent that the schedule names, or the engine's when no turn is left and
BUSY = 1; each clause is then what that agent's turn does. -/
theorem stepRunsTheLatchedCommand : Obligations.StepRunsTheLatchedCommand := by
  intro s rest hc
  refine ⟨fun i hb hd ht => ?engine, fun i hb hd ht => ?default, fun hb ht => ?idle, fun ht => ?reset,
    fun op ops ht hh => ?host⟩
  case engine => exact (step_of_turn hc ht).trans (engineTurn_of_busy hb hd)
  case default => exact (step_of_no_turn_of_busy hc ht hb).trans (engineTurn_of_busy hb hd)
  case idle => exact (step_of_turn hc ht).trans (engineTurn_of_idle hb)
  case reset => exact step_of_turn hc ht
  case host => exact (step_of_turn hc ht).trans (hostTurn_cons hh)

end Sys2Proof.Machine
end

section
/-! PROOFS. Scope: the register window (rules R20 to R37): what each register reads and what a write to it does, in
every state, and the values after power-on. -/

namespace Sys2Proof.Machine

/-! ## Each register by its offset -/

section
variable (v : Word) (s : State)

@[simp] theorem regRead_cmd : regRead 0x00#6 s = 0#32 := rfl
@[simp] theorem regRead_status : regRead 0x04#6 s = statusWord s := rfl
@[simp] theorem regRead_ctrl : regRead 0x08#6 s = ctrlWord s := rfl
@[simp] theorem regRead_width : regRead 0x0C#6 s = s.width := rfl
@[simp] theorem regRead_height : regRead 0x10#6 s = s.height := rfl
@[simp] theorem regRead_payLen : regRead 0x14#6 s = s.payLen := rfl
@[simp] theorem regRead_bitLenLo : regRead 0x18#6 s = bitLenLo s := rfl
@[simp] theorem regRead_bitLenHi : regRead 0x1C#6 s = bitLenHi s := rfl
@[simp] theorem regRead_errInfo : regRead 0x20#6 s = s.errInfo := rfl

@[simp] theorem regWrite_cmd : regWrite 0x00#6 v s = cmdWrite v s := rfl
@[simp] theorem regWrite_status : regWrite 0x04#6 v s = statusWrite v s := rfl
@[simp] theorem regWrite_ctrl : regWrite 0x08#6 v s = ctrlWrite v s := rfl
@[simp] theorem regWrite_width :
    regWrite 0x0C#6 v s = operandWrite (fun s => { s with width := v }) s := rfl
@[simp] theorem regWrite_height :
    regWrite 0x10#6 v s = operandWrite (fun s => { s with height := v }) s := rfl
@[simp] theorem regWrite_payLen :
    regWrite 0x14#6 v s = operandWrite (fun s => { s with payLen := v }) s := rfl
@[simp] theorem regWrite_bitLenLo :
    regWrite 0x18#6 v s = operandWrite (fun s => { s with bitLen := joinBitLen (bitLenHi s) v }) s := rfl
@[simp] theorem regWrite_bitLenHi :
    regWrite 0x1C#6 v s = operandWrite (fun s => { s with bitLen := joinBitLen v (bitLenLo s) }) s := rfl
@[simp] theorem regWrite_errInfo : regWrite 0x20#6 v s = s := rfl

end

/-- An unmapped offset reads 0 (rule R22). -/
theorem regRead_unmapped {off : BitVec 6} (h : 0x24 ≤ off.toNat) (s : State) : regRead off s = 0#32 := by
  unfold regRead
  split
  case h_10 => rfl
  all_goals omega

/-- A write to an unmapped offset has no effect (rule R22). -/
theorem regWrite_unmapped {off : BitVec 6} (h : 0x24 ≤ off.toNat) (v : Word) (s : State) : regWrite off v s = s := by
  unfold regWrite
  split
  case h_9 => rfl
  all_goals omega

/-! ## CMD and the operand registers, while BUSY = 1 and while BUSY = 0 -/

theorem cmdWrite_of_busy {s : State} (hb : s.busy = true) (v : Word) : cmdWrite v s = dropWrite s := by
  simp [cmdWrite, hb]

theorem cmdWrite_of_idle {s : State} (hb : s.busy = false) (v : Word) : cmdWrite v s = launch v s := by
  simp [cmdWrite, hb]

theorem operandWrite_of_busy {s : State} (hb : s.busy = true) (update : State → State) :
    operandWrite update s = dropWrite s := by
  simp [operandWrite, hb]

theorem operandWrite_of_idle {s : State} (hb : s.busy = false) (update : State → State) :
    operandWrite update s = update s := by
  simp [operandWrite, hb]

/-- The launch of a legal word, written at CMD (rule R25). -/
theorem cmdWrite_of_legal {s : State} {v : Word} (hb : s.busy = false) (hv : legal v = true) :
    cmdWrite v s = afterLaunch v s := by
  rw [cmdWrite_of_idle hb]
  rcases launch_cases v s with ⟨-, h⟩ | ⟨hv', -⟩
  · exact h
  · simp [hv] at hv'

/-- A word that is no command, written at CMD, is recorded as ILLEGAL (rules R25, R94). -/
theorem cmdWrite_of_illegal {s : State} {v : Word} (hb : s.busy = false) (hv : legal v = false) :
    cmdWrite v s = afterError 6#4 0#32 s := by
  rw [cmdWrite_of_idle hb]
  rcases launch_cases v s with ⟨hv', -⟩ | ⟨-, h⟩
  · simp [hv] at hv'
  · simp [h, hb, recordError, afterError, errorCode, errorInfo]

/-- The opcode latched for a word that decodes is the one of its command (rules R38, R91). -/
theorem decodeOp_of_decode {v : Word} {i : Instr} (h : decode v = .ok i) : decodeOp (opField v) = some i := by
  unfold decode at h
  split at h
  · split at h
    next j hj => cases h; exact hj
    next => cases h
  · cases h

/-! ## STATUS and CTRL, bit by bit -/

/-- A flag in bit k of a word. -/
theorem flag_getLsbD (b : Bool) {k : Nat} (hk : k < 32) (n : Nat) :
    ((BitVec.ofBool b).setWidth 32 <<< k).getLsbD n = (decide (n = k) && b) := by
  simp only [BitVec.getLsbD_shiftLeft, BitVec.getLsbD_setWidth, BitVec.getLsbD_ofBool]
  by_cases hn : n = k
  · simp [hn, hk]
  · rcases Nat.lt_or_gt_of_ne hn with hlt | hgt
    · simp [hn, hlt]
    · have : n - k ≠ 0 := by omega
      simp [hn, this]

/-- ERRCODE in bits 11:8 of a word. -/
theorem errCode_getLsbD (c : BitVec 4) (n : Nat) :
    (c.setWidth 32 <<< 8).getLsbD n = (decide (8 ≤ n ∧ n < 12) && c.getLsbD (n - 8)) := by
  simp only [BitVec.getLsbD_shiftLeft, BitVec.getLsbD_setWidth]
  by_cases hn : 8 ≤ n ∧ n < 12
  · have : n < 32 ∧ ¬ n < 8 ∧ n - 8 < 32 := by omega
    simp [hn, this]
  · by_cases h8 : n < 8
    · simp [h8]
    · simp [hn, BitVec.getLsbD_of_ge c (n - 8) (by omega)]

/-- The layout of STATUS (rule R26). -/
theorem statusWord_getLsbD (s : State) (n : Nat) : (statusWord s).getLsbD n =
    if n = 0 then s.busy else if n = 1 then s.done else if n = 2 then s.err else if n = 3 then s.ovr
    else if 8 ≤ n ∧ n < 12 then s.errCode.getLsbD (n - 8) else false := by
  have busy : ((BitVec.ofBool s.busy).setWidth 32).getLsbD n = (decide (n = 0) && s.busy) := by
    simpa using flag_getLsbD s.busy (k := 0) (by omega) n
  simp only [statusWord, BitVec.getLsbD_or, flag_getLsbD, Nat.reduceLT, errCode_getLsbD, busy]
  split_ifs <;> simp_all

/-- The layout of CTRL (rule R29). -/
theorem ctrlWord_getLsbD (s : State) (n : Nat) : (ctrlWord s).getLsbD n = if n = 0 then s.irqEn else false := by
  have irqEn : (ctrlWord s).getLsbD n = (decide (n = 0) && s.irqEn) := by
    simpa [ctrlWord] using flag_getLsbD s.irqEn (k := 0) (by omega) n
  rw [irqEn]
  split_ifs with h0 <;> simp [h0]

/-- A STATUS write looks at bits 1 to 3 alone (rule R27). -/
theorem statusWrite_congr {v w : Word} (s : State) (h1 : v.getLsbD 1 = w.getLsbD 1) (h2 : v.getLsbD 2 = w.getLsbD 2)
    (h3 : v.getLsbD 3 = w.getLsbD 3) : statusWrite v s = statusWrite w s := by
  simp only [statusWrite, h1, h2, h3]

/-- A CTRL write looks at bit 0 alone (rule R29). -/
theorem ctrlWrite_congr {v w : Word} (s : State) (h : v.getLsbD 0 = w.getLsbD 0) : ctrlWrite v s = ctrlWrite w s := by
  simp only [ctrlWrite, h]

/-! ## BIT_LEN and its halves (rule R33) -/

/-- BIT_LEN is its two halves, the high one first. -/
theorem joinBitLen_eq_append (hi lo : Word) : joinBitLen hi lo = hi ++ lo := by
  rw [BitVec.append_def, BitVec.shiftLeftZeroExtend_eq]
  rfl

@[simp] theorem joinBitLen_lo (hi lo : Word) : (joinBitLen hi lo).extractLsb' 0 32 = lo := by
  rw [joinBitLen_eq_append, BitVec.extractLsb'_append_eq_right]

@[simp] theorem joinBitLen_hi (hi lo : Word) : (joinBitLen hi lo).extractLsb' 32 32 = hi := by
  rw [joinBitLen_eq_append, BitVec.extractLsb'_append_eq_left]

/-- The half that a write of BIT_LEN_LO keeps, in its place. -/
theorem bitLenHi_shiftLeft (s : State) : (bitLenHi s).setWidth 64 <<< 32 = (s.bitLen >>> 32) <<< 32 := by
  rw [bitLenHi]
  ext i hi
  simp only [BitVec.getElem_shiftLeft, BitVec.getElem_setWidth, BitVec.getLsbD_extractLsb', BitVec.getElem_ushiftRight]
  by_cases h : i < 32
  · simp [h]
  · have : i - 32 < 32 := by omega
    simp [h, this]

/-- The half that a write of BIT_LEN_HI keeps. -/
theorem bitLenLo_eq_setWidth (s : State) : bitLenLo s = s.bitLen.setWidth 32 :=
  (BitVec.setWidth_eq_extractLsb' (by omega)).symm

theorem bitLen_toNat (s : State) : s.bitLen.toNat = (bitLenHi s).toNat * 2 ^ 32 + (bitLenLo s).toNat := by
  have := s.bitLen.isLt
  simp only [bitLenHi, bitLenLo, BitVec.extractLsb'_toNat, Nat.shiftRight_eq_div_pow]
  omega

/-! ## Admission (rule R21) -/

theorem regAdmitted_iff (w : AccessWidth) (off : BitVec 6) :
    regAdmitted w off = true ↔ w = .w32 ∧ off.toNat % 4 = 0 := by
  simp [regAdmitted]

/-! ## The obligations about single accesses -/

/-- Settles O5: a legal word is launched and its opcode decodes to the command the engine then runs; any other word is
recorded as ILLEGAL and leaves the engine idle. -/
theorem launchRule : Obligations.LaunchRule := by
  intro v s hb
  refine ⟨fun hv => ⟨cmdWrite_of_legal hb hv, ?_⟩, fun hv => ⟨cmdWrite_of_illegal hb hv, engineTurn_of_idle rfl⟩⟩
  obtain ⟨i, hi⟩ := (legal_iff v).mp hv
  exact ⟨i, hi, engineTurn_of_busy rfl (decodeOp_of_decode hi)⟩

/-- Settles O7: while BUSY = 1 a CMD write is dropped. -/
theorem cmdWriteWhileBusySetsOvr : Obligations.CmdWriteWhileBusySetsOvr :=
  fun v _ hb => cmdWrite_of_busy hb v

/-- Settles O8, by the layout of STATUS. -/
theorem statusReadLayout : Obligations.StatusReadLayout := statusWord_getLsbD

/-- Settles O9: to mask a flag with the negated bit is to clear it where the bit is 1. -/
theorem statusWriteClearsByOne : Obligations.StatusWriteClearsByOne := by
  intro v s
  have clear (f b : Bool) : (f && !b) = if b then false else f := by cases b <;> simp
  simp only [regWrite_status, statusWrite, clear]

/-- Settles O10, by the layout of CTRL. -/
theorem ctrlHoldsIrqEnable : Obligations.CtrlHoldsIrqEnable :=
  fun _ s => ⟨rfl, ctrlWord_getLsbD s⟩

/-- Settles O11: the reserved bits are 0 by the layouts of STATUS and CTRL, and the masks keep every bit that a write
looks at. -/
theorem unmappedAndReservedReadZero : Obligations.UnmappedAndReservedReadZero := by
  intro v s
  have mask (m : Word) {k : Nat} (hm : m.getLsbD k = true) : v.getLsbD k = (v &&& m).getLsbD k := by
    rw [BitVec.getLsbD_and, hm, Bool.and_true]
  refine ⟨fun off h _ => ⟨regRead_unmapped h s, regWrite_unmapped h v s⟩, fun n hn => ?_, fun n hn => ?_,
    statusWrite_congr s (mask _ (by decide)) (mask _ (by decide)) (mask _ (by decide)),
    ctrlWrite_congr s (mask _ (by decide))⟩
  · rw [regRead_status, statusWord_getLsbD]
    repeat rw [if_neg (by omega)]
  · rw [regRead_ctrl, ctrlWord_getLsbD, if_neg (by omega)]

/-- Settles O12, by the offsets of CMD and ERR_INFO. -/
theorem cmdReadsZeroErrInfoReadOnly : Obligations.CmdReadsZeroErrInfoReadOnly :=
  fun v s => ⟨regRead_cmd s, regWrite_errInfo v s, regRead_errInfo s⟩

/-- Settles O13: each of the five writes is an operand write, dropped while BUSY = 1. -/
theorem operandWriteWhileBusySetsOvr : Obligations.OperandWriteWhileBusySetsOvr := by
  intro v s off hb hoff
  simp only [List.mem_cons, List.not_mem_nil, or_false] at hoff
  rcases hoff with rfl | rfl | rfl | rfl | rfl
  all_goals simp only [regWrite_width, regWrite_height, regWrite_payLen, regWrite_bitLenLo, regWrite_bitLenHi,
    operandWrite_of_busy hb, dropWrite]

/-- Settles O14: the update of each operand write, the kept half of BIT_LEN being moved back to its place. -/
theorem operandWriteStores : Obligations.OperandWriteStores := by
  intro v s hb
  refine ⟨?_, ?_, ?_, ?_, ?_⟩
  · rw [regWrite_width, operandWrite_of_idle hb]
  · rw [regWrite_height, operandWrite_of_idle hb]
  · rw [regWrite_payLen, operandWrite_of_idle hb]
  · rw [regWrite_bitLenLo, operandWrite_of_idle hb, joinBitLen, bitLenHi_shiftLeft]
  · rw [regWrite_bitLenHi, operandWrite_of_idle hb, joinBitLen, bitLenLo_eq_setWidth]

/-- Settles O15: each operand write by the register it updates, read at each of the five offsets. -/
theorem operandReadsBack : Obligations.OperandReadsBack := by
  intro v s hb
  refine ⟨fun off hoff => ?_, bitLen_toNat s⟩
  simp only [List.mem_cons, List.not_mem_nil, or_false] at hoff
  rcases hoff with rfl | rfl | rfl | rfl | rfl
  all_goals simp [operandWrite_of_idle hb, bitLenLo, bitLenHi]

/-- Settles O17: the model carries an access out exactly when it admits it. -/
theorem registerAccessAdmission : Obligations.RegisterAccessAdmission := by
  intro w off v s
  rw [← regAdmitted_iff]
  refine ⟨fun h => ?_, fun h => ?_⟩
  · simp [portWrite, portRead, h, reply]
  · simp [portWrite, portRead, h]

/-! ## Power-on -/

theorem regRead_powerOn (c : Config) (off : BitVec 6) : regRead off (State.powerOn c) = 0#32 := by
  unfold regRead
  split
  case h_2 => simp [statusWord, State.powerOn]
  case h_8 => simp [bitLenHi, State.powerOn]
  all_goals rfl

/-- Settles O47: every register reads 0 and every memory is empty. -/
theorem powerOnState : Obligations.PowerOnState :=
  fun c => ⟨regRead_powerOn c, rfl, rfl, fun _ => ⟨rfl, rfl, rfl⟩⟩

/-- Settles O50: at power-on BUSY is 0, the record is clear and every memory is empty. -/
theorem powerOnMeetsInvariants : Obligations.PowerOnMeetsInvariants := by
  intro c
  refine ⟨⟨rfl, fun hb => ?_, by simp [State.powerOn], fun hb => ?_⟩, rfl, rfl, rfl, rfl, rfl, rfl⟩
  all_goals exact absurd hb Bool.false_ne_true

end Sys2Proof.Machine
end

section
/-! PROOFS. Scope: what one step does to STATUS, to the operands and to BUSY, whatever agent moves (rules R5, R25, R28,
R37, R38). -/

namespace Sys2Proof.Machine

/-! ## Everything one step can do -/

/-- A command that answers a next state recorded the success of its plan's commit, or the error of its plan. -/
theorem exec_next {i : Instr} {s t : State} (h : exec i s = .next t) :
    (∃ c, planOf i s = .ok c ∧ t = recordSuccess (applyCommit c s)) ∨
    (∃ e, planOf i s = .error (.raise e) ∧ t = recordError e s) :=
  complete_next ((exec_eq_complete i s).symm.trans h)

/-- The effect of one step from s to t, with `turns` the schedule after it. -/
inductive StepEffect (s t : State) : Prop
  /-- The host's turn, with `ops` its operations after it. -/
  | host (turns : List Agent) (ops : List HostOp) (effect : PortEffect { s with turns := turns, host := ops } t)
  /-- The engine's turn while BUSY = 0. -/
  | idle (turns : List Agent) (hb : s.busy = false) (ht : t = { s with turns := turns })
  /-- The completion of a command that succeeds. -/
  | success (turns : List Agent) (i : Instr) (c : Commit) (hb : s.busy = true)
      (plan : planOf i { s with turns := turns } = .ok c)
      (ht : t = recordSuccess (applyCommit c { s with turns := turns }))
  /-- The completion of a command that fails. -/
  | failure (turns : List Agent) (i : Instr) (e : CmdError) (hb : s.busy = true)
      (plan : planOf i { s with turns := turns } = .error (.raise e))
      (ht : t = recordError e { s with turns := turns })
  /-- A reset. -/
  | reset (turns : List Agent) (ht : t = resetMachine { s with turns := turns })

/-- A step that answers a next state has one of these effects. -/
theorem stepEffect_of_step {s t : State} (h : step s = .next t) : StepEffect s t := by
  rcases step_cases s with ⟨-, hr⟩ | ⟨ts, hr⟩ | ⟨ts, hr⟩ | ⟨ts, hr⟩ <;> rw [hr] at h
  · cases h
  · obtain ⟨ops, effect⟩ := hostTurn_next h
    exact .host ts ops effect
  · rcases engineTurn_next h with ⟨hb, ht⟩ | ⟨hb, i, -, hx⟩
    · exact .idle ts hb ht
    · rcases exec_next hx with ⟨c, plan, ht⟩ | ⟨e, plan, ht⟩
      · exact .success ts i c hb plan ht
      · exact .failure ts i e hb plan ht
  · cases h
    exact .reset ts rfl

/-! ## The STATUS invariants (rule R28) -/

/-- Every error code is at most 6 (rule R181). -/
theorem errorCode_le (e : CmdError) : (errorCode e).toNat ≤ 6 := by
  cases e <;> simp [errorCode]

theorem statusInv_recordSuccess (s : State) : StatusInv (recordSuccess s) := by
  simp [StatusInv]

theorem statusInv_recordError (e : CmdError) (s : State) : StatusInv (recordError e s) := by
  simp [StatusInv, errorCode_le]

theorem statusInv_resetMachine (s : State) : StatusInv (resetMachine s) := by
  simp [StatusInv, resetMachine]

/-- An operation of the host keeps the STATUS invariants: it is a register write, or changes no register. -/
theorem statusInv_of_portEffect {s t : State} (hi : StatusInv s) (h : PortEffect s t) : StatusInv t := by
  rcases h with ⟨_, _, rfl⟩ | ⟨off, v, rfl⟩ | ⟨-, ⟨_, _, -, rfl⟩ | ⟨_, _, -, rfl⟩ | ⟨_, _, -, rfl⟩ | ⟨_, _, -, rfl⟩⟩
  case inr.inl => exact StatusInv_regWrite hi
  all_goals exact hi

/-- Settles O48: a step is an operation of the host, an idle turn, a completion or a reset, and each keeps the STATUS
invariants. -/
theorem stepKeepsStatusInvariant : Obligations.StepKeepsStatusInvariant := by
  intro s t hi h
  cases stepEffect_of_step h with
  | host ts ops effect => exact statusInv_of_portEffect (s := { s with turns := ts, host := ops }) hi effect
  | idle ts hb ht => exact ht ▸ hi
  | success ts i c hb plan ht => exact ht ▸ statusInv_recordSuccess _
  | failure ts i e hb plan ht => exact ht ▸ statusInv_recordError e _
  | reset ts ht => exact ht ▸ statusInv_resetMachine _

/-- A register write keeps ERRCODE, clears it, or sets ERR with it (rule R28 (d)). -/
theorem regWrite_errCode (off : BitVec 6) (v : Word) (s : State) :
    (regWrite off v s).errCode = s.errCode ∨ (regWrite off v s).errCode = 0#4 ∨ (regWrite off v s).err = true := by
  rcases regWrite_cases off v s with h | h | h | ⟨-, h⟩ | ⟨-, h | ⟨_, _, _, _, h⟩⟩ <;> rw [h]
  case inr.inr.inr.inr.inl =>
    rcases launch_cases v s with ⟨-, h⟩ | ⟨-, h⟩ <;> rw [h]
    · exact .inr (.inl rfl)
    · exact .inr (.inr rfl)
  all_goals exact .inl rfl

/-- An operation of the host keeps ERRCODE, clears it, or sets ERR with it. -/
theorem errCode_of_portEffect {s t : State} (h : PortEffect s t) :
    t.errCode = s.errCode ∨ t.errCode = 0#4 ∨ t.err = true := by
  rcases h with ⟨_, _, rfl⟩ | ⟨off, v, rfl⟩ | ⟨-, ⟨_, _, -, rfl⟩ | ⟨_, _, -, rfl⟩ | ⟨_, _, -, rfl⟩ | ⟨_, _, -, rfl⟩⟩
  case inr.inl => exact regWrite_errCode off v s
  all_goals exact .inl rfl

/-- Settles O51: only a launch and a completion change ERRCODE; a success, a legal launch and a reset clear it, and an
error sets ERR with it. -/
theorem newErrCodeComesWithErr : Obligations.NewErrCodeComesWithErr := by
  intro s t h hne
  cases stepEffect_of_step h with
  | host ts ops effect =>
    rcases errCode_of_portEffect effect with hs | h0 | he
    · exact .inl hs
    · exact absurd h0 hne
    · exact .inr he
  | idle ts hb ht => exact .inl (ht ▸ rfl)
  | success ts i c hb plan ht => exact absurd (ht ▸ rfl) hne
  | failure ts i e hb plan ht => exact .inr (ht ▸ rfl)
  | reset ts ht => exact absurd (ht ▸ rfl) hne

/-! ## The operands while a command is in flight (rules R24, R35, R38, R74) -/

/-- t has the operand registers and the latched opcode of s. -/
structure SameOperands (s t : State) : Prop where
  width : t.width = s.width
  height : t.height = s.height
  payLen : t.payLen = s.payLen
  bitLen : t.bitLen = s.bitLen
  curOp : t.curOp = s.curOp

theorem SameOperands.trans {s t u : State} (h : SameOperands s t) (h' : SameOperands t u) : SameOperands s u :=
  ⟨h'.width.trans h.width, h'.height.trans h.height, h'.payLen.trans h.payLen, h'.bitLen.trans h.bitLen,
    h'.curOp.trans h.curOp⟩

/-- A register write while BUSY = 1 leaves BUSY at 1. -/
theorem regWrite_busy_of_busy {s : State} (hb : s.busy = true) (off : BitVec 6) (v : Word) :
    (regWrite off v s).busy = true := by
  rcases regWrite_cases off v s with h | h | h | ⟨-, h⟩ | ⟨hi, -⟩
  case inr.inr.inr.inr => simp [hb] at hi
  all_goals simp [h, hb]

/-- A register write while BUSY = 1 changes no operand. -/
theorem sameOperands_regWrite {s : State} (hb : s.busy = true) (off : BitVec 6) (v : Word) :
    SameOperands s (regWrite off v s) := by
  rcases regWrite_cases off v s with h | h | h | ⟨-, h⟩ | ⟨hi, -⟩
  case inr.inr.inr.inr => simp [hb] at hi
  all_goals rw [h]; exact ⟨rfl, rfl, rfl, rfl, rfl⟩

/-- Settles O52: a completion and a reset leave BUSY at 0, so the step was an operation of the host; while BUSY = 1 it
is a register write that changes no operand, or changes the host's own fields alone. -/
theorem operandsStableWhileBusy : Obligations.OperandsStableWhileBusy := by
  intro s t h hs ht
  cases stepEffect_of_step h with
  | host ts ops effect =>
    rcases effect with ⟨_, _, rfl⟩ | ⟨off, v, rfl⟩ | ⟨hb, -⟩
    · exact ⟨rfl, rfl, rfl, rfl, rfl, rfl, rfl, rfl, rfl⟩
    · obtain ⟨hw, hh, hp, hl, hc⟩ := sameOperands_regWrite (s := { s with turns := ts, host := ops }) hs off v
      obtain ⟨hr, hbb, hpay, hcfg, -⟩ := regWrite_frame off v { s with turns := ts, host := ops }
      exact ⟨hw, hh, hp, hl, hc, hr, hbb, hpay, hcfg⟩
    · cases hs.symm.trans hb
  | idle ts hb _ => cases hs.symm.trans hb
  | success ts i c hb plan heq => simp [heq] at ht
  | failure ts i e hb plan heq => simp [heq] at ht
  | reset ts heq => simp [heq, resetMachine] at ht

/-! ## Reads of a command in flight (rule R37) -/

/-- Any register writes while BUSY = 1: BUSY stays 1, the STATUS invariants hold, and no operand changes. -/
theorem inFlight_of_regWrites (writes : List (BitVec 6 × Word)) {s t : State} (hb : s.busy = true) (hi : StatusInv s)
    (ht : t = writes.foldl (fun u w => regWrite w.1 w.2 u) s) :
    t.busy = true ∧ StatusInv t ∧ SameOperands s t := by
  induction writes generalizing s with
  | nil => exact ht ▸ ⟨hb, hi, rfl, rfl, rfl, rfl, rfl⟩
  | cons w ws ih =>
    obtain ⟨hb', hi', same⟩ := ih (regWrite_busy_of_busy hb w.1 w.2) (StatusInv_regWrite hi) ht
    exact ⟨hb', hi', (sameOperands_regWrite hb w.1 w.2).trans same⟩

theorem statusInv_afterLaunch {v : Word} (hv : legal v = true) (s : State) : StatusInv (afterLaunch v s) :=
  ⟨rfl, fun _ => ⟨rfl, rfl, rfl, rfl⟩, by simp [afterLaunch], fun _ => legal_op hv⟩

/-- STATUS of a command in flight: BUSY and OVR alone. -/
theorem statusWord_of_busy {s : State} (hb : s.busy = true) (hi : StatusInv s) :
    statusWord s = if s.ovr then 0x00000009#32 else 0x00000001#32 := by
  obtain ⟨-, quiet, -, -⟩ := hi
  obtain ⟨hd, he, hc, -⟩ := quiet hb
  cases ho : s.ovr <;> simp [statusWord, hb, hd, he, hc, ho]

/-- Settles O16: after the launch BUSY is 1 and the STATUS invariants hold, and no register write changes that or an
operand. -/
theorem registerReadsWhileBusy : Obligations.RegisterReadsWhileBusy := by
  intro s v writes t hs hv ht
  rw [regWrite_cmd, cmdWrite_of_legal hs hv] at ht
  obtain ⟨hb, hi, hw, hh, hp, hl, -⟩ :=
    inFlight_of_regWrites writes (s := afterLaunch v s) rfl (statusInv_afterLaunch hv s) ht
  have ⟨_, quiet, _, _⟩ := hi
  have ⟨_, _, _, info⟩ := quiet hb
  exact ⟨hw, hh, hp, congrArg (BitVec.extractLsb' 0 32) hl, congrArg (BitVec.extractLsb' 32 32) hl, info,
    statusWord_of_busy hb hi⟩

/-! ## Setting BUSY (rules R25, R26) -/

/-- An operand write keeps BUSY, as its update does. -/
theorem operandWrite_busy {update : State → State} (hu : ∀ u, (update u).busy = u.busy) (s : State) :
    (operandWrite update s).busy = s.busy := by
  cases hb : s.busy with
  | true => rw [operandWrite_of_busy hb, dropWrite_busy, hb]
  | false => rw [operandWrite_of_idle hb, hu, hb]

/-- Only a write at CMD changes BUSY. -/
theorem regWrite_busy_of_ne_cmd {off : BitVec 6} (hne : off ≠ 0x00#6) (v : Word) (s : State) :
    (regWrite off v s).busy = s.busy := by
  unfold regWrite
  split
  case h_1 h => exact absurd (BitVec.eq_of_toNat_eq h) hne
  case h_4 | h_5 | h_6 | h_7 | h_8 => refine operandWrite_busy ?_ s; exact fun _ => rfl
  all_goals rfl

/-- A register write that sets BUSY is the launch of a legal word. -/
theorem regWrite_sets_busy {off : BitVec 6} {v : Word} {s : State} (hs : s.busy = false)
    (ht : (regWrite off v s).busy = true) :
    off = 0x00#6 ∧ legal v = true ∧ regWrite off v s = afterLaunch v s := by
  by_cases hne : off = 0x00#6
  · subst hne
    cases hv : legal v with
    | true => exact ⟨rfl, rfl, cmdWrite_of_legal hs hv⟩
    | false => simp [cmdWrite_of_illegal hs hv, afterError] at ht
  · rw [regWrite_busy_of_ne_cmd hne, hs] at ht
    cases ht

/-- An admitted access to a memory is its effect. -/
theorem memoryAccess_next {sp : Space} {k : Nat} {s t : State} {go : Host.Outcome State Fault Refusal}
    (h : memoryAccess sp k s go = .next t) : go = .next t := by
  unfold memoryAccess at h
  split at h
  · cases h
  · split at h
    · exact h
    · cases h

/-- A write at a port that sets BUSY is a write of a legal word at CMD. -/
theorem portWrite_sets_busy {p : PortAccess} {v : Word} {s t : State} (h : portWrite p v s = .next t)
    (hs : s.busy = false) (ht : t.busy = true) :
    p = .reg .w32 0x00#6 ∧ legal v = true ∧ t = afterLaunch v s := by
  cases p with
  | reg width off =>
    simp only [portWrite] at h
    split at h
    next hadm =>
      cases h
      obtain ⟨hwidth, -⟩ := (regAdmitted_iff width off).mp hadm
      obtain ⟨hoff, hv, heq⟩ := regWrite_sets_busy hs ht
      exact ⟨by rw [hwidth, hoff], hv, heq⟩
    next => cases h
  | raster k | bitbuf k | payload k | payloadByte k lane =>
    cases memoryAccess_next h
    cases hs.symm.trans ht

/-- A bus access in the register window has the width of its port access. -/
theorem busResolve_reg_width {c : Config} {width width' : AccessWidth} {addr : Nat} {off : BitVec 6}
    (h : busResolve c width addr = some (.reg width' off)) : width' = width := by
  unfold busResolve at h
  split at h
  · cases h
    rfl
  · repeat' split at h
    all_goals cases h

/-- An operation of the host that sets BUSY is a write of a legal word at CMD. -/
theorem hostOp_sets_busy {op : HostOp} {s t : State} (h : hostOp op s = .next t) (hs : s.busy = false)
    (ht : t.busy = true) :
    ∃ v, legal v = true ∧ t = afterLaunch v s ∧
      (op = .write (.reg .w32 0x00#6) v ∨
        ∃ addr, op = .busWrite .w32 addr v ∧ busResolve s.cfg .w32 addr = some (.reg .w32 0x00#6)) := by
  have read_idle {p : PortAccess} (h : portRead p s = .next t) : t.busy = false := by
    obtain ⟨w, rfl⟩ := portRead_next h
    exact hs
  cases op with
  | write p v =>
    obtain ⟨rfl, hv, heq⟩ := portWrite_sets_busy h hs ht
    exact ⟨v, hv, heq, .inl rfl⟩
  | read p => cases (read_idle h).symm.trans ht
  | busWrite width addr v =>
    simp only [hostOp] at h
    split at h
    next p hres =>
      obtain ⟨rfl, hv, heq⟩ := portWrite_sets_busy h hs ht
      obtain rfl := busResolve_reg_width hres
      exact ⟨v, hv, heq, .inr ⟨addr, rfl, hres⟩⟩
    next => cases h
  | busRead width addr =>
    simp only [hostOp] at h
    split at h
    next p hres => cases (read_idle h).symm.trans ht
    next => cases h
  | wait =>
    cases h
    have : (waitPoll s).busy = s.busy := by unfold waitPoll; split <;> rfl
    simp [this, hs] at ht

/-- With no turn left, an idle machine steps by the host's turn (log entry 1). -/
theorem step_of_no_turn_of_idle {s : State} (hc : configAdmitted s.cfg = true) (ht : s.turns = [])
    (hb : s.busy = false) : step s = hostTurn s := by
  simp [step, hc, scheduledStep, ht, defaultTurn, hb]

/-- A step that sets BUSY is the host's turn: named by the schedule, or with no turn left. -/
theorem hostTurn_of_step_sets_busy {s t : State} (h : step s = .next t) (hs : s.busy = false) (ht : t.busy = true) :
    ∃ rest, (s.turns = .host :: rest ∨ (s.turns = [] ∧ rest = [])) ∧ hostTurn { s with turns := rest } = .next t := by
  have hc : configAdmitted s.cfg = true := by
    by_contra hc
    simp [step, hc] at h
  cases hturns : s.turns with
  | nil =>
    have : s = { s with turns := [] } := hturns ▸ rfl
    rw [step_of_no_turn_of_idle hc hturns hs, this] at h
    exact ⟨[], .inr ⟨rfl, rfl⟩, h⟩
  | cons a rest =>
    rw [step_of_turn hc hturns] at h
    cases a with
    | host => exact ⟨rest, .inl rfl, h⟩
    | engine =>
      rw [agentTurn, engineTurn_of_idle (s := { s with turns := rest }) hs] at h
      cases h
      cases hs.symm.trans ht
    | reset =>
      cases h
      cases ht

/-- Settles O53: the step was the host's turn, the host had an operation left, and an operation that sets BUSY is a
write of a legal word at CMD. -/
theorem onlyLegalLaunchSetsBusy : Obligations.OnlyLegalLaunchSetsBusy := by
  intro s t h hs ht
  obtain ⟨rest, hturns, hturn⟩ := hostTurn_of_step_sets_busy h hs ht
  cases hhost : s.host with
  | nil =>
    simp only [hostTurn, hhost] at hturn
    cases hturn
    cases hs.symm.trans ht
  | cons op ops =>
    rw [hostTurn_cons (s := { s with turns := rest }) hhost] at hturn
    obtain ⟨v, hv, heq, hop⟩ := hostOp_sets_busy hturn hs ht
    exact ⟨v, op, ops, rest, hv, rfl, hop, hturns, heq⟩

/-- Settles O55: the host's turn launches the instruction, and the engine's turn then runs the opcode latched. -/
theorem cmdWriteThenCompletion : Obligations.CmdWriteThenCompletion := by
  intro i s u ops rest hc hb hhost hturns hu
  let launched := afterLaunch (encode i) { s with host := ops, turns := .engine :: rest }
  have write : hostOp (hostCmd i) { s with host := ops, turns := .engine :: rest } = .next launched :=
    congrArg Host.Outcome.next (cmdWrite_of_legal hb (legal_encode i))
  have launches : step s = .next launched :=
    (step_of_turn hc hturns).trans ((hostTurn_cons (s := { s with turns := .engine :: rest }) hhost).trans write)
  have completes : step launched = engineTurn u := hu ▸ step_of_turn (s := launched) hc rfl
  exact ⟨launched, launches, completes.trans (hu ▸ engineTurn_of_busy rfl (decodeOp_encode i))⟩

end Sys2Proof.Machine
end

section
/-! PROOFS. Scope: the memories (rules R61 to R64, R68, R70 to R74): what every step and every command keeps of them,
the host's accesses to them, and their layouts. -/

namespace Sys2Proof.Machine

/-! ## Every step keeps the memories in canonical form and inside their spaces -/

@[simp] theorem resetMachine_cfg (s : State) : (resetMachine s).cfg = s.cfg := by
  unfold resetMachine resetMemories
  repeat' split
  all_goals rfl

/-- An operation of the host keeps every memory in form: it writes at most one cell, inside its space. -/
theorem memoryInv_of_portEffect {s t : State} (hi : MemoryInv s) (h : PortEffect s t) : MemoryInv t := by
  obtain ⟨wr, wb, wp, br, bb, bp⟩ := hi
  rcases h with ⟨_, _, rfl⟩ | ⟨off, v, rfl⟩ |
    ⟨-, ⟨k, w, hk, rfl⟩ | ⟨k, w, hk, rfl⟩ | ⟨k, w, hk, rfl⟩ | ⟨k, w, hk, rfl⟩⟩
  · exact ⟨wr, wb, wp, br, bb, bp⟩
  · obtain ⟨er, eb, ep, ec, -⟩ := regWrite_frame off v s
    rw [MemoryInv, er, eb, ep, ec]
    exact ⟨wr, wb, wp, br, bb, bp⟩
  · exact ⟨Memory.wf_write k w wr, wb, wp, Memory.below_write w hk br, bb, bp⟩
  · exact ⟨wr, Memory.wf_write k w wb, wp, br, Memory.below_write w hk bb, bp⟩
  · exact ⟨wr, wb, Memory.wf_write k w wp, br, bb, Memory.below_write w hk bp⟩
  · exact ⟨wr, wb, Memory.wf_writeWord k w wp, br, bb, Memory.below_writeWord w hk bp⟩

/-- The commit of a command keeps every memory in form: the command's checks bound its runs. -/
theorem memoryInv_applyCommit {i : Instr} {s : State} {c : Commit} (hi : MemoryInv s) (h : planOf i s = .ok c) :
    MemoryInv (applyCommit c s) := by
  obtain ⟨wr, wb, wp, br, bb, bp⟩ := hi
  obtain ⟨lr, lb, lp⟩ := planOf_ok_bounds h
  exact ⟨Memory.wf_writeRun _ _ wr, Memory.wf_writeRun _ _ wb, Memory.wf_writeWords _ _ wp,
    Memory.below_writeRun _ _ (.inr (by simpa using lr)) br, Memory.below_writeRun _ _ (.inr (by simpa using lb)) bb,
    Memory.below_writeWords _ lp bp⟩

/-- A reset keeps every memory in form: it only forgets cells. -/
theorem memoryInv_resetMachine {s : State} (hi : MemoryInv s) : MemoryInv (resetMachine s) := by
  obtain ⟨wr, wb, wp, br, bb, bp⟩ := hi
  obtain ⟨a, b, c, er, eb, ep⟩ := resetMachine_memories s
  rw [MemoryInv, er, eb, ep, resetMachine_cfg]
  exact ⟨Memory.wf_eraseBelow a wr, Memory.wf_eraseBelow b wb, Memory.wf_eraseBelow c wp,
    Memory.below_eraseBelow a br, Memory.below_eraseBelow b bb, Memory.below_eraseBelow c bp⟩

/-- Settles O49: a step is an operation of the host, an idle turn, a completion or a reset; an error record writes no
memory, and each of the others keeps the invariant. -/
theorem stepKeepsMemoryInvariant : Obligations.StepKeepsMemoryInvariant := by
  intro s t hi h
  cases stepEffect_of_step h with
  | host ts ops effect => exact memoryInv_of_portEffect (s := { s with turns := ts, host := ops }) hi effect
  | idle ts hb ht => exact ht ▸ hi
  | success ts i c hb plan ht => exact ht ▸ memoryInv_applyCommit (s := { s with turns := ts }) hi plan
  | failure ts i e hb plan ht => exact ht ▸ hi
  | reset ts ht => exact ht ▸ memoryInv_resetMachine (s := { s with turns := ts }) hi

/-! ## The frame of each command (rule R72) -/

/-- Settles O28: an error record changes STATUS and ERR_INFO alone, and a success adds the writes of a commit, which are
empty in the memories that the command does not own. -/
theorem commandFrame : Obligations.CommandFrame := by
  intro i s t h
  rcases exec_next h with ⟨c, plan, rfl⟩ | ⟨e, -, rfl⟩
  · obtain ⟨raster, bitbuf, payload⟩ := planOf_ok plan
    refine ⟨rfl, rfl, rfl, rfl, rfl, rfl, rfl, rfl, rfl, fun h1 h2 => ?_, fun h1 h2 => ?_, fun h1 h2 => ?_⟩
    · simp [raster h1 h2]
    · simp [bitbuf h1 h2]
    · simp [payload h1 h2]
  · exact ⟨rfl, rfl, rfl, rfl, rfl, rfl, rfl, rfl, rfl, fun _ _ => rfl, fun _ _ => ⟨rfl, rfl⟩,
      fun _ _ => ⟨rfl, rfl⟩⟩

/-! ## The configuration and accesses to the memories (rules R62, R70, R71, R74) -/

/-- Settles O57: such a configuration fails the first test of admission. -/
theorem smallBitbufConfigurationRefused : Obligations.SmallBitbufConfigurationRefused := by
  intro s h
  have small : decide (4 + s.cfg.payDepth ≤ s.cfg.bitbufBytes) = false := decide_eq_false (by omega)
  simp [step, configAdmitted, small]

/-- A memory access while BUSY = 1 (rule R74). -/
theorem memoryAccess_of_busy {s : State} (hb : s.busy = true) (sp : Space) (n : Nat)
    (go : Host.Outcome State Fault Refusal) : memoryAccess sp n s go = .refused (.memoryAccessWhileBusy sp) := by
  simp [memoryAccess, hb]

/-- A memory access to a cell of the space while BUSY = 0. -/
theorem memoryAccess_of_idle {s : State} (hb : s.busy = false) {sp : Space} {n : Nat} (hn : n < spaceSize s.cfg sp)
    (go : Host.Outcome State Fault Refusal) : memoryAccess sp n s go = go := by
  simp [memoryAccess, hb, hn]

/-- Settles O58: every memory port is behind the guard of rule R74, and an aligned register access is behind none. -/
theorem memoryAccessWhileBusyRefused : Obligations.MemoryAccessWhileBusyRefused := by
  intro s v n lane hb
  have refused := memoryAccess_of_busy hb
  refine ⟨refused _ _ _, refused _ _ _, refused _ _ _, refused _ _ _, refused _ _ _, refused _ _ _, refused _ _ _,
    refused _ _ _, fun off hoff => ?_⟩
  exact ((registerAccessAdmission .w32 off v s).1 ⟨rfl, hoff⟩).symm

/-- Settles O59: while BUSY = 0 an access to a cell of the space is carried out; a write is then the memory law of one
byte or of one word, and a read replies the value or faults. -/
theorem hostMemoryAccess : Obligations.HostMemoryAccess := by
  intro s v n hb
  have carried {sp : Space} (hn : n < spaceSize s.cfg sp) := memoryAccess_of_idle hb hn
  have stored (m : Memory) (k a : Nat) :
      Memory.read (Memory.write m k (v.setWidth 8)) a = if a = k then some (v.setWidth 8) else Memory.read m a := by
    simp only [Memory.read_write, eq_comm (a := k)]
  refine ⟨fun hn => ?raster, fun hn => ?bitbuf, fun hn => ⟨?word, ?wordValue, ?wordNone, ?lane⟩⟩
  case raster =>
    refine ⟨⟨_, carried (sp := .raster) hn _, rfl, stored s.raster n⟩, fun w hw => ?_, fun hw => ?_⟩
    all_goals simp [portRead, carried (sp := .raster) hn, hw, replyCell, reply]
  case bitbuf =>
    refine ⟨⟨_, carried (sp := .bitbuf) hn _, rfl, stored s.bitbuf n⟩, fun w hw => ?_, fun hw => ?_⟩
    all_goals simp [portRead, carried (sp := .bitbuf) hn, hw, replyCell, reply]
  case word =>
    refine ⟨_, carried (sp := .payload) hn _, rfl, ?_, fun a ha => ?_⟩
    · simp [Memory.readWord_writeWord]
    · simp only [Memory.read_writeWord]
      rw [if_neg (by omega)]
  case wordValue =>
    intro w hw
    simp [portRead, carried (sp := .payload) hn, hw, replyCell, reply]
  case wordNone =>
    intro hw
    simp [portRead, carried (sp := .payload) hn, hw, replyCell]
  case lane =>
    rintro lane k rfl
    refine ⟨⟨_, carried (sp := .payload) hn _, rfl, stored s.payload _⟩, fun w hw => ?_, fun hw => ?_⟩
    all_goals simp [portRead, carried (sp := .payload) hn, hw, replyCell, reply]

/-! ## Scan positions (rules R63, R64) -/

theorem capacity_eq (w h : Word) : capacity w h = 3 * (h.toNat * w.toNat) := by
  simp only [capacity, chansPerPixel]
  ring

/-- Settles O39: in a row-major order of the pixels, y * W + x is the number of a pixel below W * H, and division by W
gives y and x back; with three channels a pixel the same division by 3 gives c back. -/
theorem scanPositionIsRasterByte : Obligations.ScanPositionIsRasterByte := by
  intro w h
  refine ⟨fun x y c hx hy hc => ?_, fun k hk => ?_⟩
  · have pixel : y * w.toNat + x < h.toNat * w.toNat := by
      calc y * w.toNat + x < (y + 1) * w.toNat := by rw [Nat.succ_mul]; omega
        _ ≤ h.toNat * w.toNat := Nat.mul_le_mul_right _ hy
    have third : chan w x y c / 3 = y * w.toNat + x := by simp only [chan, chansPerPixel]; omega
    have row : (y * w.toNat + x) / w.toNat = y := by
      rw [Nat.div_eq_iff (by omega)]
      constructor <;> omega
    have column : (y * w.toNat + x) % w.toNat = x := by
      rw [Nat.mul_comm, Nat.mul_add_mod, Nat.mod_eq_of_lt hx]
    refine ⟨rfl, ?_, third ▸ column, third ▸ row, ?_⟩
    · rw [capacity_eq, chan, chansPerPixel]; omega
    · rw [chan, chansPerPixel]; omega
  · have pixel : k / 3 < h.toNat * w.toNat := by rw [capacity_eq] at hk; omega
    have width : 0 < w.toNat := Nat.pos_of_mul_pos_left (by omega : 0 < h.toNat * w.toNat)
    refine ⟨Nat.mod_lt _ width, Nat.div_lt_of_lt_mul (by rwa [Nat.mul_comm]), ?_⟩
    have back : k / 3 / w.toNat * w.toNat + k / 3 % w.toNat = k / 3 := Nat.div_add_mod' _ _
    rw [chan, chansPerPixel, back]
    omega

/-! ## Byte lanes of PAYLOAD (rule R68) -/

/-- Four bytes with values make the word of their cell. -/
theorem Memory.readWord_of_bytes {m : Memory} {i : Nat} {b0 b1 b2 b3 : Byte} (h0 : Memory.read m (4 * i) = some b0)
    (h1 : Memory.read m (4 * i + 1) = some b1) (h2 : Memory.read m (4 * i + 2) = some b2)
    (h3 : Memory.read m (4 * i + 3) = some b3) : Memory.readWord m i = some (b3 ++ b2 ++ b1 ++ b0) := by
  simp [Memory.readWord, h0, h1, h2, h3]

/-- A read after four lanes of word i are written one by one: the four writes are to different bytes of the word. -/
theorem Memory.read_lanes {m m' : Memory} {o : HostOrder} {i : Nat} {f : Fin 4 → Byte}
    (h : m' = Memory.write (Memory.write (Memory.write (Memory.write m (laneIndex o i 0) (f 0)) (laneIndex o i 1) (f 1))
      (laneIndex o i 2) (f 2)) (laneIndex o i 3) (f 3)) :
    (∀ lane, Memory.read m' (laneIndex o i lane) = some (f lane)) ∧
    ∀ a, a < 4 * i ∨ 4 * i + 4 ≤ a → Memory.read m' a = Memory.read m a := by
  have injective (j k : Fin 4) : laneIndex o i j = laneIndex o i k ↔ j = k := by
    cases o <;> simp only [laneIndex, laneByte, Fin.ext_iff] <;> omega
  have inside (j : Fin 4) : 4 * i ≤ laneIndex o i j ∧ laneIndex o i j < 4 * i + 4 := by
    have := laneByte_lt o j
    simp only [laneIndex]; omega
  simp only [h, Memory.read_write]
  refine ⟨fun lane => ?_, fun a ha => ?_⟩
  · simp only [injective]
    fin_cases lane <;> rfl
  · have outside (j : Fin 4) : laneIndex o i j ≠ a := by have := inside j; omega
    simp only [outside, if_false]

/-- Settles O42: a word is its four bytes, and the lanes are those bytes in one order or the other. -/
theorem payloadByteLanes : Obligations.PayloadByteLanes := by
  intro m i f
  refine ⟨fun w hw lane => ?_, fun o m' hm' => ?_⟩
  · obtain ⟨h0, h1, h2, h3⟩ := (Memory.readWord_eq_some m i w).1 hw
    fin_cases lane
    · exact ⟨h0, h3⟩
    · exact ⟨h1, h2⟩
    · exact ⟨h2, h1⟩
    · exact ⟨h3, h0⟩
  · obtain ⟨lanes, others⟩ := Memory.read_lanes hm'
    cases o with
    | little => exact ⟨Memory.readWord_of_bytes (lanes 0) (lanes 1) (lanes 2) (lanes 3), others⟩
    | big => exact ⟨Memory.readWord_of_bytes (lanes 3) (lanes 2) (lanes 1) (lanes 0), others⟩

end Sys2Proof.Machine
end

section
/-! PROOFS. Scope: when a command's result is defined (rules R80, R215): each command's plan faults exactly when a cell
that its checks let it read holds no value, and then at such a cell. -/

namespace Sys2Proof.Machine

/-- The result r of reads of s is defined exactly when p holds; where it is not, it is the fault of a cell that holds
no value (rule R80). -/
inductive DefinedIff {α : Type} (s : State) (r : Eval α) (p : Prop) : Prop
  | ok (hp : p) (a : α) (hr : r = .ok a)
  | raise (hp : p) (e : CmdError) (hr : r = .error (.raise e))
  | fault (hp : ¬ p) (sp : Space) (a : Nat) (hr : r = .error (.fault (.unwrittenCell sp a))) (hn : NoValue s sp a)

/-- A completion answers a next state exactly when its plan's result is defined. -/
theorem DefinedIff.complete {s : State} {r : Eval Commit} {p : Prop} (h : DefinedIff s r p) :
    (p → ∃ t, Machine.complete s r = .next t) ∧
    (¬ p → ∃ sp a, Machine.complete s r = .fault (.unwrittenCell sp a) ∧ NoValue s sp a) := by
  cases h with
  | ok hp c hr => exact ⟨fun _ => ⟨_, hr ▸ complete_ok s c⟩, fun hn => absurd hp hn⟩
  | raise hp e hr => exact ⟨fun _ => ⟨_, hr ▸ complete_raise s e⟩, fun hn => absurd hp hn⟩
  | fault hp sp a hr hn => exact ⟨fun h => absurd h hp, fun _ => ⟨sp, a, hr ▸ complete_fault s _, hn⟩⟩

/-! ## Reads of unwritten cells -/

theorem written_zero (m : Memory) : Written m 0 := fun _ h => absurd h (Nat.not_lt_zero _)

theorem exists_unwritten {m : Memory} {n : Nat} (h : ¬ Written m n) : ∃ a, a < n ∧ Memory.read m a = none := by
  simpa [Written] using h

/-- A run of bits that reaches an unwritten byte faults: with bytes 0 to lo - 1 written, it reads from byte lo or below
to byte hi - 1. -/
theorem getbits_unwritten {m : Memory} {k n lo hi : Nat} (hlo : Written m lo) (hhi : ¬ Written m hi)
    (hk : k ≤ 8 * lo) (hn : 8 * hi < k + n + 8) :
    ∃ a, getbits m k n = .error (.fault (.unwrittenCell .bitbuf a)) ∧ Memory.read m a = none := by
  obtain ⟨a, ha, hnone⟩ := exists_unwritten hhi
  have past : lo ≤ a := by
    by_contra hlt
    simpa [hnone] using hlo a (by omega)
  exact getbits_fault m n k ⟨8 * a - k, by omega, by rwa [show (k + (8 * a - k)) / 8 = a by omega]⟩

/-- Substituting bits into an unwritten channel faults. -/
theorem embedRun_unwritten {m : Memory} {bits : List Bool} (h : ¬ Written m bits.length) :
    ∃ a, embedRun m 0 bits = .error (.fault (.unwrittenCell .raster a)) ∧ Memory.read m a = none := by
  obtain ⟨a, ha, hnone⟩ := exists_unwritten h
  exact embedRun_fault m bits 0 ⟨a, ha, by rwa [Nat.zero_add]⟩

/-- Bits of written bytes are read. -/
theorem getbits_of_written {m : Memory} {k n bytes : Nat} (h : Written m bytes) (hn : k + n ≤ 8 * bytes) :
    ∃ bits, getbits m k n = .ok bits := by
  obtain ⟨b, hb⟩ := h.exists_holds
  exact ⟨_, getbits_range m b n bytes k hb hn⟩

/-- Bits are substituted into written channels. -/
theorem embedRun_of_written {m : Memory} {bits : List Bool} (h : Written m bits.length) :
    ∃ channels, embedRun m 0 bits = .ok channels := by
  obtain ⟨c, hc⟩ := h.exists_holds
  exact ⟨_, embedRun_written m c bits 0 (by simpa [Holds] using hc)⟩

/-! ## The payload's code points (rules R111, R160) -/

theorem CodePointsLegal.written {s : State} (h : CodePointsLegal s) : CodePointsWritten s := by
  intro i hi _
  obtain ⟨w, hw, -⟩ := h i hi
  simp [hw]

/-- Reading the payload is defined exactly when the words that the code-point check reaches are written: it stops at the
first word above 0xFF or without a value. -/
theorem framePayload_definedIff (s : State) :
    DefinedIff s (framePayload s) (s.payLen.toNat ≤ s.cfg.payDepth → CodePointsWritten s) := by
  by_cases hlen : s.cfg.payDepth < s.payLen.toNat
  · exact .raise (fun h => by omega) _ (framePayload_too_long hlen)
  have read : framePayload s = readCodePoints s.payload 0 s.payLen.toNat := if_neg hlen
  rcases readCodePoints_cases s.payload s.payLen.toNat 0 with
    ⟨f, hf, hr⟩ | ⟨f, k, hk, hf, hw, hbad, hr⟩ | ⟨f, k, hk, hf, hnone, hr⟩
  all_goals simp only [Nat.zero_add] at *
  · have legal : CodePointsLegal s := fun i hi => ⟨f i, hf i hi⟩
    exact .ok (fun _ => legal.written) _ (read.trans hr)
  · have upto (i : Nat) (hpre : ∀ j, j < i → ∃ w, Memory.readWord s.payload j = some w ∧ w.toNat ≤ 0xFF) :
        i ≤ k := by
      by_contra hlt
      obtain ⟨w, hw', hle⟩ := hpre k (by omega)
      cases hw.symm.trans hw'
      omega
    refine .raise (fun _ i _ hpre => ?_) _ (read.trans hr)
    rcases Nat.lt_or_eq_of_le (upto i hpre) with hlt | rfl
    · simp [(hf i hlt).1]
    · simp [hw]
  · refine .fault (fun h => ?_) .payload k (read.trans hr) hnone
    simpa [hnone] using h (by omega) k hk fun j hj => ⟨f j, hf j hj⟩

/-- A payload of legal code points that fits is framed. -/
theorem framePayload_of_codePointsLegal {s : State} (h : CodePointsLegal s) (hlen : s.payLen.toNat ≤ s.cfg.payDepth) :
    ∃ cps, framePayload s = .ok cps := by
  let cp : Nat → Word := fun i => (Memory.readWord s.payload i).getD 0
  have value (i : Nat) (hi : i < s.payLen.toNat) :
      Memory.readWord s.payload i = some (cp i) ∧ (cp i).toNat ≤ 0xFF := by
    obtain ⟨w, hw, hle⟩ := h i hi
    simpa [cp, hw] using hle
  exact ⟨_, framePayload_legal_words hlen cp (fun i hi => (value i hi).1) fun i hi => (value i hi).2⟩

/-! ## The scan (rules R132, R161) -/

/-- The scan is defined exactly when the channels that it visits are written. -/
theorem extractSequence_definedIff (s : State) :
    DefinedIff s (extractSequence s)
      (rasterCapacity s ≤ s.cfg.rasterBytes → ∃ c, Holds s.raster (extractReads (rasterCapacity s) c) c) := by
  unfold extractSequence
  by_cases hcap : s.cfg.rasterBytes < rasterCapacity s
  · exact .raise (fun h => by omega) _ (if_pos hcap)
  rw [if_neg hcap]
  have scanned (c : Nat → Byte) (hc : Holds s.raster (extractReads (rasterCapacity s) c) c) :=
    scanFrom_start s.raster c (rasterCapacity s) hc
  rcases scanFrom_start_cases s.raster (rasterCapacity s) with ⟨c, hc⟩ | ⟨a, hr, hn⟩
  · have hr := scanned c hc
    split_ifs at hr
    · exact .raise (fun _ => ⟨c, hc⟩) _ hr
    · exact .raise (fun _ => ⟨c, hc⟩) _ hr
    · exact .ok (fun _ => ⟨c, hc⟩) _ hr
  · refine .fault (fun h => ?_) .raster a hr hn
    obtain ⟨c, hc⟩ := h (by omega)
    have hr' := hr.symm.trans (scanned c hc)
    split_ifs at hr' <;> cases hr'

/-! ## The plan of each command -/

/-- A plan that reads r first and nothing after it is defined when r is. -/
theorem DefinedIff.andThen {α β : Type} {s : State} {r : Eval α} {plan : Eval β} {p : Prop} (h : DefinedIff s r p)
    (herr : ∀ e, r = .error e → plan = .error e) (hok : ∀ a, r = .ok a → p → DefinedIff s plan p) :
    DefinedIff s plan p := by
  cases h with
  | ok hp a hr => exact hok a hr hp
  | raise hp e hr => exact .raise hp e (herr _ hr)
  | fault hp sp a hr hn => exact .fault hp sp a (herr _ hr) hn

theorem planEncode_definedIff (s : State) : DefinedIff s (planEncode s) (OperandsWritten .encode s) := by
  refine (framePayload_definedIff s).andThen (fun e he => by simp [planEncode, he]) fun cps hr hp => ?_
  simp only [planEncode, hr]
  split
  · exact .raise hp _ rfl
  · exact .ok hp _ rfl

theorem planExtract_definedIff (s : State) : DefinedIff s (planExtract s) (OperandsWritten .extract s) := by
  refine (extractSequence_definedIff s).andThen (fun e he => by simp [planExtract, he]) fun bits hr hp => ?_
  simp only [planExtract, hr]
  split
  · exact .raise hp _ rfl
  · exact .ok hp _ rfl

theorem planExtractDecode_definedIff (s : State) :
    DefinedIff s (planExtractDecode s) (OperandsWritten .extractDecode s) := by
  refine (extractSequence_definedIff s).andThen (fun e he => by simp [planExtractDecode, he]) fun bits hr hp => ?_
  simp only [planExtractDecode, hr]
  split
  · exact .raise hp _ rfl
  · exact .ok hp _ rfl

theorem planEmbed_definedIff (s : State) : DefinedIff s (planEmbed s) (OperandsWritten .embed s) := by
  unfold planEmbed OperandsWritten
  split
  next hbits => exact .raise (fun _ => by omega) _ rfl
  split
  next hraster => exact .raise (fun _ _ => by omega) _ rfl
  split
  next hcap => exact .raise (fun _ _ _ => by omega) _ rfl
  next hbits hraster hcap =>
  by_cases hb : Written s.bitbuf ((s.bitLen.toNat + 7) / 8)
  case neg =>
    obtain ⟨a, hr, hn⟩ := getbits_unwritten (k := 0) (n := s.bitLen.toNat) (written_zero _) hb (by omega) (by omega)
    exact .fault (fun h => hb (h (by omega) (by omega) (by omega)).1) .bitbuf a (by simp [hr]) hn
  obtain ⟨bits, hread⟩ := getbits_of_written (k := 0) (n := s.bitLen.toNat) hb (by omega)
  simp only [hread]
  by_cases hc : Written s.raster s.bitLen.toNat
  · obtain ⟨channels, hr⟩ := embedRun_of_written (getbits_length hread ▸ hc)
    simp only [hr]
    exact .ok (fun _ _ _ => ⟨hb, hc⟩) _ rfl
  · obtain ⟨a, hr, hn⟩ := embedRun_unwritten (getbits_length hread ▸ hc)
    exact .fault (fun h => hc (h (by omega) (by omega) (by omega)).2) .raster a (by simp [hr]) hn

theorem planEncodeEmbed_definedIff (s : State) :
    DefinedIff s (planEncodeEmbed s) (OperandsWritten .encodeEmbed s) := by
  unfold planEncodeEmbed OperandsWritten
  cases framePayload_definedIff s with
  | raise hp e hr =>
    refine .raise (fun hlen => ⟨hp hlen, fun legal => ?_⟩) e (by simp [hr])
    obtain ⟨cps, hok⟩ := framePayload_of_codePointsLegal legal hlen
    cases hr.symm.trans hok
  | fault hp sp a hr hn => exact .fault (fun h => hp fun hlen => (h hlen).1) sp a (by simp [hr]) hn
  | ok hp cps hr =>
    simp only [hr]
    have frameLength : frameLen s.payLen.toNat = 32 + 8 * s.payLen.toNat := rfl
    split
    next hraster => exact .raise (fun hlen => ⟨hp hlen, fun _ => by omega⟩) _ rfl
    split
    next hcap => exact .raise (fun hlen => ⟨hp hlen, fun _ _ => by omega⟩) _ rfl
    next hraster hcap =>
    obtain ⟨hlen, cp, hcp, hle, -⟩ := framePayload_legal hr
    have legal : CodePointsLegal s := fun i hi => ⟨cp i, hcp i hi, hle i hi⟩
    have length : (frame s.payLen cps).length = 32 + 8 * s.payLen.toNat := by
      rw [frame_length, (framePayload_ok hr).2]
    by_cases hc : Written s.raster (32 + 8 * s.payLen.toNat)
    · obtain ⟨channels, hch⟩ := embedRun_of_written (length ▸ hc)
      simp only [hch]
      exact .ok (fun _ => ⟨hp hlen, fun _ _ _ => hc⟩) _ rfl
    · obtain ⟨a, ha, hn⟩ := embedRun_unwritten (length ▸ hc)
      exact .fault (fun h => hc ((h hlen).2 legal (by omega) (by omega))) .raster a (by simp [ha]) hn

/-- The declared length of four bytes is that of any contents that agree on them. -/
theorem bytePrefix_unique {m : Memory} {b b' : Nat → Byte} (h : Holds m 4 b) (h' : Holds m 4 b') :
    bytePrefix b' = bytePrefix b := by
  refine Finset.sum_congr rfl fun j hj => ?_
  have hj : j < 4 := Finset.mem_range.1 hj
  have same : b j = b' j := Option.some.inj ((h j hj).symm.trans (h' j hj))
  rw [same]

theorem planDecode_definedIff (s : State) : DefinedIff s (planDecode s) (OperandsWritten .decode s) := by
  unfold planDecode OperandsWritten
  have prefixLength : lenBits = 32 := rfl
  split
  next hbits => exact .raise (fun _ _ => by omega) _ rfl
  split
  next hshort => exact .raise (fun _ => by omega) _ rfl
  next hbits hshort =>
  by_cases h4 : Written s.bitbuf 4
  case neg =>
    obtain ⟨a, hr, hn⟩ := getbits_unwritten (k := 0) (n := lenBits) (written_zero _) h4 (by omega) (by omega)
    exact .fault (fun h => h4 (h (by omega) (by omega)).1) .bitbuf a (by simp [hr]) hn
  obtain ⟨b, hb⟩ := h4.exists_holds
  have declared : be32 ((List.range lenBits).map fun j => packedBit b (0 + j)) 0 = bytePrefix b := by
    simpa [lenBits] using bytePrefix_eq b
  have frameLength : frameLen (bytePrefix b) = 32 + 8 * bytePrefix b := rfl
  have payloadLength : cpBits * bytePrefix b = 8 * bytePrefix b := rfl
  simp only [getbits_range s.bitbuf b lenBits 4 0 hb (by omega), declared]
  split
  next hframe =>
    refine .raise (fun _ _ => ⟨h4, fun b' hb' _ _ => ?_⟩) _ rfl
    have := bytePrefix_unique hb hb'
    omega
  split
  next hpay =>
    refine .raise (fun _ _ => ⟨h4, fun b' hb' _ _ => ?_⟩) _ rfl
    have := bytePrefix_unique hb hb'
    omega
  next hframe hpay =>
  by_cases hw : Written s.bitbuf (4 + bytePrefix b)
  · obtain ⟨payload, hr⟩ := getbits_of_written (k := lenBits) (n := cpBits * bytePrefix b) hw (by omega)
    simp only [hr]
    exact .ok (fun _ _ => ⟨h4, fun b' hb' _ _ => by rwa [bytePrefix_unique hb hb']⟩) _ rfl
  · obtain ⟨a, hr, hn⟩ := getbits_unwritten (k := lenBits) (n := cpBits * bytePrefix b) h4 hw (by omega) (by omega)
    exact .fault (fun h => hw ((h (by omega) (by omega)).2 b hb (by omega) (by omega))) .bitbuf a (by simp [hr]) hn

theorem planOf_definedIff (i : Instr) (s : State) : DefinedIff s (planOf i s) (OperandsWritten i s) := by
  cases i with
  | encode => exact planEncode_definedIff s
  | decode => exact planDecode_definedIff s
  | embed => exact planEmbed_definedIff s
  | extract => exact planExtract_definedIff s
  | encodeEmbed => exact planEncodeEmbed_definedIff s
  | extractDecode => exact planExtractDecode_definedIff s

/-- Settles O25: a command is the completion of its plan, and each plan's result is defined exactly when the command's
operands are written. -/
theorem commandCompletesIffOperandsWritten : Obligations.CommandCompletesIffOperandsWritten := by
  intro i s
  rw [exec_eq_complete]
  exact (planOf_definedIff i s).complete

end Sys2Proof.Machine
end

section
/-! PROOFS. Scope: command words (rules R90 to R95) and the launch of one, delivered or illegal; and the WAIT of the
host (rules R96, R97). -/

namespace Sys2Proof.Machine

/-! ## The decoder and the encoder -/

/-- The two checks of the decoder (rule R93), and the command they let through. -/
theorem decode_ok_iff_fields (v : Word) (i : Instr) :
    decode v = .ok i ↔ rsvdField v = 0#28 ∧ decodeOp (opField v) = some i := by
  unfold decode
  split
  next hr =>
    split
    next j hj => simp [hr, hj]
    next hn => simp [hn]
  next hr => simp [hr]

theorem decode_of_reserved_bits {v : Word} (hr : rsvdField v ≠ 0#28) : decode v = .error .reservedBits := by
  simp [decode, hr]

theorem decode_of_reserved_opcode {v : Word} (hr : rsvdField v = 0#28) (ho : decodeOp (opField v) = none) :
    decode v = .error .reservedOpcode := by
  simp [decode, hr, ho]

theorem rsvdField_encode (i : Instr) : rsvdField (encode i) = 0#28 := by
  cases i <;> decide

/-- Decoding inverts encoding, on both sides (rules R91, R92, R95). -/
theorem decode_ok_iff (v : Word) (i : Instr) : decode v = .ok i ↔ encode i = v := by
  rw [decode_ok_iff_fields]
  constructor
  · rintro ⟨hr, ho⟩
    rw [word_of_fields v, hr, decodeOp_some ho]
    simp [encode]
  · rintro rfl
    exact ⟨rsvdField_encode i, decodeOp_encode i⟩

theorem decode_encode (i : Instr) : decode (encode i) = .ok i :=
  (decode_ok_iff _ i).mpr rfl

theorem encode_injective {i j : Instr} (h : encode i = encode j) : i = j :=
  Except.ok.inj ((decode_encode i).symm.trans ((decode_ok_iff _ j).mpr h.symm))

/-- The assigned opcodes (rule R92). -/
theorem exists_decodeOp_iff (op : BitVec 4) : (∃ i, decodeOp op = some i) ↔ 1 ≤ op.toNat ∧ op.toNat ≤ 6 := by
  rw [← Option.isSome_iff_exists]
  revert op
  decide

/-- Legality by the fields of the word (rule R93). -/
theorem legal_iff_fields (v : Word) :
    legal v = true ↔ rsvdField v = 0#28 ∧ 1 ≤ (opField v).toNat ∧ (opField v).toNat ≤ 6 := by
  simp only [legal_iff, decode_ok_iff_fields, exists_and_left, exists_decodeOp_iff]

/-! ## The obligations about command words -/

/-- Settles O3, by the inverse of decoding. -/
theorem encodeOfDecode : Obligations.EncodeOfDecode :=
  fun v i => (decode_ok_iff v i).mp

/-- Settles O4: the mask keeps every bit, a legal word is the word of the command it decodes to, and no two commands
have the same word. -/
theorem legalWordsMatchOneRow : Obligations.LegalWordsMatchOneRow := by
  intro v
  refine ⟨legal_iff_fields v, fun hv => ?_⟩
  obtain ⟨i, hi⟩ := (legal_iff v).mp hv
  obtain rfl := (decode_ok_iff v i).mp hi
  have mask : encode i &&& 0xFFFFFFFF#32 = encode i := BitVec.and_allOnes
  rw [mask]
  exact ⟨i, rfl, fun j hj => encode_injective hj.symm⟩

/-- Settles O1: each tabled word is the word of its command, and each other word fails one check of the decoder. -/
theorem opcodeMapDecodesAsTabled : Obligations.OpcodeMapDecodesAsTabled :=
  ⟨decode_encode .encode, decode_encode .decode, decode_encode .embed, decode_encode .extract,
    decode_encode .encodeEmbed, decode_encode .extractDecode, decode_of_reserved_opcode (by decide) (by decide),
    decode_of_reserved_opcode (by decide) (by decide), decode_of_reserved_opcode (by decide) (by decide),
    decode_of_reserved_bits (by decide)⟩

/-- Settles O2, by the inverse of encoding. -/
theorem decodeOfEncode : Obligations.DecodeOfEncode :=
  fun i _ => decode_encode i

/-! ## Launches -/

/-- Settles O6: in each case a check of legality fails, and an idle machine records the word as ILLEGAL. -/
theorem illegalWordLaunchesNothing : Obligations.IllegalWordLaunchesNothing := by
  intro v s hb hv
  have illegal : legal v = false := by
    rw [← Bool.not_eq_true, legal_iff_fields]
    rintro ⟨hr, hlo, hhi⟩
    rcases hv with hrsvd | hzero | hseven
    · exact hrsvd hr
    · rw [opField, hzero] at hlo
      exact absurd hlo (by decide)
    · exact absurd (hseven.trans hhi) (by decide)
  exact cmdWrite_of_illegal hb illegal

/-- A legal command word placed for the next step is launched, with the engine's turn next (log entry 12). -/
theorem placeCommand_of_legal {v : Word} (hv : legal v = true) (s : State) :
    placeCommand v s = { afterLaunch v s with turns := .engine :: s.turns } := by
  rcases launch_cases v { s with busy := false } with ⟨-, h⟩ | ⟨hv', -⟩
  · simp only [placeCommand, h, afterLaunch]
  · cases hv.symm.trans hv'

/-- A word read back from its number in the opcode table. -/
theorem withFetchWord_toNat (v : Word) (s : State) : s.withFetchWord 32 v.toNat = placeCommand v s := by
  rw [State.withFetchWord, Nat.mod_eq_of_lt v.isLt, BitVec.ofNat_toNat, BitVec.setWidth_eq]

theorem decodeTableWord_encode (i : Instr) : decodeTableWord 32 (encode i).toNat = some i := by
  have fits : 32 ≤ 32 ∧ (encode i).toNat < 2 ^ 32 := ⟨le_rfl, (encode i).isLt⟩
  rw [decodeTableWord, if_pos fits, BitVec.ofNat_toNat, BitVec.setWidth_eq, decode_encode]

/-- Settles O56: the placed word is launched, and the engine's turn then runs the opcode latched. -/
theorem fetchWordRunsNext : Obligations.FetchWordRunsNext := by
  intro i s hc
  refine ⟨decodeTableWord_encode i, ?_⟩
  rw [withFetchWord_toNat, placeCommand_of_legal (legal_encode i)]
  calc step { afterLaunch (encode i) s with turns := .engine :: s.turns }
      = engineTurn (afterLaunch (encode i) s) :=
        step_of_turn (s := { afterLaunch (encode i) s with turns := .engine :: s.turns }) hc rfl
    _ = exec i (afterLaunch (encode i) s) := engineTurn_of_busy rfl (decodeOp_encode i)

/-! ## WAIT (rules R96, R97) -/

/-- What a poll looks at (rule R26). -/
theorem statusWord_getLsbD_zero (s : State) : (statusWord s).getLsbD 0 = s.busy :=
  statusWord_getLsbD s 0

/-- A poll while BUSY = 1 leaves the WAIT the host's next operation. -/
theorem waitPoll_of_busy {s : State} (hb : s.busy = true) :
    waitPoll s = reply (statusWord s) { s with host := .wait :: s.host } := by
  rw [waitPoll, statusWord_getLsbD_zero, if_pos hb]

/-- A poll while BUSY = 0 ends the WAIT. -/
theorem waitPoll_of_idle {s : State} (hb : s.busy = false) : waitPoll s = reply (statusWord s) s := by
  rw [waitPoll, statusWord_getLsbD_zero, hb, if_neg Bool.false_ne_true]

/-- The host's turn at a WAIT is one poll. -/
theorem hostTurn_wait {s : State} {ops : List HostOp} (hh : s.host = .wait :: ops) :
    hostTurn s = .next (waitPoll { s with host := ops }) :=
  hostTurn_cons hh

/-- Every completion clears BUSY (rules R192, R193). -/
theorem exec_clears_busy {i : Instr} {s t : State} (h : exec i s = .next t) : t.busy = false := by
  rcases exec_next h with ⟨c, -, rfl⟩ | ⟨e, -, rfl⟩ <;> rfl

/-- Settles O60: the poll of a busy machine puts the WAIT back; with no turn left the completion goes first, and the
host's next poll finds BUSY = 0. -/
theorem waitPollsUntilCompletion : Obligations.WaitPollsUntilCompletion := by
  intro s ops hc hb hhost
  refine ⟨fun rest hturns => ?poll, fun i hturns hop written => ?completion⟩
  case poll =>
    calc step s = hostTurn { s with turns := rest } := step_of_turn hc hturns
      _ = .next (waitPoll { s with turns := rest, host := ops }) := hostTurn_wait (s := { s with turns := rest }) hhost
      _ = .next { s with turns := rest, replies := regRead 0x04#6 s :: s.replies } := by
        rw [waitPoll_of_busy (s := { s with turns := rest, host := ops }) hb, ← hhost]
        rfl
  case completion =>
    obtain ⟨t, ht⟩ := (commandCompletesIffOperandsWritten i s).1 written
    obtain ⟨cfg, -, -, -, -, -, host, turns, replies, -⟩ := commandFrame i s t ht
    have idle : t.busy = false := exec_clears_busy ht
    have completes : step s = .next t :=
      ((step_of_no_turn_of_busy hc hturns hb).trans (engineTurn_of_busy hb hop)).trans ht
    have ends : step t = .next (reply (statusWord t) { t with host := ops }) := by
      rw [step_of_no_turn_of_idle (cfg ▸ hc) (turns.trans hturns) idle, hostTurn_wait (host.trans hhost),
        waitPoll_of_idle (s := { t with host := ops }) idle]
      rfl
    exact ⟨t, _, completes, idle, ends, rfl, congrArg (statusWord t :: ·) replies, rfl, rfl⟩

end Sys2Proof.Machine
end

section
/-! PROOFS. Scope: the Bit Framer (rules R110 to R114): the outcome of ENCODE and of DECODE in every case, the frame
that ENCODE leaves, what the two depend on, and the round trip. -/

namespace Sys2Proof.Machine

/-! ## The completion of a plan -/

/-- A command whose plan gives r is the completion of r. -/
theorem exec_of_plan {i : Instr} {s : State} {r : Eval Commit} (h : planOf i s = r) : exec i s = complete s r := by
  rw [exec_eq_complete, h]

/-- A command whose plan raises an error records it and does nothing else (rule R192). -/
theorem exec_of_plan_raise {i : Instr} {s : State} {e : CmdError} (h : planOf i s = .error (.raise e)) :
    exec i s = .next (recordError e s) :=
  (exec_of_plan h).trans (complete_raise s e)

/-- A command that ends with DONE recorded the success of its plan's commit (rule R193). -/
theorem exec_next_done {i : Instr} {s t : State} (h : exec i s = .next t) (hd : t.done = true) :
    ∃ c, planOf i s = .ok c ∧ t = recordSuccess (applyCommit c s) := by
  rcases exec_next h with success | ⟨e, -, rfl⟩
  · exact success
  · cases hd

/-- The same plan in two states gives the same record, and on success the writes of the same commit. -/
theorem exec_next_of_plan_eq {i : Instr} {s s' t : State} (hplan : planOf i s = planOf i s') (h : exec i s = .next t) :
    ∃ t', exec i s' = .next t' ∧ t'.done = t.done ∧ t'.err = t.err ∧ t'.errCode = t.errCode ∧
      t'.errInfo = t.errInfo ∧
      (t.done = true → ∃ c, planOf i s = .ok c ∧ t = recordSuccess (applyCommit c s) ∧
        t' = recordSuccess (applyCommit c s')) := by
  rw [exec_eq_complete i s', ← hplan]
  rcases exec_next h with ⟨c, plan, rfl⟩ | ⟨e, plan, rfl⟩ <;> rw [plan]
  · exact ⟨_, rfl, rfl, rfl, rfl, rfl, fun _ => ⟨c, rfl, rfl, rfl⟩⟩
  · exact ⟨_, rfl, rfl, rfl, rfl, rfl, nofun⟩

/-! ## The bytes of a frame (rules R66, R67, R110) -/

/-- Byte a of the frame of L and the code points cp: L big-endian, then one byte a code point. -/
def frameByte (len : Word) (cp : Nat → Word) (a : Nat) : Byte :=
  if a < 4 then len.extractLsb' (24 - 8 * a) 8 else (cp (a - 4)).setWidth 8

/-- A memory after the bytes of a frame are stored from index 0. -/
theorem read_writeRun_frameBytes (m : Memory) (len : Word) (cp : Nat → Word) (n a : Nat) :
    Memory.read (Memory.writeRun m 0 (frameBytes len ((List.range n).map fun j => (cp j).setWidth 8))) a =
      if a < 4 + n then some (frameByte len cp a) else Memory.read m a := by
  rw [Memory.read_writeRun_zero]
  by_cases ha : a < 4 + n
  · rw [dif_pos (by simpa using ha), if_pos ha, frameBytes_getElem _ _ _ (by simpa using ha)]
    simp [frameByte]
  · rw [dif_neg (by simpa using ha), if_neg ha]

/-- The bits packed in the bytes of a frame are the bits of the frame. -/
theorem packedBit_frameByte (len : Word) (cp : Nat → Word) (k : Nat) :
    packedBit (frameByte len cp) k = frameBit len cp k := by
  have inByte : 7 - k % 8 < 8 := by omega
  by_cases hk : k < 32
  · have bit : 24 - 8 * (k / 8) + (7 - k % 8) = 31 - k := by omega
    simp [packedBit, frameByte, frameBit, hk, show k / 8 < 4 by omega, bit, inByte]
  · have byte : k / 8 - 4 = (k - 32) / 8 := by omega
    have bit : (k - 32) % 8 = k % 8 := by omega
    simp [packedBit, frameByte, frameBit, hk, show ¬ k / 8 < 4 by omega, byte, bit, inByte]

/-- The length that the bytes of a frame declare. -/
theorem bytePrefix_frameByte (len : Word) (cp : Nat → Word) : bytePrefix (frameByte len cp) = len.toNat :=
  bytePrefix_of_bytes len _ fun _ ha => if_pos ha

/-- The length register holds the length of a frame (rule R111). -/
theorem frameLen_toNat (len : Word) : (BitVec.ofNat 64 (32 + 8 * len.toNat)).toNat = 32 + 8 * len.toNat := by
  have := len.isLt
  rw [BitVec.toNat_ofNat, Nat.mod_eq_of_lt (by omega)]

/-! ## ENCODE (rule R111) -/

theorem planEncode_of_framePayload_error {s : State} {e : Stop} (h : framePayload s = .error e) :
    planEncode s = .error e := by
  simp [planEncode, h]

theorem planEncode_small_bitbuf {s : State} {cps : List Byte} (h : framePayload s = .ok cps)
    (hsmall : s.cfg.bitbufBytes < 4 + s.payLen.toNat) : planEncode s = .error (.raise (.bounds .bitbuf)) := by
  simp [planEncode, h, hsmall]

/-- ENCODE commits exactly when the payload is legal and its frame fits BITBUF, and then it commits that frame. -/
theorem planEncode_eq_ok_iff {s : State} {c : Commit} :
    planEncode s = .ok c ↔ ∃ cps, framePayload s = .ok cps ∧ 4 + s.payLen.toNat ≤ s.cfg.bitbufBytes ∧
      c = { bitbuf := frameBytes s.payLen cps, bitLen := some (BitVec.ofNat 64 (32 + 8 * s.payLen.toNat)) } := by
  unfold planEncode
  cases framePayload s with
  | error e => simp
  | ok cps =>
    by_cases hsmall : s.cfg.bitbufBytes < 4 + s.payLen.toNat
    · simp [hsmall]
    · simp [hsmall, frameLen, lenBits, cpBits, eq_comm, Nat.not_lt.1 hsmall]

/-- ENCODE of a legal payload whose frame fits BITBUF. -/
theorem exec_encode_success {s : State} {cp : Nat → Word} (hlen : s.payLen.toNat ≤ s.cfg.payDepth)
    (hcp : HoldsWords s.payload s.payLen.toNat cp) (hle : ∀ j, j < s.payLen.toNat → (cp j).toNat ≤ 0xFF)
    (hfit : 4 + s.payLen.toNat ≤ s.cfg.bitbufBytes) :
    ∃ t, exec .encode s = .next t ∧
      t = { afterSuccess s with bitbuf := t.bitbuf, bitLen := BitVec.ofNat 64 (32 + 8 * s.payLen.toNat) } ∧
      ∀ a, Memory.read t.bitbuf a =
        if a < 4 + s.payLen.toNat then some (frameByte s.payLen cp a) else Memory.read s.bitbuf a := by
  have plan := planEncode_eq_ok_iff.2 ⟨_, framePayload_legal_words hlen cp hcp hle, hfit, rfl⟩
  obtain ⟨t, ht, fields, bitbuf⟩ := complete_bitbuf s
    (frameBytes s.payLen ((List.range s.payLen.toNat).map fun j => (cp j).setWidth 8))
    (BitVec.ofNat 64 (32 + 8 * s.payLen.toNat))
  exact ⟨t, (exec_of_plan (i := .encode) plan).trans ht, fields, fun a => bitbuf ▸ read_writeRun_frameBytes ..⟩

/-- Settles O18: the checks in their order, each with its error record; past them the commit is the frame. -/
theorem encodeOutcome : Obligations.EncodeOutcome := by
  intro s cp
  refine ⟨fun hlong => ?tooLong, fun hlen => ⟨fun i hi hcp hle hbad => ?codepoint, fun hcp hle =>
    ⟨fun hsmall => ?smallBitbuf, fun hfit => ?success⟩⟩⟩
  case tooLong =>
    exact exec_of_plan_raise (i := .encode) (planEncode_of_framePayload_error (framePayload_too_long hlong))
  case codepoint =>
    exact exec_of_plan_raise (i := .encode)
      (planEncode_of_framePayload_error (framePayload_codepoint hlen cp i hi hcp hle hbad))
  case smallBitbuf =>
    exact exec_of_plan_raise (i := .encode) (planEncode_small_bitbuf (framePayload_legal_words hlen cp hcp hle) hsmall)
  case success =>
    obtain ⟨t, ht, fields, bitbuf⟩ := exec_encode_success hlen hcp hle hfit
    refine ⟨t, ht, fields, fun a => (bitbuf a).trans ?_⟩
    by_cases h4 : a < 4
    · rw [if_pos (by omega), if_pos h4, frameByte, if_pos h4]
    · rw [if_neg h4, frameByte, if_neg h4]

/-- A successful ENCODE passed its checks: the payload fits PAYLOAD, its words are legal, and its frame fits BITBUF. -/
theorem encode_done_checks {s t : State} {cp : Nat → Word} (h : exec .encode s = .next t) (hd : t.done = true)
    (hcp : HoldsWords s.payload s.payLen.toNat cp) :
    s.payLen.toNat ≤ s.cfg.payDepth ∧ (∀ j, j < s.payLen.toNat → (cp j).toNat ≤ 0xFF) ∧
      4 + s.payLen.toNat ≤ s.cfg.bitbufBytes := by
  obtain ⟨c, plan, -⟩ := exec_next_done h hd
  obtain ⟨cps, framed, hfit, -⟩ := planEncode_eq_ok_iff.1 plan
  obtain ⟨hlen, f, hf, hle, -⟩ := framePayload_legal framed
  refine ⟨hlen, fun j hj => ?_, hfit⟩
  have same : cp j = f j := Option.some.inj ((hcp j hj).symm.trans (hf j hj))
  exact same ▸ hle j hj

/-- Settles O19: a successful ENCODE left the bytes of the frame, and their packed bits are the frame's. -/
theorem encodeWritesTheFrame : Obligations.EncodeWritesTheFrame := by
  intro s t cp h hd hcp
  obtain ⟨hlen, hle, hfit⟩ := encode_done_checks h hd hcp
  obtain ⟨t', ht', fields, bitbuf⟩ := exec_encode_success hlen hcp hle hfit
  cases h.symm.trans ht'
  refine ⟨?_, fun k hk => ?_⟩
  · rw [fields]
    exact frameLen_toNat s.payLen
  · have stored : Memory.read t.bitbuf (k / 8) = some (frameByte s.payLen cp (k / 8)) := by
      rw [bitbuf, if_pos (by omega)]
    rw [getbit_of_read stored, packedBit_frameByte]

/-! ## DECODE (rule R112) -/

theorem planDecode_too_long {s : State} (h : 8 * s.cfg.bitbufBytes < s.bitLen.toNat) :
    planDecode s = .error (.raise (.bounds .bitbuf)) := if_pos h

theorem planDecode_no_prefix {s : State} (hbits : s.bitLen.toNat ≤ 8 * s.cfg.bitbufBytes) (h : s.bitLen.toNat < 32) :
    planDecode s = .error (.raise (.framing false)) := by
  rw [planDecode, if_neg (by omega), if_pos (show s.bitLen.toNat < lenBits from h)]

/-- DECODE once it has read the length n that BITBUF declares: the checks on n, then the payload bits. -/
theorem planDecode_of_prefix {s : State} {b : Nat → Byte} (hbits : s.bitLen.toNat ≤ 8 * s.cfg.bitbufBytes)
    (h32 : 32 ≤ s.bitLen.toNat) (hb : Holds s.bitbuf 4 b) :
    planDecode s =
      if s.bitLen.toNat < 32 + 8 * bytePrefix b then .error (.raise (.framing true))
      else if s.cfg.payDepth < bytePrefix b then .error (.raise (.bounds .payload))
      else (getbits s.bitbuf 32 (8 * bytePrefix b)).map fun bits =>
        { payload := (packBytes bits (bytePrefix b)).map (BitVec.setWidth 32)
          payLen := some (BitVec.ofNat 32 (bytePrefix b)) } := by
  have prefixBits : getbits s.bitbuf 0 lenBits = .ok ((List.range 32).map fun j => packedBit b j) := by
    simpa [lenBits] using getbits_range s.bitbuf b 32 4 0 hb (by omega)
  rw [planDecode, if_neg (by omega), if_neg (by simp only [lenBits]; omega), prefixBits]
  simp only [bytePrefix_eq, frameLen, lenBits, cpBits]
  cases getbits s.bitbuf 32 (8 * bytePrefix b) <;> rfl

/-- Bits 32 to 31 + 8 n of a sequence of bytes, packed, are its bytes 4 to 3 + n (rule R66). -/
theorem packBytes_packedBit (b : Nat → Byte) (n : Nat) :
    packBytes ((List.range (8 * n)).map fun j => packedBit b (32 + j)) n = (List.range n).map fun i => b (4 + i) := by
  refine List.map_congr_left fun i hi => ?_
  have hi : i < n := List.mem_range.1 hi
  refine be8_bits (fun j => packedBit b (32 + j)) (8 * n) (8 * i) (b (4 + i)) (by omega) fun m hm => ?_
  rw [packedBit, show (32 + (8 * i + m)) / 8 = 4 + i by omega, show (32 + (8 * i + m)) % 8 = m by omega]

/-- DECODE of written bytes whose declared payload is there and fits PAYLOAD. -/
theorem planDecode_success {s : State} {b : Nat → Byte} (hbits : s.bitLen.toNat ≤ 8 * s.cfg.bitbufBytes)
    (hframe : 32 + 8 * bytePrefix b ≤ s.bitLen.toNat) (hpay : bytePrefix b ≤ s.cfg.payDepth)
    (hb : Holds s.bitbuf (4 + bytePrefix b) b) :
    planDecode s = .ok
      { payload := (List.range (bytePrefix b)).map fun i => (b (4 + i)).setWidth 32
        payLen := some (BitVec.ofNat 32 (bytePrefix b)) } := by
  rw [planDecode_of_prefix hbits (by omega) (hb.mono (by omega)), if_neg (by omega), if_neg (by omega),
    getbits_range s.bitbuf b _ _ 32 hb (by omega), Except.map, packBytes_packedBit, List.map_map]
  rfl

/-- Settles O20: the checks in their order, each with its error record; past them the commit is the payload's bytes. -/
theorem decodeOutcome : Obligations.DecodeOutcome := by
  intro s b
  refine ⟨fun hlong => ?tooLong, fun hbits hshort => ?noPrefix, fun hbits h32 hb => ⟨fun hframe => ?noPayload,
    fun hframe => ⟨fun hpay => ?smallPayload, fun hpay hbytes => ?success⟩⟩⟩
  case tooLong => exact exec_of_plan_raise (i := .decode) (planDecode_too_long hlong)
  case noPrefix => exact exec_of_plan_raise (i := .decode) (planDecode_no_prefix hbits hshort)
  case noPayload => exact exec_of_plan_raise (i := .decode) ((planDecode_of_prefix hbits h32 hb).trans (if_pos hframe))
  case smallPayload =>
    have raised : planDecode s = .error (.raise (.bounds .payload)) := by
      rw [planDecode_of_prefix hbits h32 hb, if_neg (by omega), if_pos hpay]
    exact exec_of_plan_raise (i := .decode) raised
  case success =>
    obtain ⟨t, ht, fields, payload⟩ := complete_payload s
      ((List.range (bytePrefix b)).map fun i => (b (4 + i)).setWidth 32) (BitVec.ofNat 32 (bytePrefix b))
    refine ⟨t, ?_, fields, ?_, fun i hi => ?_, fun a ha => ?_⟩
    · exact (exec_of_plan (i := .decode) (planDecode_success hbits hframe hpay hbytes)).trans ht
    · have payLen : t.payLen = BitVec.ofNat 32 (bytePrefix b) := by rw [fields]
      rw [payLen, BitVec.toNat_ofNat, Nat.mod_eq_of_lt (bytePrefix_lt b)]
    · rw [payload, Memory.readWord_writeWords, dif_pos (by simpa using hi)]
      simp
    · rw [payload, Memory.read_writeWords_ge _ _ _ (by simpa using ha)]

/-! ## What the two commands depend on (rules R72, R114) -/

theorem planEncode_congr {s s' : State} (hcfg : s.cfg = s'.cfg) (hlen : s.payLen = s'.payLen)
    (hpay : s.payload = s'.payload) : planEncode s = planEncode s' := by
  simp only [planEncode, framePayload, hcfg, hlen, hpay]

theorem planDecode_congr {s s' : State} (hcfg : s.cfg = s'.cfg) (hlen : s.bitLen = s'.bitLen)
    (hbuf : s.bitbuf = s'.bitbuf) : planDecode s = planDecode s' := by
  simp only [planDecode, hcfg, hlen, hbuf]

/-- ENCODE writes 4 + L bytes and BIT_LEN. -/
theorem planEncode_outputs {s : State} {c : Commit} (h : planEncode s = .ok c) :
    c.bitbuf.length = 4 + s.payLen.toNat ∧ c.bitLen.isSome = true := by
  obtain ⟨cps, framed, -, rfl⟩ := planEncode_eq_ok_iff.1 h
  exact ⟨by rw [frameBytes_length, (framePayload_ok framed).2], rfl⟩

/-- DECODE writes PAY_LEN and as many words as PAY_LEN says. -/
theorem planDecode_outputs {s : State} {c : Commit} (h : planDecode s = .ok c) :
    ∃ n : Word, c.payLen = some n ∧ c.payload.length = n.toNat := by
  simp only [planDecode] at h
  (repeat' split at h) <;> cases h
  next prefixBits _ _ _ _ _ _ => exact ⟨_, rfl, by simpa using (Nat.mod_eq_of_lt (be32_lt prefixBits 0)).symm⟩

/-- The cells of a run do not depend on the memory it is stored in. -/
theorem Memory.read_writeRun_zero_lt {vs : List Byte} {a : Nat} (h : a < vs.length) (m m' : Memory) :
    Memory.read (Memory.writeRun m 0 vs) a = Memory.read (Memory.writeRun m' 0 vs) a := by
  simp only [Memory.read_writeRun_zero, dif_pos h]

/-- Settles O30: the plans of the two states are the same, so the records are, and on success both states take the
writes of one commit. -/
theorem framerPurity : Obligations.FramerPurity := by
  intro s s' t hcfg
  refine ⟨fun hlen hpay h => ?encode, fun hlen hbuf h => ?decode⟩
  case encode =>
    obtain ⟨t', ht', hdone, herr, hcode, hinfo, outputs⟩ :=
      exec_next_of_plan_eq (i := .encode) (planEncode_congr hcfg hlen hpay) h
    refine ⟨t', ht', hdone, herr, hcode, hinfo, fun hd => ?_⟩
    obtain ⟨c, plan, rfl, rfl⟩ := outputs hd
    obtain ⟨length, hasLen⟩ := planEncode_outputs plan
    obtain ⟨n, hn⟩ := Option.isSome_iff_exists.1 hasLen
    exact ⟨by simp [hn], fun a ha => Memory.read_writeRun_zero_lt (length ▸ ha) _ _⟩
  case decode =>
    obtain ⟨t', ht', hdone, herr, hcode, hinfo, outputs⟩ :=
      exec_next_of_plan_eq (i := .decode) (planDecode_congr hcfg hlen hbuf) h
    refine ⟨t', ht', hdone, herr, hcode, hinfo, fun hd => ?_⟩
    obtain ⟨c, plan, rfl, rfl⟩ := outputs hd
    obtain ⟨n, hn, length⟩ := planDecode_outputs plan
    refine ⟨by simp [hn], fun a ha => Memory.read_writeWords_lt c.payload _ _ a ?_⟩
    rw [length]
    simpa [hn] using ha

/-! ## The round trip (rule R113) -/

/-- A code point of 8 bits is its byte, zero-extended. -/
theorem setWidth_byte_of_le {v : Word} (h : v.toNat ≤ 0xFF) : (v.setWidth 8).setWidth 32 = v := by
  apply BitVec.eq_of_toNat_eq
  simp only [BitVec.toNat_setWidth]
  omega

/-- Settles O33: the bytes that ENCODE leaves declare L and carry the code points, so they are a frame that DECODE takes
apart; a code point of 8 bits survives the byte. -/
theorem framerRoundTrip : Obligations.FramerRoundTrip := by
  intro s cp hsize hlen hcp hle
  obtain ⟨t, ht, fields, bitbuf⟩ := exec_encode_success hlen hcp hle (by omega)
  have cfg : t.cfg = s.cfg := by rw [fields]; rfl
  have bitLen : t.bitLen.toNat = 32 + 8 * s.payLen.toNat := by rw [fields]; exact frameLen_toNat s.payLen
  refine ⟨t, ht, by rw [fields]; rfl, fun t' hcfg hbuf hlen' => ?_⟩
  have bytes : Holds t'.bitbuf (4 + s.payLen.toNat) (frameByte s.payLen cp) := fun a ha => by
    rw [hbuf, bitbuf, if_pos ha]
  have declared := bytePrefix_frameByte s.payLen cp
  have cfg' : t'.cfg = s.cfg := hcfg.trans cfg
  have bitLen' : t'.bitLen.toNat = 32 + 8 * s.payLen.toNat := by rw [hlen', bitLen]
  obtain ⟨-, -, decoded⟩ := decodeOutcome t' (frameByte s.payLen cp)
  rw [cfg', bitLen', declared] at decoded
  obtain ⟨-, fitting⟩ := decoded (by omega) (by omega) (bytes.mono (by omega))
  obtain ⟨-, success⟩ := fitting le_rfl
  obtain ⟨u, hu, fields', -, words, -⟩ := success hlen bytes
  refine ⟨u, hu, by rw [fields']; rfl, ?_, fun i hi => (words i hi).trans ?_⟩
  · rw [fields']
    exact (BitVec.ofNat_toNat 32 s.payLen).trans (BitVec.setWidth_eq s.payLen)
  · simpa [frameByte] using setWidth_byte_of_le (hle i hi)

end Sys2Proof.Machine
end

section
/-! PROOFS. Scope: the Raster Codec (rules R130 to R136): the capacity, the outcome of EMBED and of EXTRACT in every
case, the raster they leave, the extract state machine, and what one channel's LSB decides. -/

namespace Sys2Proof.Machine

/-! ## The capacity (rule R130) -/

/-- Settles O38: the product is over the naturals, so each side's bound bounds it, and the bound's sides reach it. -/
theorem capacityIsExact : Obligations.CapacityIsExact := by
  refine ⟨fun w h => ⟨rfl, ?_, fun hempty => ?_⟩, rfl, by norm_num, by norm_num⟩
  · have width : w.toNat ≤ 2 ^ 32 - 1 := by have := w.isLt; omega
    have height : h.toNat ≤ 2 ^ 32 - 1 := by have := h.isLt; omega
    calc capacity w h ≤ (2 ^ 32 - 1) * (2 ^ 32 - 1) * 3 :=
          Nat.mul_le_mul_right _ (Nat.mul_le_mul width height)
      _ = 3 * (2 ^ 32 - 1) ^ 2 := by norm_num
  · rcases hempty with rfl | rfl <;> simp [capacity]

/-! ## Runs of bytes given by a function -/

/-- A memory after bytes f 0, …, f (n - 1) are stored from index 0. -/
theorem Memory.read_writeRun_range (m : Memory) (f : Nat → Byte) (n a : Nat) :
    Memory.read (Memory.writeRun m 0 ((List.range n).map f)) a = if a < n then some (f a) else Memory.read m a := by
  simp [Memory.read_writeRun_zero]

/-- A bit depends on its byte alone. -/
theorem getbit_congr {m m' : Memory} {k : Nat} (h : Memory.read m (k / 8) = Memory.read m' (k / 8)) :
    getbit m k = getbit m' k := by
  simp only [getbit, readCell, h]

/-- The bits of bytes f 0, …, f (n - 1) stored from index 0, and the bits behind them. -/
theorem getbit_writeRun_range (m : Memory) (f : Nat → Byte) (n k : Nat) :
    getbit (Memory.writeRun m 0 ((List.range n).map f)) k = if k < 8 * n then .ok (packedBit f k) else getbit m k := by
  by_cases hk : k < 8 * n
  · rw [if_pos hk]
    exact getbit_of_read (by rw [Memory.read_writeRun_range, if_pos (by omega)])
  · rw [if_neg hk]
    exact getbit_congr (by rw [Memory.read_writeRun_range, if_neg (by omega)])

/-- The read-modify-write of written channels c with the bits f 0, …, f (n - 1). -/
theorem embedRun_range {m : Memory} {c : Nat → Byte} {n : Nat} (h : Holds m n c) (f : Nat → Bool) :
    embedRun m 0 ((List.range n).map f) = .ok ((List.range n).map fun k => lsbSub (c k) (f k)) := by
  rw [embedRun_written m c _ 0 (by simpa [Holds] using h)]
  congr 1
  apply List.ext_getElem <;> simp

/-! ## EMBED (rule R131) -/

theorem planEmbed_long_sequence {s : State} (h : 8 * s.cfg.bitbufBytes < s.bitLen.toNat) :
    planEmbed s = .error (.raise (.bounds .bitbuf)) := if_pos h

theorem planEmbed_large_raster {s : State} (hbits : s.bitLen.toNat ≤ 8 * s.cfg.bitbufBytes)
    (h : s.cfg.rasterBytes < rasterCapacity s) : planEmbed s = .error (.raise (.bounds .raster)) := by
  rw [planEmbed, if_neg (by omega), if_pos h]

theorem planEmbed_over_capacity {s : State} (hbits : s.bitLen.toNat ≤ 8 * s.cfg.bitbufBytes)
    (hraster : rasterCapacity s ≤ s.cfg.rasterBytes) (h : rasterCapacity s < s.bitLen.toNat) :
    planEmbed s = .error (.raise .capacity) := by
  rw [planEmbed, if_neg (by omega), if_neg (by omega), if_pos h]

/-- EMBED of written bits into written channels, when every check passes. -/
theorem planEmbed_success {s : State} {b c : Nat → Byte} (hbits : s.bitLen.toNat ≤ 8 * s.cfg.bitbufBytes)
    (hraster : rasterCapacity s ≤ s.cfg.rasterBytes) (hcap : s.bitLen.toNat ≤ rasterCapacity s)
    (hb : Holds s.bitbuf ((s.bitLen.toNat + 7) / 8) b) (hc : Holds s.raster s.bitLen.toNat c) :
    planEmbed s = .ok { raster := (List.range s.bitLen.toNat).map fun k => lsbSub (c k) (packedBit b k) } := by
  have bits : getbits s.bitbuf 0 s.bitLen.toNat = .ok ((List.range s.bitLen.toNat).map (packedBit b)) := by
    simpa using getbits_range s.bitbuf b _ _ 0 hb (by omega)
  simp only [planEmbed, if_neg (Nat.not_lt.2 hbits), if_neg (Nat.not_lt.2 hraster), if_neg (Nat.not_lt.2 hcap), bits,
    embedRun_range hc]

/-- Settles O21: the checks in their order, each with its error record; past them each of the T channels is read,
modified and written once. -/
theorem embedOutcome : Obligations.EmbedOutcome := by
  intro s b c cap hcap
  obtain rfl : cap = rasterCapacity s := hcap
  refine ⟨fun hlong => ?longSequence, fun hbits => ⟨fun hlarge => ?largeRaster, fun hraster =>
    ⟨fun hover => ?overCapacity, fun hcap hb hc => ?success⟩⟩⟩
  case longSequence => exact exec_of_plan_raise (i := .embed) (planEmbed_long_sequence hlong)
  case largeRaster => exact exec_of_plan_raise (i := .embed) (planEmbed_large_raster hbits hlarge)
  case overCapacity => exact exec_of_plan_raise (i := .embed) (planEmbed_over_capacity hbits hraster hover)
  case success =>
    obtain ⟨t, ht, fields, raster⟩ := complete_raster s
      ((List.range s.bitLen.toNat).map fun k => lsbSub (c k) (packedBit b k))
    have plan := planEmbed_success hbits hraster hcap hb hc
    exact ⟨t, (exec_of_plan (i := .embed) plan).trans ht, fields, fun k => raster ▸ Memory.read_writeRun_range ..⟩

/-! ## What the two commands leave of RASTER (rule R135) -/

/-- Settles O29: a success of EMBED writes a run of T channels from index 0, an error record writes no memory, and
EXTRACT does not own RASTER. -/
theorem untouchedTailAndNonDestructiveFailure : Obligations.UntouchedTailAndNonDestructiveFailure := by
  refine ⟨fun s t h => ?embed, fun s t h k => ?extract⟩
  case embed =>
    rcases exec_next h with ⟨c, plan, rfl⟩ | ⟨e, -, rfl⟩
    · refine ⟨fun k hk => ?_, nofun⟩
      have outside : ¬ k < c.raster.length := by rw [planEmbed_length plan]; omega
      rw [recordSuccess_raster, applyCommit_raster, Memory.read_writeRun_zero, dif_neg outside]
    · exact ⟨fun _ _ => rfl, fun _ _ => rfl⟩
  case extract =>
    obtain ⟨-, -, -, -, -, -, -, -, -, raster, -⟩ := commandFrame .extract s t h
    rw [raster (by decide) (by decide)]

/-! ## EXTRACT in closed form (rule R133) -/

/-- BITBUF byte j as EXTRACT fills it from channels c: LSBs 8 j to 8 j + 7, the first the most significant. -/
def extractedByte (c : Nat → Byte) (j : Nat) : Byte := BitVec.ofNat 8 (lsbByte c (8 * j))

/-- The bits packed in the extracted bytes are the LSBs in scan order. -/
theorem packedBit_extractedByte (c : Nat → Byte) (k : Nat) : packedBit (extractedByte c) k = lsb (c k) := by
  rw [packedBit, extractedByte, packed_lsbByte c (k / 8) (k % 8) (by omega), Nat.div_add_mod]

/-- The LSBs of a frame of n characters, packed. -/
theorem packBytes_lsbBits (c : Nat → Byte) (n : Nat) :
    packBytes (lsbBits c (32 + 8 * n)) (4 + n) = (List.range (4 + n)).map (extractedByte c) := by
  refine List.map_congr_left fun j hj => be8_lsbBits c _ _ ?_
  have hj : j < 4 + n := List.mem_range.1 hj
  omega

/-- The writes of EXTRACT from channels c. -/
def extractCommit (c : Nat → Byte) : Commit where
  bitbuf := (List.range (4 + lsbPrefix c)).map (extractedByte c)
  bitLen := some (BitVec.ofNat 64 (32 + 8 * lsbPrefix c))

/-- The error that EXTRACT ends in when the channels declare `len` characters, in the order of its checks. -/
def extractError (s : State) (len : Nat) : Option CmdError :=
  if s.cfg.rasterBytes < rasterCapacity s then some (.bounds .raster)
  else if rasterCapacity s < 32 then some (.underflow false)
  else if rasterCapacity s < 32 + 8 * len then some (.underflow true)
  else if s.cfg.bitbufBytes < 4 + len then some (.bounds .bitbuf)
  else none

/-- EXTRACT up to its commit, from channels c. -/
theorem planExtract_eq {s : State} {c : Nat → Byte}
    (hc : rasterCapacity s ≤ s.cfg.rasterBytes → Holds s.raster (extractReads (rasterCapacity s) c) c) :
    planExtract s = (extractError s (lsbPrefix c)).elim (.ok (extractCommit c)) fun e => .error (.raise e) := by
  unfold planExtract extractSequence extractError
  by_cases hraster : s.cfg.rasterBytes < rasterCapacity s
  · simp only [if_pos hraster, Option.elim_some]
  simp only [if_neg hraster, scanFrom_start s.raster c _ (hc (Nat.not_lt.1 hraster))]
  by_cases hshort : rasterCapacity s < 32
  · simp only [if_pos hshort, Option.elim_some]
  by_cases hpayload : rasterCapacity s < 32 + 8 * lsbPrefix c
  · simp only [if_neg hshort, if_pos hpayload, Option.elim_some]
  have bytes : frameLen (lsbPrefix c) / 8 = 4 + lsbPrefix c := by simp only [frameLen, lenBits, cpBits]; omega
  simp only [if_neg hshort, if_neg hpayload, be32_lsbBits c (32 + 8 * lsbPrefix c) (by omega), bytes,
    packBytes_lsbBits]
  split <;> rfl

section
variable {s : State} {c : Nat → Byte}
  (hc : rasterCapacity s ≤ s.cfg.rasterBytes → Holds s.raster (extractReads (rasterCapacity s) c) c)
include hc

theorem exec_extract_of_error {e : CmdError} (h : extractError s (lsbPrefix c) = some e) :
    exec .extract s = .next (recordError e s) :=
  exec_of_plan_raise (i := .extract) ((planExtract_eq hc).trans (by rw [h, Option.elim_some]))

theorem exec_extract_of_no_error (h : extractError s (lsbPrefix c) = none) :
    exec .extract s = .next (recordSuccess (applyCommit (extractCommit c) s)) :=
  (exec_of_plan (i := .extract) ((planExtract_eq hc).trans (by rw [h, Option.elim_none]))).trans (complete_ok s _)

end

/-- Settles O22: the checks in their order, each with its error record; past them the commit is the LSBs, packed. -/
theorem extractOutcome : Obligations.ExtractOutcome := by
  intro s c cap hcap
  obtain rfl : cap = rasterCapacity s := hcap
  refine ⟨fun hlarge => ?largeRaster, fun hraster hc => ?fitting⟩
  case largeRaster =>
    exact exec_extract_of_error (c := c) (fun hraster => by omega) (if_pos hlarge)
  have channels := fun _ : rasterCapacity s ≤ s.cfg.rasterBytes => hc
  refine ⟨fun hshort => ?noPrefix, fun h32 => ⟨fun hpayload => ?noPayload, fun hframe =>
    ⟨fun hsmall => ?smallBitbuf, fun hfit => ?success⟩⟩⟩
  case noPrefix =>
    refine exec_extract_of_error (e := .underflow false) channels ?_
    rw [extractError, if_neg (by omega), if_pos hshort]
  case noPayload =>
    refine exec_extract_of_error (e := .underflow true) channels ?_
    rw [extractError, if_neg (by omega), if_neg (by omega), if_pos hpayload]
  case smallBitbuf =>
    refine exec_extract_of_error (e := .bounds .bitbuf) channels ?_
    rw [extractError, if_neg (by omega), if_neg (by omega), if_neg (by omega), if_pos hsmall]
  case success =>
    have passed : extractError s (lsbPrefix c) = none := by
      rw [extractError, if_neg (by omega), if_neg (by omega), if_neg (by omega), if_neg (by omega)]
    obtain ⟨t, ht, fields, bitbuf⟩ := complete_bitbuf s ((List.range (4 + lsbPrefix c)).map (extractedByte c))
      (BitVec.ofNat 64 (32 + 8 * lsbPrefix c))
    have bitLen : t.bitLen = BitVec.ofNat 64 (32 + 8 * lsbPrefix c) := by rw [fields]
    refine ⟨t, (exec_extract_of_no_error channels passed).trans ((complete_ok s _).symm.trans ht), fields, ?_,
      fun j => bitbuf ▸ Memory.read_writeRun_range ..⟩
    have := lsbPrefix_lt c
    rw [bitLen, BitVec.toNat_ofNat, Nat.mod_eq_of_lt (by omega)]

/-! ## The extract state machine (rule R134) -/

theorem scanVisit_length_continues {acc : List Bool} (b : Bool) (h : acc.length + 1 ≠ 32) :
    scanVisit ⟨.scanningLength, acc⟩ b = ⟨.scanningLength, acc ++ [b]⟩ :=
  if_neg (by simpa [lenBits] using h)

/-- The 32nd bit ends the length phase, and the scan settles in the phase that the declared length asks for. -/
theorem scanVisit_length_ends {acc : List Bool} (b : Bool) (h : acc.length + 1 = 32) :
    scanVisit ⟨.scanningLength, acc⟩ b = scanSettle (32 + 8 * be32 (acc ++ [b]) 0) (acc ++ [b]) :=
  if_pos (by simpa [lenBits] using h)

theorem scanVisit_payload (acc : List Bool) (b : Bool) (r : Nat) :
    scanVisit ⟨.scanningPayload r, acc⟩ b = scanSettle r (acc ++ [b]) := rfl

theorem scanSettle_of_eq {r : Nat} {acc : List Bool} (h : acc.length = r) : scanSettle r acc = ⟨.done r, acc⟩ :=
  if_pos h

theorem scanSettle_of_ne {r : Nat} {acc : List Bool} (h : acc.length ≠ r) :
    scanSettle r acc = ⟨.scanningPayload r, acc⟩ := if_neg h

/-- A scan that is DONE reads no channel. -/
theorem scanFrom_done (m : Memory) (k r : Nat) (acc : List Bool) (n : Nat) :
    scanFrom m k ⟨.done r, acc⟩ n = .ok acc := by
  cases n <;> rfl

/-- Settles O41: each visit appends its bit and settles, the frame of 0 characters being over at the 32nd bit; a scan
with no channel left answers by its phase. -/
theorem extractStateMachine : Obligations.ExtractStateMachine := by
  refine ⟨fun acc b => ⟨scanVisit_length_continues b, fun h32 => ⟨fun hzero => ?empty, fun hpos => ?payload⟩,
    fun r => ?visit⟩, fun m k acc => ⟨rfl, fun _ => rfl, fun r => scanFrom_done m k r acc⟩⟩
  all_goals have length : (acc ++ [b]).length = acc.length + 1 := by simp
  case empty => rw [scanVisit_length_ends b h32, hzero, scanSettle_of_eq (length.trans h32)]
  case payload => rw [scanVisit_length_ends b h32, scanSettle_of_ne (by omega)]
  case visit =>
    rw [scanVisit_payload]
    split
    next hr => exact scanSettle_of_eq (length.trans hr)
    next hr => exact scanSettle_of_ne (by omega)

/-! ## What one channel's LSB decides (rule R136) -/

/-- The declared length depends on the LSBs of the first 32 channels alone. -/
theorem lsbPrefix_congr {c c' : Nat → Byte} (h : ∀ k, k < 32 → lsb (c' k) = lsb (c k)) :
    lsbPrefix c' = lsbPrefix c := by
  rw [lsbPrefix_eq, lsbPrefix_eq, List.map_congr_left fun k hk => h k (List.mem_range.1 hk)]

/-- An extracted byte depends on its eight LSBs alone. -/
theorem extractedByte_congr {c c' : Nat → Byte} {j : Nat} (h : ∀ k, k < 8 * j + 8 → lsb (c' k) = lsb (c k)) :
    extractedByte c' j = extractedByte c j := by
  have same (m : Nat) (hm : m ∈ List.range 8) : lsb (c' (8 * j + m)) = lsb (c (8 * j + m)) :=
    h _ (by have := List.mem_range.1 hm; omega)
  rw [extractedByte, extractedByte, lsbByte_eq, lsbByte_eq, List.map_congr_left same]

/-- What EXTRACT writes depends on the LSBs of the frame alone. -/
theorem extractCommit_congr {c c' : Nat → Byte} (h : ∀ k, k < 32 + 8 * lsbPrefix c → lsb (c' k) = lsb (c k)) :
    extractCommit c' = extractCommit c := by
  have bytes (j : Nat) (hj : j ∈ List.range (4 + lsbPrefix c)) : extractedByte c' j = extractedByte c j :=
    extractedByte_congr fun k hk => h k (by have := List.mem_range.1 hj; omega)
  rw [extractCommit, extractCommit, lsbPrefix_congr fun k hk => h k (by omega), List.map_congr_left bytes]

/-- The declared length as the weight of LSB p and the rest, which the other LSBs give. -/
theorem lsbPrefix_split (c : Nat → Byte) {p : Nat} (hp : p < 32) :
    lsbPrefix c = (lsb (c p)).toNat * 2 ^ (31 - p) +
      ∑ k ∈ (Finset.range 32).erase p, (lsb (c k)).toNat * 2 ^ (31 - k) := by
  rw [Finset.add_sum_erase _ (fun k => (lsb (c k)).toNat * 2 ^ (31 - k)) (Finset.mem_range.2 hp), lsbPrefix]
  simp only [lsb_toNat]

/-- Flipping one of the first 32 LSBs moves the declared length by its weight. -/
theorem lsbPrefix_flip {c c' : Nat → Byte} {p : Nat} (hp : p < 32) (hflip : lsb (c' p) = !lsb (c p))
    (hrest : ∀ k, k ≠ p → lsb (c' k) = lsb (c k)) :
    if lsb (c p) then lsbPrefix c' + 2 ^ (31 - p) = lsbPrefix c else lsbPrefix c' = lsbPrefix c + 2 ^ (31 - p) := by
  have rest : ∑ k ∈ (Finset.range 32).erase p, (lsb (c' k)).toNat * 2 ^ (31 - k) =
      ∑ k ∈ (Finset.range 32).erase p, (lsb (c k)).toNat * 2 ^ (31 - k) :=
    Finset.sum_congr rfl fun k hk => by rw [hrest k (Finset.ne_of_mem_erase hk)]
  rw [lsbPrefix_split c hp, lsbPrefix_split c' hp, rest, hflip]
  cases lsb (c p) <;> simp [Nat.add_comm]

theorem extractReads_le (cap : Nat) (c : Nat → Byte) : extractReads cap c ≤ cap := by
  unfold extractReads
  split <;> omega

/-- EXTRACT writes no channel: where its plan is the same over another raster, so is all it does. -/
theorem exec_extract_other_raster {s t : State} {m : Memory}
    (hplan : planExtract { s with raster := m } = planExtract s) (h : exec .extract s = .next t) :
    exec .extract { s with raster := m } = .next { t with raster := m } := by
  rcases exec_next h with ⟨c, plan, rfl⟩ | ⟨e, plan, rfl⟩
  · obtain ⟨raster, -⟩ := planOf_ok plan
    rw [exec_of_plan (i := .extract) (hplan.trans plan), complete_ok, recordSuccess, applyCommit,
      raster (by decide) (by decide)]
    rfl
  · exact exec_of_plan_raise (i := .extract) (hplan.trans plan)

/-- The plan of EXTRACT is the same over another raster with the same LSBs in the frame. -/
theorem planExtract_same_frame {s : State} {m : Memory} {c c' : Nat → Byte}
    (hc : Holds s.raster (rasterCapacity s) c) (hc' : Holds m (rasterCapacity s) c')
    (h : ∀ k, k < 32 + 8 * lsbPrefix c → lsb (c' k) = lsb (c k)) :
    planExtract { s with raster := m } = planExtract s := by
  have checks : extractError { s with raster := m } (lsbPrefix c') = extractError s (lsbPrefix c) :=
    congrArg (extractError s) (lsbPrefix_congr fun k hk => h k (by omega))
  rw [planExtract_eq (s := { s with raster := m }) fun _ => hc'.mono (extractReads_le _ c'),
    planExtract_eq fun _ => hc.mono (extractReads_le _ c), checks, extractCommit_congr h]

/-- A bit of BITBUF after a success of EXTRACT: an LSB of the frame, or as before. -/
theorem getbit_extractCommit (c : Nat → Byte) (s : State) (k : Nat) :
    getbit (recordSuccess (applyCommit (extractCommit c) s)).bitbuf k =
      if k < 32 + 8 * lsbPrefix c then .ok (lsb (c k)) else getbit s.bitbuf k := by
  rw [recordSuccess_bitbuf, applyCommit_bitbuf, extractCommit, getbit_writeRun_range, packedBit_extractedByte,
    show 8 * (4 + lsbPrefix c) = 32 + 8 * lsbPrefix c by omega]

/-- Over another raster that declares the same length, EXTRACT passes the same checks: it gives the same record and
BIT_LEN, each success stores its own channels' LSBs, and a bit of BITBUF differs only where the LSBs do. -/
theorem exec_extract_same_length {s t : State} {m : Memory} {c c' : Nat → Byte}
    (hc : Holds s.raster (rasterCapacity s) c) (hc' : Holds m (rasterCapacity s) c')
    (length : lsbPrefix c' = lsbPrefix c) (h : exec .extract s = .next t) :
    ∃ t', exec .extract { s with raster := m } = .next t' ∧ t'.done = t.done ∧ t'.err = t.err ∧
      t'.errCode = t.errCode ∧ t'.errInfo = t.errInfo ∧ t'.bitLen = t.bitLen ∧
      (t.done = true → ∀ k, k < 32 + 8 * lsbPrefix c →
        getbit t.bitbuf k = .ok (lsb (c k)) ∧ getbit t'.bitbuf k = .ok (lsb (c' k))) ∧
      ∀ k, lsb (c' k) = lsb (c k) ∨ t.err = true → getbit t'.bitbuf k = getbit t.bitbuf k := by
  have channels := fun _ : rasterCapacity s ≤ s.cfg.rasterBytes => hc.mono (extractReads_le _ c)
  have channels' := fun _ : rasterCapacity s ≤ s.cfg.rasterBytes => hc'.mono (extractReads_le _ c')
  let s' : State := { s with raster := m }
  have checks : extractError s' (lsbPrefix c') = extractError s (lsbPrefix c) := congrArg (extractError s) length
  cases herror : extractError s (lsbPrefix c) with
  | some e =>
    cases h.symm.trans (exec_extract_of_error channels herror)
    have h' := exec_extract_of_error (s := s') channels' (checks.trans herror)
    exact ⟨_, h', rfl, rfl, rfl, rfl, rfl, nofun, fun _ _ => rfl⟩
  | none =>
    cases h.symm.trans (exec_extract_of_no_error channels herror)
    have h' := exec_extract_of_no_error (s := s') channels' (checks.trans herror)
    refine ⟨_, h', by simp, by simp, by simp, by simp, by simp [extractCommit, length], fun _ k hk => ?_,
      fun k hk => ?_⟩
    · simp only [getbit_extractCommit, length, if_pos hk, and_self]
    · have same : lsb (c' k) = lsb (c k) := by simpa using hk
      simp only [getbit_extractCommit, length, same, s']

/-- Settles O37: the raw stream changes at p alone. From bit 32 up the declared length stays, so EXTRACT ends alike and
BITBUF differs at bit p if the frame reaches it; below, the length moves by the weight of bit p. -/
theorem scanPositionSensitivity : Obligations.ScanPositionSensitivity := by
  intro s c c' p cap s' hcap hp hc hs' hc'
  obtain rfl : cap = rasterCapacity s := hcap
  subst hs'
  have flipped : lsb (c' p) = !lsb (c p) := by simp [hc', lsb_flip]
  have others : ∀ k, k ≠ p → lsb (c' k) = lsb (c k) := fun k hk => by simp [hc', hk]
  have holds' : Holds (Memory.write s.raster p (c p ^^^ 0x01#8)) (rasterCapacity s) c' := by
    intro k hk
    simp only [Memory.read_write, hc', eq_comm (a := p), hc k hk]
    split
    next h => rw [h]
    next => rfl
  have length (hp : 32 ≤ p) : lsbPrefix c' = lsbPrefix c := lsbPrefix_congr fun k hk => others k (by omega)
  refine ⟨⟨holds', flipped, others⟩, fun t ht h32 hframe => ?payload, fun t ht hbehind => ?behind,
    fun h32 => lsbPrefix_flip h32 flipped others⟩
  case payload =>
    obtain ⟨t', ht', done, err, code, info, bitLen, stored, same⟩ :=
      exec_extract_same_length hc holds' (length h32) ht
    refine ⟨t', ht', done, err, code, info, bitLen, fun hd => ?_, fun k hk => same k (hk.imp_left (others k))⟩
    obtain ⟨before, after⟩ := stored hd p hframe
    rw [before, after, flipped]
    rfl
  case behind =>
    exact exec_extract_other_raster (planExtract_same_frame hc holds' fun k hk => others k (by omega)) ht

end Sys2Proof.Machine
end

section
/-! PROOFS. Scope: the call-site commands (rules R160 to R163): the outcome of ENCODE_EMBED and of EXTRACT_DECODE in
every case, the round trip through a carrier, and each command against the pair that it stands for. -/

namespace Sys2Proof.Machine

/-! ## ENCODE_EMBED (rule R160) -/

/-- The frame of L and the code points of n words, bit by bit (rule R110). -/
theorem frame_eq_frameBits (len : Word) (cp : Nat → Word) (n : Nat) :
    frame len ((List.range n).map fun j => (cp j).setWidth 8) = (List.range (32 + 8 * n)).map (frameBit len cp) := by
  apply List.ext_getElem
  · simp
  · intro k hk _
    have inByte : 7 - (k - 32) % 8 < 8 := by omega
    rw [frame_getElem _ _ _ (by simpa using hk)]
    simp [frameBit, inByte]

theorem planEncodeEmbed_of_framePayload_error {s : State} {e : Stop} (h : framePayload s = .error e) :
    planEncodeEmbed s = .error e := by
  simp [planEncodeEmbed, h]

/-- ENCODE_EMBED once the payload is framed: the checks on the raster, then the channels. -/
theorem planEncodeEmbed_of_framePayload {s : State} {cps : List Byte} (h : framePayload s = .ok cps) :
    planEncodeEmbed s =
      if s.cfg.rasterBytes < rasterCapacity s then .error (.raise (.bounds .raster))
      else if rasterCapacity s < 32 + 8 * s.payLen.toNat then .error (.raise .capacity)
      else (embedRun s.raster 0 (frame s.payLen cps)).map fun channels => { raster := channels } := by
  simp only [planEncodeEmbed, h, frameLen, lenBits, cpBits]
  cases embedRun s.raster 0 (frame s.payLen cps) <;> rfl

section
variable {s : State} {cp : Nat → Word} (hlen : s.payLen.toNat ≤ s.cfg.payDepth)
  (hcp : HoldsWords s.payload s.payLen.toNat cp) (hle : ∀ j, j < s.payLen.toNat → (cp j).toNat ≤ 0xFF)
include hlen hcp hle

theorem planEncodeEmbed_large_raster (h : s.cfg.rasterBytes < rasterCapacity s) :
    planEncodeEmbed s = .error (.raise (.bounds .raster)) := by
  rw [planEncodeEmbed_of_framePayload (framePayload_legal_words hlen cp hcp hle), if_pos h]

theorem planEncodeEmbed_over_capacity (hraster : rasterCapacity s ≤ s.cfg.rasterBytes)
    (h : rasterCapacity s < 32 + 8 * s.payLen.toNat) : planEncodeEmbed s = .error (.raise .capacity) := by
  rw [planEncodeEmbed_of_framePayload (framePayload_legal_words hlen cp hcp hle), if_neg (by omega), if_pos h]

/-- ENCODE_EMBED of a legal payload into written channels c, when every check passes. -/
theorem exec_encodeEmbed_success {c : Nat → Byte} (hraster : rasterCapacity s ≤ s.cfg.rasterBytes)
    (hcap : 32 + 8 * s.payLen.toNat ≤ rasterCapacity s) (hc : Holds s.raster (32 + 8 * s.payLen.toNat) c) :
    ∃ t, exec .encodeEmbed s = .next t ∧ t = { afterSuccess s with raster := t.raster } ∧
      ∀ k, Memory.read t.raster k =
        if k < 32 + 8 * s.payLen.toNat then some (lsbSub (c k) (frameBit s.payLen cp k))
        else Memory.read s.raster k := by
  have plan : planEncodeEmbed s = .ok
      { raster := (List.range (32 + 8 * s.payLen.toNat)).map fun k => lsbSub (c k) (frameBit s.payLen cp k) } := by
    rw [planEncodeEmbed_of_framePayload (framePayload_legal_words hlen cp hcp hle), if_neg (by omega),
      if_neg (by omega), frame_eq_frameBits, embedRun_range hc, Except.map]
  obtain ⟨t, ht, fields, raster⟩ := complete_raster s
    ((List.range (32 + 8 * s.payLen.toNat)).map fun k => lsbSub (c k) (frameBit s.payLen cp k))
  refine ⟨t, (exec_of_plan (i := .encodeEmbed) plan).trans ht, fields, fun k => ?_⟩
  rw [raster, Memory.read_writeRun_range]

end

/-- Settles O23: the checks in their order, each with its error record; past them each channel of the frame is read,
modified and written once. -/
theorem encodeEmbedOutcome : Obligations.EncodeEmbedOutcome := by
  intro s cp c cap hcap
  obtain rfl : cap = rasterCapacity s := hcap
  refine ⟨fun hlong => ?tooLong, fun hlen => ⟨fun i hi hcp hle hbad => ?codepoint, fun hcp hle =>
    ⟨fun hlarge => ?largeRaster, fun hraster => ⟨fun hover => ?overCapacity, fun hfit hc => ?success⟩⟩⟩⟩
  case tooLong =>
    exact exec_of_plan_raise (i := .encodeEmbed) (planEncodeEmbed_of_framePayload_error (framePayload_too_long hlong))
  case codepoint =>
    exact exec_of_plan_raise (i := .encodeEmbed)
      (planEncodeEmbed_of_framePayload_error (framePayload_codepoint hlen cp i hi hcp hle hbad))
  case largeRaster =>
    exact exec_of_plan_raise (i := .encodeEmbed) (planEncodeEmbed_large_raster hlen hcp hle hlarge)
  case overCapacity =>
    exact exec_of_plan_raise (i := .encodeEmbed) (planEncodeEmbed_over_capacity hlen hcp hle hraster hover)
  case success => exact exec_encodeEmbed_success hlen hcp hle hraster hfit hc

/-! ## EXTRACT_DECODE (rule R161) -/

/-- The writes of EXTRACT_DECODE from channels c. -/
def extractDecodeCommit (c : Nat → Byte) : Commit where
  payload := (List.range (lsbPrefix c)).map fun i => BitVec.ofNat 32 (lsbByte c (32 + 8 * i))
  payLen := some (BitVec.ofNat 32 (lsbPrefix c))

/-- The error that EXTRACT_DECODE ends in when the channels declare `len` characters, in the order of its checks. -/
def extractDecodeError (s : State) (len : Nat) : Option CmdError :=
  if s.cfg.rasterBytes < rasterCapacity s then some (.bounds .raster)
  else if rasterCapacity s < 32 then some (.underflow false)
  else if rasterCapacity s < 32 + 8 * len then some (.underflow true)
  else if s.cfg.payDepth < len then some (.bounds .payload)
  else none

/-- The payload words of the LSBs of a frame of n characters. -/
theorem payloadWords_lsbBits (c : Nat → Byte) (n : Nat) :
    (packBytes ((lsbBits c (32 + 8 * n)).drop 32) n).map (BitVec.setWidth 32) =
      (List.range n).map fun i => BitVec.ofNat 32 (lsbByte c (32 + 8 * i)) := by
  rw [packBytes, List.map_map]
  exact List.map_congr_left fun i hi => be8_payload_bits c n i (List.mem_range.1 hi)

section
variable {s : State} {c : Nat → Byte}
  (hc : rasterCapacity s ≤ s.cfg.rasterBytes → Holds s.raster (extractReads (rasterCapacity s) c) c)
include hc

/-- EXTRACT_DECODE up to its commit, from channels c. -/
theorem planExtractDecode_eq :
    planExtractDecode s =
      (extractDecodeError s (lsbPrefix c)).elim (.ok (extractDecodeCommit c)) fun e => .error (.raise e) := by
  unfold planExtractDecode extractSequence extractDecodeError
  by_cases hraster : s.cfg.rasterBytes < rasterCapacity s
  · simp only [if_pos hraster, Option.elim_some]
  simp only [if_neg hraster, scanFrom_start s.raster c _ (hc (Nat.not_lt.1 hraster))]
  by_cases hshort : rasterCapacity s < 32
  · simp only [if_pos hshort, Option.elim_some]
  by_cases hpayload : rasterCapacity s < 32 + 8 * lsbPrefix c
  · simp only [if_neg hshort, if_pos hpayload, Option.elim_some]
  simp only [if_neg hshort, if_neg hpayload, be32_lsbBits c (32 + 8 * lsbPrefix c) (by omega), lenBits,
    payloadWords_lsbBits]
  split <;> rfl

theorem exec_extractDecode_of_error {e : CmdError} (h : extractDecodeError s (lsbPrefix c) = some e) :
    exec .extractDecode s = .next (recordError e s) :=
  exec_of_plan_raise (i := .extractDecode) ((planExtractDecode_eq hc).trans (by rw [h, Option.elim_some]))

theorem exec_extractDecode_of_no_error (h : extractDecodeError s (lsbPrefix c) = none) :
    exec .extractDecode s = complete s (.ok (extractDecodeCommit c)) :=
  exec_of_plan (i := .extractDecode) ((planExtractDecode_eq hc).trans (by rw [h, Option.elim_none]))

end

/-- Settles O24: the checks in their order, each with its error record; past them the commit is the payload's LSBs. -/
theorem extractDecodeOutcome : Obligations.ExtractDecodeOutcome := by
  intro s c cap hcap
  obtain rfl : cap = rasterCapacity s := hcap
  refine ⟨fun hlarge => ?largeRaster, fun hraster hc => ?fitting⟩
  case largeRaster =>
    exact exec_extractDecode_of_error (c := c) (fun hraster => by omega) (if_pos hlarge)
  have channels := fun _ : rasterCapacity s ≤ s.cfg.rasterBytes => hc
  refine ⟨fun hshort => ?noPrefix, fun h32 => ⟨fun hpayload => ?noPayload, fun hframe =>
    ⟨fun hsmall => ?smallPayload, fun hfit => ?success⟩⟩⟩
  case noPrefix =>
    refine exec_extractDecode_of_error (e := .underflow false) channels ?_
    rw [extractDecodeError, if_neg (by omega), if_pos hshort]
  case noPayload =>
    refine exec_extractDecode_of_error (e := .underflow true) channels ?_
    rw [extractDecodeError, if_neg (by omega), if_neg (by omega), if_pos hpayload]
  case smallPayload =>
    refine exec_extractDecode_of_error (e := .bounds .payload) channels ?_
    rw [extractDecodeError, if_neg (by omega), if_neg (by omega), if_neg (by omega), if_pos hsmall]
  case success =>
    have passed : extractDecodeError s (lsbPrefix c) = none := by
      rw [extractDecodeError, if_neg (by omega), if_neg (by omega), if_neg (by omega), if_neg (by omega)]
    obtain ⟨t, ht, fields, payload⟩ := complete_payload s
      ((List.range (lsbPrefix c)).map fun i => BitVec.ofNat 32 (lsbByte c (32 + 8 * i)))
      (BitVec.ofNat 32 (lsbPrefix c))
    have payLen : t.payLen = BitVec.ofNat 32 (lsbPrefix c) := by rw [fields]
    refine ⟨t, (exec_extractDecode_of_no_error channels passed).trans ht, fields, ?_, fun i hi => ?_,
      fun a ha => ?_⟩
    · rw [payLen, BitVec.toNat_ofNat, Nat.mod_eq_of_lt (lsbPrefix_lt c)]
    · rw [payload, Memory.readWord_writeWords, dif_pos (by simpa using hi)]
      simp
    · rw [payload, Memory.read_writeWords_ge _ _ _ (by simpa using ha)]

/-! ## The round trip (rule R163) -/

/-- The length that channels carrying a frame declare. -/
theorem lsbPrefix_frame {c : Nat → Byte} {len : Word} {cp : Nat → Word} (h : ∀ k, lsb (c k) = frameBit len cp k) :
    lsbPrefix c = len.toNat := by
  rw [lsbPrefix_eq]
  exact beValue_word len _ fun k hk => by rw [h, frameBit, if_pos hk]

/-- Settles O34: the channels that ENCODE_EMBED leaves carry the frame in their LSBs, and EXTRACT_DECODE reads the
length and the code points back from these. -/
theorem rasterRoundTrip : Obligations.RasterRoundTrip := by
  intro s cp hlen hcp hle hfit hraster hwritten
  obtain ⟨c, hc⟩ := hwritten.exists_holds
  obtain ⟨t, ht, fields, raster⟩ := exec_encodeEmbed_success hlen hcp hle hraster hfit hc
  refine ⟨t, ht, by rw [fields]; rfl, fun t' hcfg hr hw hh => ?_⟩
  let carrier : Nat → Byte := fun k => lsbSub (c k) (frameBit s.payLen cp k)
  have carried (k : Nat) : lsb (carrier k) = frameBit s.payLen cp k := lsb_lsbSub _ _
  have declared : lsbPrefix carrier = s.payLen.toNat := lsbPrefix_frame carried
  have cfg : t'.cfg = s.cfg := hcfg.trans (by rw [fields]; rfl)
  have width : t'.width = s.width := hw.trans (by rw [fields]; rfl)
  have height : t'.height = s.height := hh.trans (by rw [fields]; rfl)
  have channels : Holds t'.raster (extractReads (s.width.toNat * s.height.toNat * 3) carrier) carrier := by
    intro k hk
    rw [extractReads, if_neg (by omega), declared] at hk
    rw [hr, raster, if_pos (by omega)]
  obtain ⟨-, extracted⟩ := extractDecodeOutcome t' carrier _ rfl
  rw [cfg, width, height, declared] at extracted
  obtain ⟨-, framed⟩ := extracted hraster channels
  obtain ⟨-, fitting⟩ := framed (by omega)
  obtain ⟨-, success⟩ := fitting hfit
  obtain ⟨u, hu, fields', -, words, -⟩ := success hlen
  refine ⟨u, hu, by rw [fields']; rfl, ?_, fun i hi => (words i hi).trans ?_⟩
  · rw [fields']
    exact (BitVec.ofNat_toNat 32 s.payLen).trans (BitVec.setWidth_eq s.payLen)
  · have word : lsbByte carrier (32 + 8 * i) = (cp i).toNat := lsbByte_frame carrier s.payLen cp carried i (hle i hi)
    simp [word]

/-! ## One result in two states -/

/-- t and t' end alike: the same STATUS and ERR_INFO, and the same outputs of a call-site command. -/
structure SameResult (t t' : State) : Prop where
  busy : t'.busy = t.busy
  done : t'.done = t.done
  err : t'.err = t.err
  ovr : t'.ovr = t.ovr
  errCode : t'.errCode = t.errCode
  errInfo : t'.errInfo = t.errInfo
  raster : t'.raster = t.raster
  payload : t'.payload = t.payload
  payLen : t'.payLen = t.payLen

/-- One result of a plan ends alike in two states that agree on OVR and on the outputs. -/
theorem complete_sameResult {s s' t : State} {r : Eval Commit} (hovr : s'.ovr = s.ovr) (hraster : s'.raster = s.raster)
    (hpayload : s'.payload = s.payload) (hpayLen : s'.payLen = s.payLen) (h : complete s r = .next t) :
    ∃ t', complete s' r = .next t' ∧ SameResult t t' := by
  rcases complete_next h with ⟨c, rfl, rfl⟩ | ⟨e, rfl, rfl⟩
  · refine ⟨_, complete_ok s' c, rfl, rfl, rfl, hovr, rfl, rfl, ?_, ?_, ?_⟩
    all_goals simp only [recordSuccess_raster, recordSuccess_payload, recordSuccess_payLen, applyCommit_raster,
      applyCommit_payload, applyCommit_payLen, hraster, hpayload, hpayLen]
  · exact ⟨_, complete_raise s' e, rfl, rfl, rfl, hovr, rfl, rfl, hraster, hpayload, hpayLen⟩

/-! ## ENCODE_EMBED against ENCODE followed by EMBED (rule R162(a)) -/

/-- Where BITBUF holds every payload's frame, ENCODE fails in framing the payload alone. -/
theorem framePayload_of_planEncode_error {s : State} {e : Stop} (hsize : 4 + s.cfg.payDepth ≤ s.cfg.bitbufBytes)
    (h : planEncode s = .error e) : framePayload s = .error e := by
  cases framed : framePayload s with
  | error e' =>
    cases h.symm.trans (planEncode_of_framePayload_error framed)
    rfl
  | ok cps =>
    obtain ⟨hlen, -⟩ := framePayload_ok framed
    cases h.symm.trans (planEncode_eq_ok_iff.2 ⟨cps, framed, by omega, rfl⟩)

/-- EMBED once its sequence is read: the checks on the raster, then the channels. -/
theorem planEmbed_of_getbits {s : State} {bits : List Bool} (hbits : s.bitLen.toNat ≤ 8 * s.cfg.bitbufBytes)
    (h : getbits s.bitbuf 0 s.bitLen.toNat = .ok bits) :
    planEmbed s =
      if s.cfg.rasterBytes < rasterCapacity s then .error (.raise (.bounds .raster))
      else if rasterCapacity s < s.bitLen.toNat then .error (.raise .capacity)
      else (embedRun s.raster 0 bits).map fun channels => { raster := channels } := by
  simp only [planEmbed, if_neg (Nat.not_lt.2 hbits), h]
  cases embedRun s.raster 0 bits <;> rfl

/-- After a success of ENCODE, EMBED reads the frame that ENCODE_EMBED would stream: the two plans are the same. -/
theorem planEmbed_after_encode {s t : State} (h : exec .encode s = .next t) (hd : t.done = true) :
    planEmbed t = planEncodeEmbed s := by
  obtain ⟨c, plan, -⟩ := exec_next_done h hd
  obtain ⟨cps, framed, hfit, -⟩ := planEncode_eq_ok_iff.1 plan
  obtain ⟨hlen, cp, hcp, hle, rfl⟩ := framePayload_legal framed
  obtain ⟨t', ht', fields, bitbuf⟩ := exec_encode_success hlen hcp hle hfit
  cases h.symm.trans ht'
  have cfg : t.cfg = s.cfg := by rw [fields]; rfl
  have raster : t.raster = s.raster := by rw [fields]; rfl
  have capacity : rasterCapacity t = rasterCapacity s := by rw [fields]; rfl
  have bitLen : t.bitLen.toNat = 32 + 8 * s.payLen.toNat := by rw [fields]; exact frameLen_toNat s.payLen
  have bytes : Holds t.bitbuf (4 + s.payLen.toNat) (frameByte s.payLen cp) := fun a ha => by rw [bitbuf, if_pos ha]
  have bits : getbits t.bitbuf 0 t.bitLen.toNat =
      .ok (frame s.payLen ((List.range s.payLen.toNat).map fun j => (cp j).setWidth 8)) := by
    rw [getbits_range _ _ _ _ 0 bytes (by omega), frame_eq_frameBits, bitLen]
    simp only [Nat.zero_add, packedBit_frameByte]
  rw [planEmbed_of_getbits (by rw [bitLen, cfg]; omega) bits, planEncodeEmbed_of_framePayload framed, cfg, raster,
    capacity, bitLen]

/-- Settles O35: an ENCODE that fails has failed in framing the payload, as ENCODE_EMBED does; after one that succeeds,
the plan of EMBED is ENCODE_EMBED's, and ENCODE wrote nothing that the two write. -/
theorem encodeEmbedIsEncodeThenEmbed : Obligations.EncodeEmbedIsEncodeThenEmbed := by
  intro s t hsize h
  refine ⟨fun herr => ?failure, fun hd u hu => ?success⟩
  case failure =>
    rcases exec_next h with ⟨c, -, rfl⟩ | ⟨e, plan, rfl⟩
    · cases herr
    · exact exec_of_plan_raise (i := .encodeEmbed)
        (planEncodeEmbed_of_framePayload_error (framePayload_of_planEncode_error hsize plan))
  case success =>
    have embeds : complete t (planEncodeEmbed s) = .next u :=
      (exec_of_plan (i := .embed) (planEmbed_after_encode h hd)).symm.trans hu
    obtain ⟨-, ovr, -, -, -, -, -, -, -, raster, -, payload⟩ := commandFrame .encode s t h
    obtain ⟨payload, payLen⟩ := payload (by decide) (by decide)
    obtain ⟨v, hv, same⟩ :=
      complete_sameResult ovr.symm (raster (by decide) (by decide)).symm payload.symm payLen.symm embeds
    obtain ⟨-, -, -, -, -, -, -, -, -, -, bitbuf, -⟩ := commandFrame .encodeEmbed s v hv
    obtain ⟨bitbuf, bitLen⟩ := bitbuf (by decide) (by decide)
    exact ⟨v, hv, same.raster, same.done, same.err, same.errCode, same.errInfo, same.busy, same.ovr, bitbuf, bitLen⟩

/-! ## EXTRACT_DECODE against EXTRACT followed by DECODE (rule R162(b)) -/

/-- A command that completes found its operands written (rule R80). -/
theorem operandsWritten_of_exec {i : Instr} {s t : State} (h : exec i s = .next t) : OperandsWritten i s := by
  by_contra hw
  obtain ⟨sp, a, hfault, -⟩ := (commandCompletesIffOperandsWritten i s).2 hw
  cases h.symm.trans hfault

/-- The channels that EXTRACT and EXTRACT_DECODE read, where they are written. -/
theorem exists_channels_of_written {s : State} (h : OperandsWritten .extract s) :
    ∃ c, rasterCapacity s ≤ s.cfg.rasterBytes → Holds s.raster (extractReads (rasterCapacity s) c) c := by
  by_cases hraster : rasterCapacity s ≤ s.cfg.rasterBytes
  · obtain ⟨c, hc⟩ := h hraster
    exact ⟨c, fun _ => hc⟩
  · exact ⟨default, fun hle => absurd hle hraster⟩

/-- The error of EXTRACT_DECODE for an error of EXTRACT: PAYLOAD is too small where BITBUF is. -/
def compositeError : CmdError → CmdError
  | .bounds .bitbuf => .bounds .payload
  | e => e

theorem errorCode_compositeError (e : CmdError) : errorCode (compositeError e) = errorCode e := by
  unfold compositeError
  split <;> rfl

theorem errorInfo_compositeError (e : CmdError) :
    errorInfo (compositeError e) = if errorCode e = 5#4 ∧ errorInfo e = 2#32 then 1#32 else errorInfo e := by
  cases e with
  | bounds sp => cases sp <;> rfl
  | _ => rfl

/-- Where EXTRACT fails in a check, EXTRACT_DECODE fails in the same check of its own. -/
theorem extractDecodeError_of_extractError {s : State} {len : Nat} {e : CmdError}
    (hsize : 4 + s.cfg.payDepth ≤ s.cfg.bitbufBytes) (h : extractError s len = some e) :
    extractDecodeError s len = some (compositeError e) := by
  unfold extractError at h
  unfold extractDecodeError
  split_ifs at h
  next hlarge => cases h; rw [if_pos hlarge]; rfl
  next hraster hshort => cases h; rw [if_neg hraster, if_pos hshort]; rfl
  next hraster h32 hpayload => cases h; rw [if_neg hraster, if_neg h32, if_pos hpayload]; rfl
  next hraster h32 hframe hsmall =>
    cases h
    rw [if_neg hraster, if_neg h32, if_neg hframe, if_pos (by omega)]
    rfl

theorem extractError_eq_none_iff {s : State} {len : Nat} :
    extractError s len = none ↔ rasterCapacity s ≤ s.cfg.rasterBytes ∧ 32 + 8 * len ≤ rasterCapacity s ∧
      4 + len ≤ s.cfg.bitbufBytes := by
  unfold extractError
  split_ifs <;> simp <;> omega

/-- The length that the extracted bytes declare. -/
theorem bytePrefix_extractedByte (c : Nat → Byte) : bytePrefix (extractedByte c) = lsbPrefix c := by
  simp only [← bytePrefix_eq, packedBit_extractedByte]
  exact be32_lsbBits c 32 le_rfl

/-- An extracted payload byte, as the word that EXTRACT_DECODE writes. -/
theorem setWidth_extractedByte (c : Nat → Byte) (i : Nat) :
    (extractedByte c (4 + i)).setWidth 32 = BitVec.ofNat 32 (lsbByte c (32 + 8 * i)) := by
  have := lsbByte_lt c (32 + 8 * i)
  apply BitVec.eq_of_toNat_eq
  simp only [extractedByte, show 8 * (4 + i) = 32 + 8 * i by omega, BitVec.toNat_setWidth, BitVec.toNat_ofNat]
  omega

/-- After a success of EXTRACT, DECODE reads the bits that EXTRACT_DECODE would stream: the two plans are the same. -/
theorem planDecode_after_extract {s t : State} {c : Nat → Byte}
    (hc : rasterCapacity s ≤ s.cfg.rasterBytes → Holds s.raster (extractReads (rasterCapacity s) c) c)
    (h : extractError s (lsbPrefix c) = none) (ht : exec .extract s = .next t) :
    planDecode t = planExtractDecode s := by
  obtain ⟨hraster, hframe, hfit⟩ := extractError_eq_none_iff.1 h
  obtain ⟨-, extracted⟩ := extractOutcome s c (rasterCapacity s) rfl
  obtain ⟨-, prefixed⟩ := extracted hraster (hc hraster)
  obtain ⟨-, framed⟩ := prefixed (by omega)
  obtain ⟨-, success⟩ := framed hframe
  obtain ⟨t', ht', fields, bitLen, bitbuf⟩ := success hfit
  cases ht.symm.trans ht'
  have declared := bytePrefix_extractedByte c
  rw [← declared] at bitLen bitbuf hfit
  have bytes : Holds t.bitbuf (4 + bytePrefix (extractedByte c)) (extractedByte c) := fun a ha => by
    rw [bitbuf, if_pos ha, extractedByte]
  have cfg : t.cfg = s.cfg := by rw [fields]; rfl
  have hbits : t.bitLen.toNat ≤ 8 * t.cfg.bitbufBytes := by rw [bitLen, cfg]; omega
  rw [planExtractDecode_eq hc, extractDecodeError, if_neg (by omega), if_neg (by omega), if_neg (by omega)]
  by_cases hpay : s.cfg.payDepth < lsbPrefix c
  · rw [if_pos hpay, planDecode_of_prefix hbits (by omega) (bytes.mono (by omega)), if_neg (by omega),
      if_pos (by rwa [declared, cfg]), Option.elim_some]
  · rw [if_neg hpay, planDecode_success hbits (by omega) (by rw [declared, cfg]; omega) bytes, declared,
      Option.elim_none, extractDecodeCommit]
    simp only [setWidth_extractedByte]

/-- Settles O36: an EXTRACT that fails has failed in a check that EXTRACT_DECODE has too; after one that succeeds, the
plan of DECODE is EXTRACT_DECODE's, and EXTRACT wrote nothing that the two write. -/
theorem extractDecodeIsExtractThenDecode : Obligations.ExtractDecodeIsExtractThenDecode := by
  intro s t hsize h
  have written : OperandsWritten .extract s := operandsWritten_of_exec h
  obtain ⟨c, hc⟩ := exists_channels_of_written written
  cases herror : extractError s (lsbPrefix c) with
  | some e =>
    cases h.symm.trans (exec_extract_of_error hc herror)
    refine ⟨fun _ => ?_, nofun⟩
    exact ⟨_, exec_extractDecode_of_error hc (extractDecodeError_of_extractError hsize herror), rfl, rfl,
      errorCode_compositeError e, errorInfo_compositeError e, rfl, rfl, rfl, rfl⟩
  | none =>
    have plan := planDecode_after_extract hc herror h
    obtain ⟨v, hv⟩ := (commandCompletesIffOperandsWritten .extractDecode s).1 written
    obtain ⟨-, -, -, -, -, -, -, -, -, -, bitbuf, -⟩ := commandFrame .extractDecode s v hv
    obtain ⟨bitbuf, bitLen⟩ := bitbuf (by decide) (by decide)
    obtain ⟨-, ovr, -, -, -, -, -, -, -, raster, -, payload⟩ := commandFrame .extract s t h
    obtain ⟨payload, payLen⟩ := payload (by decide) (by decide)
    obtain ⟨u, hu, same⟩ := complete_sameResult ovr (raster (by decide) (by decide)) payload payLen
      ((exec_eq_complete .extractDecode s).symm.trans hv)
    refine ⟨fun herr => ?_, fun _ => ⟨u, v, (exec_of_plan (i := .decode) plan).trans hu, hv, same.done.symm,
      same.err.symm, same.errCode.symm, same.errInfo.symm, same.payload.symm, same.payLen.symm, bitbuf, bitLen⟩⟩
    cases h.symm.trans (exec_extract_of_no_error hc herror)
    cases herr

end Sys2Proof.Machine
end

section
/-! PROOFS. Scope: the record of a completion (rules R181, R191 to R193) and the interrupt level that STATUS and CTRL
drive (rule R195). -/

namespace Sys2Proof.Machine

/-! ## The record of a completion -/

/-- A command that ends with ERR recorded the error its plan raised (rule R192). -/
theorem exec_next_err {i : Instr} {s t : State} (h : exec i s = .next t) (he : t.err = true) :
    ∃ e, planOf i s = .error (.raise e) ∧ t = recordError e s := by
  rcases exec_next h with ⟨c, -, rfl⟩ | failure
  · cases he
  · exact failure

/-- Settles O26: a completion with ERR is the error record of what the plan raised, and no plan raises ILLEGAL. -/
theorem failedCommandWritesOnlyTheRecord : Obligations.FailedCommandWritesOnlyTheRecord := by
  intro i s t h he
  obtain ⟨e, plan, rfl⟩ := exec_next_err h he
  exact ⟨rfl, planOf_error_code plan⟩

/-- Settles O27: a completion is the success record, with DONE and no code, or an error record, with ERR. -/
theorem completionRecordsOneOutcome : Obligations.CompletionRecordsOneOutcome := by
  intro i s t h
  rcases exec_next h with ⟨c, -, rfl⟩ | ⟨e, -, rfl⟩
  · exact ⟨rfl, rfl, fun _ => ⟨rfl, rfl⟩⟩
  · exact ⟨rfl, rfl, nofun⟩

/-! ## The interrupt level (rule R195) -/

section
variable {s : State}

theorem irq_eq_true_iff : irq s = true ↔ s.irqEn = true ∧ (s.done = true ∨ s.err = true) := by
  rw [irq, Bool.and_eq_true, Bool.or_eq_true]

/-- While an outcome stands in STATUS, irq is IRQ_EN. -/
theorem irq_of_outcome (h : (s.done || s.err) = true) : irq s = s.irqEn := by
  rw [irq, h, Bool.and_true]

/-- With no outcome in STATUS, irq is withdrawn, whatever IRQ_EN. -/
theorem irq_of_no_outcome (hdone : s.done = false) (herr : s.err = false) : irq s = false := by
  rw [irq, hdone, herr, Bool.or_self, Bool.and_false]

end

/-- Every completion leaves irq at IRQ_EN: it sets DONE or ERR, and no command writes CTRL. -/
theorem irq_of_exec_next {i : Instr} {s t : State} (h : exec i s = .next t) : irq t = s.irqEn := by
  obtain ⟨-, err, -⟩ := completionRecordsOneOutcome i s t h
  obtain ⟨-, -, irqEn, -⟩ := commandFrame i s t h
  have outcome : (t.done || t.err) = true := by rw [err, Bool.or_not_self]
  exact (irq_of_outcome outcome).trans irqEn

/-- Settles O43: a completion and an ILLEGAL launch leave an outcome in STATUS, a legal launch and a clear of both flags
leave none, and OVR is no part of the level. -/
theorem irqLevel : Obligations.IrqLevel := by
  intro s
  refine ⟨irq_eq_true_iff, fun i t h => irq_of_exec_next h, fun v hb hv => ?illegal, fun v hb hv => ?launch, ?clear,
    rfl⟩
  case illegal =>
    rw [regWrite_cmd, cmdWrite_of_illegal hb hv]
    exact irq_of_outcome (s := afterError 6#4 0#32 s) (Bool.or_true _)
  case launch =>
    rw [regWrite_cmd, cmdWrite_of_legal hb hv]
    exact irq_of_no_outcome rfl rfl
  case clear => exact irq_of_no_outcome (Bool.and_false s.done) (Bool.and_false s.err)

end Sys2Proof.Machine
end

section
/-! PROOFS. Scope: what a command does not see (rules R219, R220), and the reset of the registers (rules R210, R212). -/

namespace Sys2Proof.Machine

/-! ## A change of state that a command does not see (rules R219, R220) -/

/-- An update that leaves a command's plan as it is, and that the record and the commit do not touch, is in the result
as it was in the operands. -/
theorem exec_next_of_unseen_update {i : Instr} {s t : State} (update : State → State)
    (plan : planOf i (update s) = planOf i s)
    (success : ∀ c, planOf i s = .ok c →
      recordSuccess (applyCommit c (update s)) = update (recordSuccess (applyCommit c s)))
    (failure : ∀ e, recordError e (update s) = update (recordError e s)) (h : exec i s = .next t) :
    exec i (update s) = .next (update t) := by
  rw [exec_eq_complete, plan]
  rcases exec_next h with ⟨c, hc, rfl⟩ | ⟨e, he, rfl⟩
  · rw [hc, complete_ok, success c hc]
  · rw [he, complete_raise, failure e]

/-- Settles O31: the plans of the two commands read neither BITBUF nor BIT_LEN, and their commits write neither. -/
theorem callSitesIgnoreBitbuf : Obligations.CallSitesIgnoreBitbuf := by
  intro i s t m n hi h
  refine exec_next_of_unseen_update (fun u => { u with bitbuf := m, bitLen := n }) ?_ (fun c plan => ?_)
    (fun _ => rfl) h
  · rcases hi with rfl | rfl <;> rfl
  · obtain ⟨-, outside, -⟩ := planOf_ok plan
    obtain ⟨bitbuf, bitLen⟩ := outside (by rcases hi with rfl | rfl <;> decide) (by rcases hi with rfl | rfl <;> decide)
    simp [recordSuccess, applyCommit, bitbuf, bitLen]

/-- The scan sees the geometry through its product alone (rules R64, R130). -/
theorem extractSequence_of_same_product {s : State} {w h : Word}
    (product : w.toNat * h.toNat = s.width.toNat * s.height.toNat) :
    extractSequence { s with width := w, height := h } = extractSequence s := by
  have capacity : rasterCapacity { s with width := w, height := h } = rasterCapacity s :=
    congrArg (· * chansPerPixel) product
  rw [extractSequence, extractSequence, capacity]

/-- Settles O32: the plans of the two commands see the geometry through the scan alone. -/
theorem sameProductSameExtraction : Obligations.SameProductSameExtraction := by
  intro i s t w h hi product hx
  refine exec_next_of_unseen_update (fun u => { u with width := w, height := h }) ?_ (fun _ _ => rfl) (fun _ => rfl) hx
  have scan := extractSequence_of_same_product product
  rcases hi with rfl | rfl
  · simp only [planOf, planExtract, scan]
  · simp only [planOf, planExtractDecode, scan]

/-! ## Reset of the registers (rules R210, R212) -/

/-- After a reset every register is as at power-on (rule R41). -/
theorem resetMachine_eq_powerOn (s : State) :
    resetMachine s =
      { State.powerOn s.cfg with
        raster := (resetMachine s).raster, bitbuf := (resetMachine s).bitbuf, payload := (resetMachine s).payload
        host := s.host, turns := s.turns, replies := s.replies } := by
  unfold resetMachine resetMemories
  split
  · split <;> rfl
  · rfl

/-- Settles O44: every register is as at power-on, so it reads 0 and BUSY = 0. -/
theorem resetClearsRegisters : Obligations.ResetClearsRegisters := by
  intro s
  have registers := resetMachine_eq_powerOn s
  refine ⟨registers, ?_, fun off => ?_, engineTurn_of_idle ?_⟩
  · rw [registers]; rfl
  · rw [registers]; exact regRead_powerOn s.cfg off
  · rw [registers]; rfl

/-- Settles O45: an idle machine has no abandoned command. -/
theorem idleResetKeepsMemories : Obligations.IdleResetKeepsMemories := by
  intro s hb
  have memories : resetMemories s = s := by simp [resetMemories, hb]
  rw [resetMachine, memories]
  exact ⟨rfl, rfl, rfl⟩

end Sys2Proof.Machine
end

section
/-! PROOFS. Scope: a reset while BUSY = 1 (rule R213): a defined result is the same whatever the undefined cells hold
(rule R80), how many cells each command writes (rule R72), and the write set as the most that the command could write
(log entries 8 and 9). -/

namespace Sys2Proof.Machine

/-! ## Contents of the undefined cells (rule R80) -/

/-- The undefined cells may be left as they are. -/
theorem Extends.refl (s : State) : Extends s s := ⟨rfl, fun _ _ h => h, fun _ _ h => h, fun _ _ h => h⟩

section
variable {s : State} {m : Memory}

theorem Extends.of_raster (h : ∀ a v, Memory.read s.raster a = some v → Memory.read m a = some v) :
    Extends s { s with raster := m } := ⟨rfl, h, fun _ _ h => h, fun _ _ h => h⟩

theorem Extends.of_bitbuf (h : ∀ a v, Memory.read s.bitbuf a = some v → Memory.read m a = some v) :
    Extends s { s with bitbuf := m } := ⟨rfl, fun _ _ h => h, h, fun _ _ h => h⟩

theorem Extends.of_payload (h : ∀ a v, Memory.read s.payload a = some v → Memory.read m a = some v) :
    Extends s { s with payload := m } := ⟨rfl, fun _ _ h => h, fun _ _ h => h, h⟩

end

/-! ## A defined result is the same under every such contents -/

/-- r' is r, or r is not defined (rule R80). -/
inductive DefinedAs {α : Type} (r r' : Eval α) : Prop
  | same (h : r' = r)
  | fault (f : Fault) (h : r = .error (.fault f))

/-- Reads q that go on from reads r and end where these end. -/
theorem DefinedAs.andThen {α β : Type} {r r' : Eval α} {q q' : Eval β} (h : DefinedAs r r')
    (herr : ∀ e, r = .error e → q = .error e) (herr' : ∀ e, r' = .error e → q' = .error e)
    (hok : ∀ a, r = .ok a → r' = .ok a → DefinedAs q q') : DefinedAs q q' := by
  cases h with
  | fault f h => exact .fault f (herr _ h)
  | same h =>
    cases hr : r with
    | error e => exact .same ((herr' e (h.trans hr)).trans (herr e hr).symm)
    | ok a => exact hok a hr (h.trans hr)

section
variable {m m' : Memory} (he : ∀ a v, Memory.read m a = some v → Memory.read m' a = some v)
include he

theorem Memory.readWord_of_extends {i : Nat} {w : Word} (h : Memory.readWord m i = some w) :
    Memory.readWord m' i = some w := by
  obtain ⟨h0, h1, h2, h3⟩ := (Memory.readWord_eq_some m i w).1 h
  exact (Memory.readWord_eq_some m' i w).2 ⟨he _ _ h0, he _ _ h1, he _ _ h2, he _ _ h3⟩

theorem readCell_definedAs (sp : Space) (a : Nat) : DefinedAs (readCell sp m a) (readCell sp m' a) := by
  cases h : Memory.read m a with
  | none => exact .fault _ (readCell_of_none h)
  | some v => exact .same ((readCell_of_read (he a v h)).trans (readCell_of_read h).symm)

theorem readWordCell_definedAs (i : Nat) : DefinedAs (readWordCell m i) (readWordCell m' i) := by
  cases h : Memory.readWord m i with
  | none => exact .fault _ (readWordCell_of_none h)
  | some w =>
    exact .same ((readWordCell_of_read (Memory.readWord_of_extends he h)).trans (readWordCell_of_read h).symm)

theorem readCodePoints_definedAs (i n : Nat) : DefinedAs (readCodePoints m i n) (readCodePoints m' i n) := by
  induction n generalizing i with
  | zero => exact .same rfl
  | succ n ih =>
    refine (readWordCell_definedAs he i).andThen (fun e h => by simp [readCodePoints, h])
      (fun e h => by simp [readCodePoints, h]) fun cp hr hr' => ?_
    simp only [readCodePoints, hr, hr']
    split
    · exact .same rfl
    · exact (ih (i + 1)).andThen (fun e h => by simp [h]) (fun e h => by simp [h]) fun cps h h' => by
        simp only [h, h']; exact .same rfl

theorem getbit_definedAs (k : Nat) : DefinedAs (getbit m k) (getbit m' k) :=
  (readCell_definedAs he .bitbuf (k / 8)).andThen (fun e h => by simp [getbit, h]) (fun e h => by simp [getbit, h])
    fun v h h' => .same (by simp [getbit, h, h'])

theorem getbits_definedAs (k n : Nat) : DefinedAs (getbits m k n) (getbits m' k n) := by
  induction n generalizing k with
  | zero => exact .same rfl
  | succ n ih =>
    refine (getbit_definedAs he k).andThen (fun e h => by simp [getbits, h]) (fun e h => by simp [getbits, h])
      fun b hr hr' => ?_
    exact (ih (k + 1)).andThen (fun e h => by simp [getbits, hr, h]) (fun e h => by simp [getbits, hr', h])
      fun bs h h' => .same (by simp [getbits, hr, hr', h, h'])

theorem embedRun_definedAs (k : Nat) (bits : List Bool) : DefinedAs (embedRun m k bits) (embedRun m' k bits) := by
  induction bits generalizing k with
  | nil => exact .same rfl
  | cons b bs ih =>
    refine (readCell_definedAs he .raster k).andThen (fun e h => by simp [embedRun, h])
      (fun e h => by simp [embedRun, h]) fun v hr hr' => ?_
    exact (ih (k + 1)).andThen (fun e h => by simp [embedRun, hr, h]) (fun e h => by simp [embedRun, hr', h])
      fun vs h h' => .same (by simp [embedRun, hr, hr', h, h'])

theorem scanFrom_definedAs (k : Nat) (sc : Scan) (n : Nat) :
    DefinedAs (scanFrom m k sc n) (scanFrom m' k sc n) := by
  induction n generalizing k sc with
  | zero => exact .same rfl
  | succ n ih =>
    unfold scanFrom
    split
    · exact .same rfl
    · exact (readCell_definedAs he .raster k).andThen (fun e h => by simp [h]) (fun e h => by simp [h])
        fun v h h' => by simp only [h, h']; exact ih _ _

end

section
variable {s s' : State} (hs : Extends s s')
include hs

theorem Extends.raster (a : Nat) (v : Byte) (h : Memory.read s.raster a = some v) :
    Memory.read s'.raster a = some v := hs.2.1 a v h
theorem Extends.bitbuf (a : Nat) (v : Byte) (h : Memory.read s.bitbuf a = some v) :
    Memory.read s'.bitbuf a = some v := hs.2.2.1 a v h
theorem Extends.payload (a : Nat) (v : Byte) (h : Memory.read s.payload a = some v) :
    Memory.read s'.payload a = some v := hs.2.2.2 a v h
theorem Extends.cfg : s'.cfg = s.cfg := by rw [hs.1]
theorem Extends.payLen : s'.payLen = s.payLen := by rw [hs.1]
theorem Extends.bitLen : s'.bitLen = s.bitLen := by rw [hs.1]
theorem Extends.rasterCapacity : rasterCapacity s' = rasterCapacity s := by rw [hs.1]; rfl

theorem framePayload_definedAs : DefinedAs (framePayload s) (framePayload s') := by
  rw [framePayload, framePayload, hs.cfg, hs.payLen]
  split
  · exact .same rfl
  · exact readCodePoints_definedAs hs.payload 0 _

theorem extractSequence_definedAs : DefinedAs (extractSequence s) (extractSequence s') := by
  rw [extractSequence, extractSequence, hs.cfg, hs.rasterCapacity]
  split
  · exact .same rfl
  · exact scanFrom_definedAs hs.raster 0 _ _

theorem planEncode_definedAs : DefinedAs (planEncode s) (planEncode s') :=
  (framePayload_definedAs hs).andThen (fun e h => by simp [planEncode, h]) (fun e h => by simp [planEncode, h])
    fun cps h h' => .same (by simp only [planEncode, h, h', hs.cfg, hs.payLen])

theorem planDecode_definedAs : DefinedAs (planDecode s) (planDecode s') := by
  simp only [planDecode, hs.cfg, hs.bitLen]
  split
  · exact .same rfl
  split
  · exact .same rfl
  refine (getbits_definedAs hs.bitbuf 0 lenBits).andThen (fun e h => by simp [h]) (fun e h => by simp [h])
    fun prefixBits h h' => ?_
  simp only [h, h']
  split
  · exact .same rfl
  split
  · exact .same rfl
  exact (getbits_definedAs hs.bitbuf lenBits (cpBits * be32 prefixBits 0)).andThen (fun e h => by simp [h])
    (fun e h => by simp [h]) fun payloadBits h h' => .same (by simp [h, h'])

theorem planEmbed_definedAs : DefinedAs (planEmbed s) (planEmbed s') := by
  simp only [planEmbed, hs.cfg, hs.bitLen, hs.rasterCapacity]
  split
  · exact .same rfl
  split
  · exact .same rfl
  split
  · exact .same rfl
  refine (getbits_definedAs hs.bitbuf 0 s.bitLen.toNat).andThen (fun e h => by simp [h]) (fun e h => by simp [h])
    fun bits h h' => ?_
  simp only [h, h']
  exact (embedRun_definedAs hs.raster 0 bits).andThen (fun e h => by simp [h]) (fun e h => by simp [h])
    fun channels h h' => .same (by simp [h, h'])

theorem planExtract_definedAs : DefinedAs (planExtract s) (planExtract s') :=
  (extractSequence_definedAs hs).andThen (fun e h => by simp [planExtract, h]) (fun e h => by simp [planExtract, h])
    fun bits h h' => .same (by simp only [planExtract, h, h', hs.cfg])

theorem planEncodeEmbed_definedAs : DefinedAs (planEncodeEmbed s) (planEncodeEmbed s') := by
  refine (framePayload_definedAs hs).andThen (fun e h => by simp [planEncodeEmbed, h])
    (fun e h => by simp [planEncodeEmbed, h]) fun cps h h' => ?_
  simp only [planEncodeEmbed, h, h', hs.cfg, hs.payLen, hs.rasterCapacity]
  split
  · exact .same rfl
  split
  · exact .same rfl
  exact (embedRun_definedAs hs.raster 0 (frame s.payLen cps)).andThen (fun e h => by simp [h]) (fun e h => by simp [h])
    fun channels h h' => .same (by simp [h, h'])

theorem planExtractDecode_definedAs : DefinedAs (planExtractDecode s) (planExtractDecode s') :=
  (extractSequence_definedAs hs).andThen (fun e h => by simp [planExtractDecode, h])
    (fun e h => by simp [planExtractDecode, h]) fun bits h h' => .same (by simp only [planExtractDecode, h, h', hs.cfg])

/-- A command whose result is defined ends alike whatever the undefined cells hold. -/
theorem planOf_definedAs (i : Instr) : DefinedAs (planOf i s) (planOf i s') := by
  cases i with
  | encode => exact planEncode_definedAs hs
  | decode => exact planDecode_definedAs hs
  | embed => exact planEmbed_definedAs hs
  | extract => exact planExtract_definedAs hs
  | encodeEmbed => exact planEncodeEmbed_definedAs hs
  | extractDecode => exact planExtractDecode_definedAs hs

end

/-! ## How many cells a command writes (rule R72) -/

/-- The BITBUF bytes that a success of the command leaves in t, by the length register it writes. -/
def storedBytes (i : Instr) (t : State) : Nat :=
  match i with
  | .encode | .extract => t.bitLen.toNat / 8
  | _ => 0

/-- The PAYLOAD words that a success of the command leaves in t, by the length register it writes. -/
def storedWords (i : Instr) (t : State) : Nat :=
  match i with
  | .decode | .extractDecode => t.payLen.toNat
  | _ => 0

theorem storedBytes_le (i : Instr) (t : State) : storedBytes i t ≤ t.bitLen.toNat / 8 := by
  unfold storedBytes
  split
  · exact le_rfl
  · exact le_rfl
  · exact Nat.zero_le _

theorem storedWords_le (i : Instr) (t : State) : storedWords i t ≤ t.payLen.toNat := by
  unfold storedWords
  split
  · exact le_rfl
  · exact le_rfl
  · exact Nat.zero_le _

/-- The command could write nb bytes of BITBUF and np words of PAYLOAD, with some contents of the undefined cells. -/
def CouldWrite (i : Instr) (s : State) (nb np : Nat) : Prop :=
  ∃ s' c, Extends s s' ∧ planOf i s' = .ok c ∧ c.bitbuf.length = nb ∧ c.payload.length = np

/-- A command that commits found its operands written (rule R80). -/
theorem operandsWritten_of_plan {i : Instr} {s : State} {c : Commit} (h : planOf i s = .ok c) :
    OperandsWritten i s := operandsWritten_of_exec (exec_of_plan h)

/-- EXTRACT commits when the channels it reads pass every check, and then the LSBs of their frame. -/
theorem channels_of_planExtract {s : State} {c : Commit} (h : planExtract s = .ok c) :
    ∃ ch, (rasterCapacity s ≤ s.cfg.rasterBytes → Holds s.raster (extractReads (rasterCapacity s) ch) ch) ∧
      extractError s (lsbPrefix ch) = none ∧ c = extractCommit ch := by
  obtain ⟨ch, hch⟩ := exists_channels_of_written (operandsWritten_of_plan (i := .extract) h)
  rw [planExtract_eq hch] at h
  cases herror : extractError s (lsbPrefix ch) with
  | some e => rw [herror] at h; cases h
  | none => rw [herror] at h; cases h; exact ⟨ch, hch, herror, rfl⟩

/-- EXTRACT_DECODE commits when the channels it reads pass every check, and then the characters of their frame. -/
theorem channels_of_planExtractDecode {s : State} {c : Commit} (h : planExtractDecode s = .ok c) :
    ∃ ch, (rasterCapacity s ≤ s.cfg.rasterBytes → Holds s.raster (extractReads (rasterCapacity s) ch) ch) ∧
      extractDecodeError s (lsbPrefix ch) = none ∧ c = extractDecodeCommit ch := by
  obtain ⟨ch, hch⟩ := exists_channels_of_written (operandsWritten_of_plan (i := .extractDecode) h)
  rw [planExtractDecode_eq hch] at h
  cases herror : extractDecodeError s (lsbPrefix ch) with
  | some e => rw [herror] at h; cases h
  | none => rw [herror] at h; cases h; exact ⟨ch, hch, herror, rfl⟩

theorem extractCommit_length (ch : Nat → Byte) : (extractCommit ch).bitbuf.length = 4 + lsbPrefix ch := by
  rw [extractCommit, List.length_map, List.length_range]

theorem extractDecodeCommit_length (ch : Nat → Byte) : (extractDecodeCommit ch).payload.length = lsbPrefix ch := by
  rw [extractDecodeCommit, List.length_map, List.length_range]

theorem extractDecodeError_eq_none_iff {s : State} {len : Nat} :
    extractDecodeError s len = none ↔ rasterCapacity s ≤ s.cfg.rasterBytes ∧ 32 + 8 * len ≤ rasterCapacity s ∧
      len ≤ s.cfg.payDepth := by
  unfold extractDecodeError
  split_ifs <;> simp <;> omega

/-- DECODE commits when the length that its first four bytes declare passes every check, and then that many words. -/
theorem bytes_of_planDecode {s : State} {c : Commit} (h : planDecode s = .ok c) :
    ∃ b, Holds s.bitbuf 4 b ∧ s.bitLen.toNat ≤ 8 * s.cfg.bitbufBytes ∧ 32 + 8 * bytePrefix b ≤ s.bitLen.toNat ∧
      bytePrefix b ≤ s.cfg.payDepth ∧ c.payload.length = bytePrefix b := by
  have hbits : s.bitLen.toNat ≤ 8 * s.cfg.bitbufBytes := by
    by_contra hlong
    cases h.symm.trans (planDecode_too_long (Nat.not_le.1 hlong))
  have h32 : 32 ≤ s.bitLen.toNat := by
    by_contra hshort
    cases h.symm.trans (planDecode_no_prefix hbits (Nat.not_le.1 hshort))
  obtain ⟨b, hb⟩ := (operandsWritten_of_plan (i := .decode) h h32 hbits).1.exists_holds
  rw [planDecode_of_prefix hbits h32 hb] at h
  split_ifs at h with hframe hpay
  cases hread : getbits s.bitbuf 32 (8 * bytePrefix b) with
  | error e => rw [hread] at h; cases h
  | ok bits =>
    rw [hread] at h
    cases h
    exact ⟨b, hb, hbits, Nat.not_lt.1 hframe, Nat.not_lt.1 hpay, by simp⟩

/-- The length registers of a success say how many cells it wrote. -/
theorem commit_lengths {i : Instr} {s : State} {c : Commit} (h : planOf i s = .ok c) :
    c.bitbuf.length = storedBytes i (recordSuccess (applyCommit c s)) ∧
      c.payload.length = storedWords i (recordSuccess (applyCommit c s)) := by
  obtain ⟨-, bitbuf, payload⟩ := planOf_ok h
  cases i with
  | encode =>
    obtain ⟨cps, framed, -, rfl⟩ := planEncode_eq_ok_iff.1 h
    obtain ⟨-, length⟩ := framePayload_ok framed
    refine ⟨?_, rfl⟩
    simp only [storedBytes, recordSuccess_bitLen, applyCommit_bitLen, Option.getD_some, frameLen_toNat,
      frameBytes_length, length]
    omega
  | decode =>
    obtain ⟨n, payLen, length⟩ := planDecode_outputs h
    obtain ⟨bitbuf, -⟩ := bitbuf (by decide) (by decide)
    simp [storedBytes, storedWords, bitbuf, payLen, length]
  | extract =>
    obtain ⟨ch, -, -, rfl⟩ := channels_of_planExtract h
    refine ⟨?_, rfl⟩
    have := lsbPrefix_lt ch
    rw [extractCommit_length]
    simp only [storedBytes, recordSuccess_bitLen, applyCommit_bitLen, extractCommit, Option.getD_some,
      BitVec.toNat_ofNat]
    omega
  | extractDecode =>
    obtain ⟨ch, -, -, rfl⟩ := channels_of_planExtractDecode h
    refine ⟨rfl, ?_⟩
    have := lsbPrefix_lt ch
    rw [extractDecodeCommit_length]
    simp only [storedWords, recordSuccess_payLen, applyCommit_payLen, extractDecodeCommit, Option.getD_some,
      BitVec.toNat_ofNat]
    omega
  | embed | encodeEmbed =>
    obtain ⟨bitbuf, -⟩ := bitbuf (by decide) (by decide)
    obtain ⟨payload, -⟩ := payload (by decide) (by decide)
    simp [storedBytes, storedWords, bitbuf, payload]

/-! ## The write set is what the command could write (log entries 8 and 9) -/

/-- The write set has the longest runs that the command could write, or none. -/
structure WriteSetIsExact (i : Instr) (s : State) : Prop where
  covers : ∀ nb np, CouldWrite i s nb np → nb ≤ (writeSet i s).bitbuf ∧ np ≤ (writeSet i s).payload
  reached : ((writeSet i s).bitbuf = 0 ∧ (writeSet i s).payload = 0) ∨
    CouldWrite i s (writeSet i s).bitbuf (writeSet i s).payload

/-- The longest payload is a length of 32 bits within the bound. -/
theorem longestPayload_some {p : Nat → Bool} {bound len : Nat} (h : longestPayload p bound = some len) :
    p len = true ∧ len ≤ bound ∧ len < 2 ^ 32 := by
  obtain ⟨hp, hle, -⟩ := largestUpTo_some h
  exact ⟨hp, by omega, by omega⟩

/-- Channels under some contents of the undefined ones declare a length that is at most the longest payload. -/
theorem le_longestCarried {s s' : State} {ch : Nat → Byte} {words : Nat} (hs : Extends s s')
    (hch : Holds s'.raster (extractReads (rasterCapacity s') ch) ch)
    (hframe : 32 + 8 * lsbPrefix ch ≤ rasterCapacity s') (hwords : lsbPrefix ch ≤ words) :
    ∃ len, longestPayload (mayCarry s.raster) (min words ((rasterCapacity s - 32) / 8)) = some len ∧
      lsbPrefix ch ≤ len := by
  rw [hs.rasterCapacity] at hch hframe
  have reads : 32 ≤ extractReads (rasterCapacity s) ch := by rw [extractReads, if_neg (by omega)]; omega
  exact le_longestPayload (lsbPrefix_lt ch) (by omega) (mayCarry_of_holds hs.raster (hch.mono reads))

/-- Some contents of the undefined channels declare the longest payload. -/
theorem exists_channels_of_longestCarried {s : State} {words len : Nat} (h32 : 32 ≤ rasterCapacity s)
    (h : longestPayload (mayCarry s.raster) (min words ((rasterCapacity s - 32) / 8)) = some len) :
    ∃ m ch, Extends s { s with raster := m } ∧ Holds m (extractReads (rasterCapacity s) ch) ch ∧ lsbPrefix ch = len ∧
      32 + 8 * lsbPrefix ch ≤ rasterCapacity s ∧ lsbPrefix ch ≤ words := by
  obtain ⟨hcarry, hbound, hlen⟩ := longestPayload_some h
  obtain ⟨m, ch, raster, hch, declared⟩ := exists_holds_of_mayCarry (rasterCapacity s) hlen hcarry
  exact ⟨m, ch, .of_raster raster, hch.mono (extractReads_le _ ch), declared, by omega, by omega⟩

section
variable (s : State)

theorem writeSet_encode_eq :
    writeSet .encode s =
      if s.payLen.toNat ≤ s.cfg.payDepth ∧ 4 + s.payLen.toNat ≤ s.cfg.bitbufBytes then
        if mayBeLegal s.payload s.payLen.toNat then { bitbuf := 4 + s.payLen.toNat } else {}
      else {} := rfl

theorem writeSet_decode_eq :
    writeSet .decode s =
      if 32 ≤ s.bitLen.toNat ∧ s.bitLen.toNat ≤ 8 * s.cfg.bitbufBytes then
        { payload := (longestPayload (mayDeclare s.bitbuf) (min s.cfg.payDepth ((s.bitLen.toNat - 32) / 8))).getD 0 }
      else {} := rfl

theorem writeSet_extract_eq :
    writeSet .extract s =
      if 32 ≤ rasterCapacity s ∧ rasterCapacity s ≤ s.cfg.rasterBytes ∧ 4 ≤ s.cfg.bitbufBytes then
        (longestPayload (mayCarry s.raster) (min (s.cfg.bitbufBytes - 4) ((rasterCapacity s - 32) / 8))).elim {}
          fun len => { bitbuf := 4 + len }
      else {} := by
  simp only [writeSet, writeSetExtract, lenBits, cpBits]
  cases longestPayload (mayCarry s.raster) (min (s.cfg.bitbufBytes - 4) ((rasterCapacity s - 32) / 8)) <;> rfl

theorem writeSet_extractDecode_eq :
    writeSet .extractDecode s =
      if 32 ≤ rasterCapacity s ∧ rasterCapacity s ≤ s.cfg.rasterBytes then
        { payload := (longestPayload (mayCarry s.raster) (min s.cfg.payDepth ((rasterCapacity s - 32) / 8))).getD 0 }
      else {} := rfl

end

theorem writeSetEncode_isExact (s : State) : WriteSetIsExact .encode s := by
  constructor
  case covers =>
    rintro nb np ⟨s', c, hs, plan, rfl, rfl⟩
    obtain ⟨cps, framed, hfit, rfl⟩ := planEncode_eq_ok_iff.1 plan
    obtain ⟨hlen, cp, hcp, hle, -⟩ := framePayload_legal framed
    obtain ⟨-, length⟩ := framePayload_ok framed
    rw [hs.payLen] at hcp hle hlen hfit length
    rw [hs.cfg] at hlen hfit
    have ws : writeSet .encode s = { bitbuf := 4 + s.payLen.toNat } := by
      rw [writeSet_encode_eq, if_pos ⟨hlen, hfit⟩, if_pos (mayBeLegal_of_holds hs.payload hcp hle)]
    rw [ws, frameBytes_length, length]
    exact ⟨le_rfl, le_rfl⟩
  case reached =>
    rw [writeSet_encode_eq]
    split
    case isFalse => exact .inl ⟨rfl, rfl⟩
    split
    case isFalse => exact .inl ⟨rfl, rfl⟩
    next hfit hlegal =>
    obtain ⟨hlen, hfit⟩ := hfit
    obtain ⟨m, cp, payload, hcp, hle⟩ := exists_holds_of_mayBeLegal hlegal
    have framed := framePayload_legal_words (s := { s with payload := m }) hlen cp hcp hle
    exact .inr ⟨_, _, .of_payload payload, planEncode_eq_ok_iff.2 ⟨_, framed, hfit, rfl⟩, by simp, rfl⟩

theorem writeSetDecode_isExact (s : State) : WriteSetIsExact .decode s := by
  constructor
  case covers =>
    rintro nb np ⟨s', c, hs, plan, rfl, rfl⟩
    obtain ⟨b, hb, hbits, hframe, hpay, length⟩ := bytes_of_planDecode plan
    rw [hs.bitLen] at hbits hframe
    rw [hs.cfg] at hbits hpay
    obtain ⟨len, longest, hle⟩ := le_longestPayload (bound := min s.cfg.payDepth ((s.bitLen.toNat - 32) / 8))
      (bytePrefix_lt b) (by omega) (mayDeclare_of_holds hs.bitbuf hb)
    obtain ⟨-, unwritten, -⟩ := planOf_ok plan
    obtain ⟨unwritten, -⟩ := unwritten (by decide) (by decide)
    rw [writeSet_decode_eq, if_pos (by omega), longest, unwritten, length]
    exact ⟨le_rfl, hle⟩
  case reached =>
    rw [writeSet_decode_eq]
    split
    case isFalse => exact .inl ⟨rfl, rfl⟩
    next hbits =>
    cases longest : longestPayload (mayDeclare s.bitbuf) (min s.cfg.payDepth ((s.bitLen.toNat - 32) / 8)) with
    | none => exact .inl ⟨rfl, rfl⟩
    | some len =>
      obtain ⟨hdeclare, hbound, hlen⟩ := longestPayload_some longest
      obtain ⟨m, b, bitbuf, hb, rfl⟩ := exists_holds_of_mayDeclare (4 + len) hlen hdeclare
      have plan := planDecode_success (s := { s with bitbuf := m }) hbits.2
        (show 32 + 8 * bytePrefix b ≤ s.bitLen.toNat by omega) (show bytePrefix b ≤ s.cfg.payDepth by omega) hb
      exact .inr ⟨_, _, .of_bitbuf bitbuf, plan, rfl, by simp⟩

theorem writeSetExtract_isExact (s : State) : WriteSetIsExact .extract s := by
  constructor
  case covers =>
    rintro nb np ⟨s', c, hs, plan, rfl, rfl⟩
    obtain ⟨ch, hch, passed, rfl⟩ := channels_of_planExtract plan
    obtain ⟨hraster, hframe, hfit⟩ := extractError_eq_none_iff.1 passed
    rw [hs.cfg] at hfit
    obtain ⟨len, longest, hle⟩ :=
      le_longestCarried (words := s.cfg.bitbufBytes - 4) hs (hch hraster) hframe (by omega)
    rw [hs.rasterCapacity] at hraster hframe
    rw [hs.cfg] at hraster
    rw [writeSet_extract_eq, if_pos (by omega), longest, extractCommit_length]
    exact ⟨Nat.add_le_add_left hle 4, le_rfl⟩
  case reached =>
    rw [writeSet_extract_eq]
    split
    case isFalse => exact .inl ⟨rfl, rfl⟩
    next checks =>
    obtain ⟨h32, hraster, h4⟩ := checks
    cases longest : longestPayload (mayCarry s.raster)
      (min (s.cfg.bitbufBytes - 4) ((rasterCapacity s - 32) / 8)) with
    | none => exact .inl ⟨rfl, rfl⟩
    | some len =>
      obtain ⟨m, ch, hs, hch, declared, hframe, hfit⟩ := exists_channels_of_longestCarried h32 longest
      have passed : extractError { s with raster := m } (lsbPrefix ch) = none :=
        extractError_eq_none_iff.2 ⟨hraster, hframe, show 4 + lsbPrefix ch ≤ s.cfg.bitbufBytes by omega⟩
      have plan := planExtract_eq (s := { s with raster := m }) fun _ => hch
      rw [passed, Option.elim_none] at plan
      exact .inr ⟨_, _, hs, plan, (extractCommit_length ch).trans (congrArg (4 + ·) declared), rfl⟩

theorem writeSetExtractDecode_isExact (s : State) : WriteSetIsExact .extractDecode s := by
  constructor
  case covers =>
    rintro nb np ⟨s', c, hs, plan, rfl, rfl⟩
    obtain ⟨ch, hch, passed, rfl⟩ := channels_of_planExtractDecode plan
    obtain ⟨hraster, hframe, hfit⟩ := extractDecodeError_eq_none_iff.1 passed
    obtain ⟨len, longest, hle⟩ := le_longestCarried hs (hch hraster) hframe hfit
    rw [hs.rasterCapacity] at hraster hframe
    rw [hs.cfg] at hraster longest
    rw [writeSet_extractDecode_eq, if_pos (by omega), longest, extractDecodeCommit_length]
    exact ⟨le_rfl, hle⟩
  case reached =>
    rw [writeSet_extractDecode_eq]
    split
    case isFalse => exact .inl ⟨rfl, rfl⟩
    next checks =>
    obtain ⟨h32, hraster⟩ := checks
    cases longest : longestPayload (mayCarry s.raster) (min s.cfg.payDepth ((rasterCapacity s - 32) / 8)) with
    | none => exact .inl ⟨rfl, rfl⟩
    | some len =>
      obtain ⟨m, ch, hs, hch, declared, hframe, hfit⟩ := exists_channels_of_longestCarried h32 longest
      have passed : extractDecodeError { s with raster := m } (lsbPrefix ch) = none :=
        extractDecodeError_eq_none_iff.2 ⟨hraster, hframe, hfit⟩
      have plan := planExtractDecode_eq (s := { s with raster := m }) fun _ => hch
      rw [passed, Option.elim_none] at plan
      exact .inr ⟨_, _, hs, plan, rfl, (extractDecodeCommit_length ch).trans declared⟩

/-- Every command's write set is exact; the two that own RASTER write neither BITBUF nor PAYLOAD. -/
theorem writeSet_isExact (i : Instr) (s : State) : WriteSetIsExact i s := by
  cases i with
  | encode => exact writeSetEncode_isExact s
  | decode => exact writeSetDecode_isExact s
  | extract => exact writeSetExtract_isExact s
  | extractDecode => exact writeSetExtractDecode_isExact s
  | embed | encodeEmbed =>
    refine ⟨?_, .inl ⟨rfl, rfl⟩⟩
    rintro nb np ⟨s', c, hs, plan, rfl, rfl⟩
    obtain ⟨-, bitbuf, payload⟩ := planOf_ok plan
    obtain ⟨bitbuf, -⟩ := bitbuf (by decide) (by decide)
    obtain ⟨payload, -⟩ := payload (by decide) (by decide)
    rw [bitbuf, payload]
    exact ⟨Nat.zero_le _, Nat.zero_le _⟩

theorem writeSet_raster_eq_zero {i : Instr} (s : State) (h1 : i ≠ .embed) (h2 : i ≠ .encodeEmbed) :
    (writeSet i s).raster = 0 := by
  cases i with
  | embed => exact absurd rfl h1
  | encodeEmbed => exact absurd rfl h2
  | encode | decode | extract | extractDecode =>
    simp only [writeSet, writeSetEncode, writeSetDecode, writeSetExtract, writeSetExtractDecode]
    (repeat' split) <;> rfl

/-! ## The write set against the runs of the command -/

section
variable {i : Instr} {s : State}

/-- A success under some contents of the undefined cells writes what the command could write. -/
theorem couldWrite_of_done {s' t : State} (hs : Extends s s') (h : exec i s' = .next t) (hd : t.done = true) :
    CouldWrite i s (storedBytes i t) (storedWords i t) := by
  obtain ⟨c, plan, rfl⟩ := exec_next_done h hd
  obtain ⟨bytes, words⟩ := commit_lengths plan
  exact ⟨s', c, hs, plan, bytes, words⟩

/-- What the command could write, a success under some contents of the undefined cells writes. -/
theorem done_of_couldWrite {nb np : Nat} (h : CouldWrite i s nb np) :
    ∃ s' t, Extends s s' ∧ exec i s' = .next t ∧ t.done = true ∧ storedBytes i t = nb ∧ storedWords i t = np := by
  obtain ⟨s', c, hs, plan, rfl, rfl⟩ := h
  obtain ⟨bytes, words⟩ := commit_lengths plan
  exact ⟨s', _, hs, exec_of_plan plan, rfl, bytes.symm, words.symm⟩

/-- A command that completes, completes alike under all contents of the undefined cells. -/
theorem planOf_eq_of_exec_next {s' t : State} (hs : Extends s s') (h : exec i s = .next t) :
    planOf i s' = planOf i s := by
  cases planOf_definedAs hs i with
  | same same => exact same
  | fault f hf => cases h.symm.trans (exec_of_plan hf)

/-- The write set of a command that would succeed is what it would write in BITBUF and PAYLOAD. -/
theorem writeSet_of_success {t : State} (h : exec i s = .next t) (hd : t.done = true) :
    (writeSet i s).bitbuf = storedBytes i t ∧ (writeSet i s).payload = storedWords i t := by
  obtain ⟨covers, reached⟩ := writeSet_isExact i s
  obtain ⟨bytes, words⟩ := covers _ _ (couldWrite_of_done (.refl s) h hd)
  rcases reached with ⟨noBytes, noWords⟩ | ⟨s', c, hs, plan, hbytes, hwords⟩
  · omega
  · obtain ⟨c', plan', rfl⟩ := exec_next_done h hd
    cases plan.symm.trans ((planOf_eq_of_exec_next hs h).trans plan')
    obtain ⟨bytes', words'⟩ := commit_lengths plan'
    exact ⟨hbytes.symm.trans bytes', hwords.symm.trans words'⟩

/-- The write set of a command that would fail is empty in BITBUF and PAYLOAD (log entry 8). -/
theorem writeSet_of_failure {t : State} (h : exec i s = .next t) (hd : t.done = false) :
    (writeSet i s).bitbuf = 0 ∧ (writeSet i s).payload = 0 := by
  rcases (writeSet_isExact i s).reached with empty | ⟨s', c, hs, plan, -⟩
  · exact empty
  · cases h.symm.trans (exec_of_plan ((planOf_eq_of_exec_next hs h).symm.trans plan))
    cases hd

end

/-- Settles O46: a reset forgets the write set; its RASTER extent is the one of rule R213, and in BITBUF and PAYLOAD it
is exactly what the command could write, which is what it does write when its result is defined. -/
theorem busyResetForgetsTheWriteSet : Obligations.BusyResetForgetsTheWriteSet := by
  intro s i hb hi
  obtain ⟨raster, bitbuf, payload⟩ := resetMachine_forgets hb hi
  obtain ⟨covers, reached⟩ := writeSet_isExact i s
  refine ⟨fun a => ?raster, fun t nb np h hnb hnp a => ?defined, fun s' t hs h hd a => ?lost, fun h1 h2 => ?bitbuf,
    fun h1 h2 => ?payload, fun a => ?kept⟩
  case raster =>
    rw [raster]
    refine (Memory.read_eraseBelow ..).trans (congrArg (if a < · then none else Memory.read s.raster a) ?_)
    cases i with
    | embed | encodeEmbed => rfl
    | encode | decode | extract | extractDecode => exact writeSet_raster_eq_zero s (by decide) (by decide)
  case defined =>
    have lengths : (writeSet i s).bitbuf = nb ∧ (writeSet i s).payload = np := by
      cases hd : t.done with
      | false =>
        obtain ⟨bytes, words⟩ := writeSet_of_failure h hd
        rw [hnb, hnp, hd]
        exact ⟨bytes, words⟩
      | true =>
        obtain ⟨bytes, words⟩ := writeSet_of_success h hd
        rw [hnb, hnp, hd]
        exact ⟨bytes.trans (by cases i <;> rfl), words.trans (by cases i <;> rfl)⟩
    obtain ⟨rfl, rfl⟩ := lengths
    rw [bitbuf, payload]
    exact ⟨Memory.read_eraseBelow .., Memory.read_eraseBelow ..⟩
  case lost =>
    obtain ⟨bytes, words⟩ := covers _ _ (couldWrite_of_done hs h hd)
    refine ⟨fun hi ha => ?_, fun hi ha => ?_⟩
    · rw [bitbuf, Memory.read_eraseBelow, if_pos]
      rcases hi with rfl | rfl <;> exact lt_of_lt_of_le ha bytes
    · rw [payload, Memory.read_eraseBelow, if_pos]
      rcases hi with rfl | rfl <;> exact lt_of_lt_of_le ha (Nat.mul_le_mul_left 4 words)
  case bitbuf => rw [bitbuf, writeSet_bitbuf_eq_zero s h1 h2, Memory.eraseBelow_zero]
  case payload => rw [payload, writeSet_payload_eq_zero s h1 h2, Nat.mul_zero, Memory.eraseBelow_zero]
  case kept =>
    have kept {n : Nat} (m : Memory) (hn : n ≤ a) : Memory.read (Memory.eraseBelow m n) a = Memory.read m a := by
      rw [Memory.read_eraseBelow, if_neg (by omega)]
    rcases reached with ⟨noBytes, noWords⟩ | could
    · rw [bitbuf, payload, noBytes, noWords]
      exact ⟨fun _ => kept _ (by omega), fun _ => kept _ (by omega)⟩
    · obtain ⟨s', t, hs, h, hd, bytes, words⟩ := done_of_couldWrite could
      rw [bitbuf, payload, ← bytes, ← words]
      refine ⟨fun behind => kept _ ((storedBytes_le i t).trans (behind s' t hs h hd)), fun behind => kept _ ?_⟩
      exact (Nat.mul_le_mul_left 4 (storedWords_le i t)).trans (behind s' t hs h hd)

end Sys2Proof.Machine
end
